-- ==== Sys2Proof/Word.lean ====
section
/-! DEFINITION. The widths the input stream is made of (00_scope.md R11, 20_memory.md R75): bytes and unsigned
16-bit fields. Every other quantity of the core is a natural number with exact arithmetic (00_scope.md R10). -/

namespace Sys2Proof

/-- A byte, bits 7 down to 0 (R11). -/
abbrev Byte := BitVec 8

/-- An unsigned 16-bit field of a record (R75). -/
abbrev Half := BitVec 16

end Sys2Proof
end

