-- ==== Sys2Proof/Config.lean ====
section
/-! DEFINITION. The fixed parameters of the core (00_scope.md R8) and the reset value of its one open parameter. -/

namespace Sys2Proof.Config

/-- `TABLE_SLOTS`: the prefix and suffix tables are indexed 0..4095 (R8). -/
def tableSlots : Nat := 4096

/-- `STACK_LIMIT`: the output stack never holds more entries (R8, 41_lzw_decoder.md R175). -/
def stackLimit : Nat := 4097

/-- `MAX_CODE_BITS`: growth never takes the code width above this (R8, 41_lzw_decoder.md R178). -/
def maxCodeBits : Nat := 12

/-- The least legal `minCodeSize` (R8, 40_container_parser.md R134). -/
def minCodeSizeLo : Nat := 1

/-- The greatest legal `minCodeSize` (R8, 40_container_parser.md R134). -/
def minCodeSizeHi : Nat := 12

/-- The graphics-control body's block size (R8, 30_encoding.md R97). -/
def graphicsControlSize : Nat := 4

/-- DESIGN CHOICE (log entry 6): bytes of host memory counted for one index-buffer element. The spec fixes only
"any width of 12 bits or more" (93_implementation_defined.md I15). -/
def indexElementBytes : Nat := 2

/-- DESIGN CHOICE (log entry 6): the value `MAX_ALLOC_BYTES` has in `State.reset`. The spec leaves the parameter open
(92_eei_decisions.md D30), so it is a field of State and no statement rests on this value. -/
def resetMaxAllocBytes : Nat := 18446744073709551616

end Sys2Proof.Config
end

