-- ==== Sys2Proof/Syntax.lean ====
section
/-! DEFINITION. The instructions of the core: one constructor per row of spec/opcode_table.json, with the fields that
30_encoding.md gives the row. Ignored bits are fields too, so that encoding and decoding drop no bit. -/

namespace Sys2Proof

/-- One packed triple of a palette record (30_encoding.md R94). -/
structure Rgb where
  r : Byte
  g : Byte
  b : Byte
  deriving DecidableEq, Repr

/-- The instructions, in the order of the opcode table. -/
inductive Instr where
  /-- SIG87: the six bytes "GIF87a" (R91). -/
  | sig87
  /-- SIG89: the six bytes "GIF89a" (R91). -/
  | sig89
  /-- SIG-BAD: any other six bytes (R91). -/
  | sigBad (b0 b1 b2 b3 b4 b5 : Byte)
  /-- LSD: the screen descriptor; `g` is packed bit 7, `ignored` bits 6:3, `n` bits 2:0 (R92, R93). -/
  | lsd (width height : Half) (g : Bool) (ignored : BitVec 4) (n : BitVec 3) (bg aspect : Byte)
  /-- PAL-GLOBAL: the `2^(n+1)` triples after the LSD (R94). -/
  | palGlobal (n : BitVec 3) (rgb : List Rgb)
  /-- NEXT-BLOCK: the introducer byte at a block boundary (R95). -/
  | nextBlock (t : Byte)
  /-- EOF-AT-BOUNDARY: no byte is left at a block boundary (40_container_parser.md R124). -/
  | eofAtBoundary
  /-- EXTENSION: introducer 0x21 and its label byte (R96). -/
  | extension (label : Byte)
  /-- GCE: 0x21 0xF9 and the graphics-control body; `ignoredHi` is packed bits 7:5, `disposal` bits 4:2,
  `ignoredLo` bit 1, `t` bit 0 (R97, R98). -/
  | gce (blockSize : Byte) (ignoredHi disposal : BitVec 3) (ignoredLo t : Bool) (delay : Half) (tIndex : Byte)
  /-- EXT-OTHER: 0x21 and a label other than 0xF9; its chain follows (R96). -/
  | extOther (label : Byte)
  /-- SUB: a sub-block's length byte `1 ≤ len`; `len` data bytes follow (R99). -/
  | sub (len : Byte)
  /-- SUB-TERM: the zero length byte that ends a chain (R99). -/
  | subTerm
  /-- IMG: introducer 0x2C and the image descriptor; `l` is packed bit 7, `interlace` bit 6, `ignored` bits 5:3,
  `n` bits 2:0 (R100, R101). -/
  | img (x y width height : Half) (l interlace : Bool) (ignored n : BitVec 3)
  /-- PAL-LOCAL: the `2^(n+1)` triples after the image descriptor (R94). -/
  | palLocal (n : BitVec 3) (rgb : List Rgb)
  /-- LZW-MIN: the byte `minCodeSize` (R102). -/
  | lzwMin (m : Byte)
  /-- TRAILER: introducer 0x3B (R95). -/
  | trailer
  /-- BLOCK-INVALID: any other introducer (R95). -/
  | blockInvalid (t : Byte)
  /-- CODE_CLEAR: the code equals `clearCode` (R104). -/
  | codeClear
  /-- CODE_END: the code equals `endCode` (R104). -/
  | codeEnd
  /-- CODE_FRESH_LITERAL: no old code, the code is a root (R104). -/
  | codeFreshLiteral (code : Nat)
  /-- CODE_FRESH_INVALID: no old code, the code lies above `endCode` (R104). -/
  | codeFreshInvalid (code : Nat)
  /-- CODE_LITERAL: an old code, the code is a root (R104). -/
  | codeLiteral (code : Nat)
  /-- CODE_TABLE: an old code, the code is a table entry below `avail` (R104). -/
  | codeTable (code : Nat)
  /-- CODE_KWKWK: an old code, the code equals `avail` (R104). -/
  | codeKwkwk
  /-- CODE_OUT_OF_RANGE: an old code, the code lies above `avail` (R104). -/
  | codeOutOfRange (code : Nat)
  /-- DATA_END: the chain ends before a whole code is gathered (R104). -/
  | dataEnd
  /-- DISPOSE-0: UNSPECIFIED (R106). -/
  | dispose0
  /-- DISPOSE-1: NONE (R106). -/
  | dispose1
  /-- DISPOSE-2: BACKGROUND (R106). -/
  | dispose2
  /-- DISPOSE-3: PREVIOUS (R106). -/
  | dispose3
  /-- DISPOSE-4: normalised to UNSPECIFIED (R106). -/
  | dispose4
  /-- DISPOSE-5: normalised to UNSPECIFIED (R106). -/
  | dispose5
  /-- DISPOSE-6: normalised to UNSPECIFIED (R106). -/
  | dispose6
  /-- DISPOSE-7: normalised to UNSPECIFIED (R106). -/
  | dispose7
  /-- BLIT: the draw of the current frame (42_frame_compositor.md R220). -/
  | blit
  /-- SNAPSHOT: the kept copy of the canvas (42_frame_compositor.md R221). -/
  | snapshot
  /-- STORE: the frame's rendered copy of the canvas (42_frame_compositor.md R222). -/
  | store
  deriving DecidableEq, Repr

end Sys2Proof
end

