-- ==== Sys2Proof/WellFormed.lean ====
section
/-! DEFINITION. When an instruction is one its row of the opcode table admits (30_encoding.md). -/

namespace Sys2Proof

/-- Codes are at most 13 bits wide: the width is at most 12, or 13 when `m = 12` (10_state.md R40). -/
def codeBound : Nat := 8192

/-- The check of an instruction's fields against its row: a signature that is not GIF87a or GIF89a (R91), `2^(n+1)`
triples in a palette (R94), a label other than 0xF9 (R96), a nonzero length (R99), an introducer other than 0x21, 0x2C
and 0x3B (R95), a code of at most 13 bits. -/
def Instr.wellFormed : Instr → Bool
  | .sig87 => true
  | .sig89 => true
  | .sigBad b0 b1 b2 b3 b4 b5 =>
    [b0, b1, b2, b3, b4, b5] != [0x47, 0x49, 0x46, 0x38, 0x37, 0x61] &&
      [b0, b1, b2, b3, b4, b5] != [0x47, 0x49, 0x46, 0x38, 0x39, 0x61]
  | .lsd _ _ _ _ _ _ _ => true
  | .palGlobal n rgb => rgb.length == 2 ^ (n.toNat + 1)
  | .nextBlock _ => true
  | .eofAtBoundary => true
  | .extension _ => true
  | .gce _ _ _ _ _ _ _ => true
  | .extOther label => label != 0xF9
  | .sub len => len != 0
  | .subTerm => true
  | .img _ _ _ _ _ _ _ _ => true
  | .palLocal n rgb => rgb.length == 2 ^ (n.toNat + 1)
  | .lzwMin _ => true
  | .trailer => true
  | .blockInvalid t => t != 0x21 && t != 0x2C && t != 0x3B
  | .codeClear => true
  | .codeEnd => true
  | .codeFreshLiteral code => decide (code < codeBound)
  | .codeFreshInvalid code => decide (code < codeBound)
  | .codeLiteral code => decide (code < codeBound)
  | .codeTable code => decide (code < codeBound)
  | .codeKwkwk => true
  | .codeOutOfRange code => decide (code < codeBound)
  | .dataEnd => true
  | .dispose0 => true
  | .dispose1 => true
  | .dispose2 => true
  | .dispose3 => true
  | .dispose4 => true
  | .dispose5 => true
  | .dispose6 => true
  | .dispose7 => true
  | .blit => true
  | .snapshot => true
  | .store => true

end Sys2Proof
end

