-- ==== Sys2Proof/Decode.lean ====
section
/-! DEFINITION. The record formats of 30_encoding.md: reading an instruction from the bytes of its record, and writing
it back. Which format applies is decided by the place reached in the stream (30_encoding.md R111), so the decoder takes
it as an argument. -/

namespace Sys2Proof

/-! ### Fields (30_encoding.md R105) -/

/-- A u16le field from its two bytes (R75, R105). -/
def mkHalf (lo hi : Byte) : Half := hi ++ lo

/-- The low byte of a 16-bit field, stored first (R75). -/
def loByte (h : Half) : Byte := h.extractLsb' 0 8

/-- The high byte of a 16-bit field, stored second (R75). -/
def hiByte (h : Half) : Byte := h.extractLsb' 8 8

/-- The entry count `E = 1 << (n+1)` of a palette with depth field `n` (R105). -/
def paletteEntries (n : BitVec 3) : Nat := 2 ^ (n.toNat + 1)

/-- The label byte of a graphics control (R96). -/
def graphicsControlLabel : Byte := 0xF9

/-- The F-LSD packed byte: `G` in bit 7, ignored bits 6:3, `n` in bits 2:0 (R93). -/
def lsdPacked (g : Bool) (ignored : BitVec 4) (n : BitVec 3) : Byte := BitVec.ofBool g ++ ignored ++ n

/-- The F-GCE packed byte: ignored bits 7:5, the disposal code in bits 4:2, ignored bit 1, `T` in bit 0 (R98). -/
def gcePacked (ignoredHi disposal : BitVec 3) (ignoredLo t : Bool) : Byte :=
  ignoredHi ++ disposal ++ BitVec.ofBool ignoredLo ++ BitVec.ofBool t

/-- The F-IMG packed byte: `L` in bit 7, `I` in bit 6, ignored bits 5:3, `n` in bits 2:0 (R101). -/
def imgPacked (l interlace : Bool) (ignored n : BitVec 3) : Byte :=
  BitVec.ofBool l ++ BitVec.ofBool interlace ++ ignored ++ n

/-- `k` packed triples from the front of a byte list (R94), none when the bytes run out. -/
def readTriples : Nat → List Byte → Option (List Rgb)
  | 0, _ => some []
  | k + 1, r :: g :: b :: rest => (readTriples k rest).map (⟨r, g, b⟩ :: ·)
  | _ + 1, _ => none

/-- The bytes of packed triples (R94). -/
def tripleBytes : List Rgb → List Byte
  | [] => []
  | c :: cs => c.r :: c.g :: c.b :: tripleBytes cs

/-- The number whose bytes, least significant first, are the list: bit `j` of the data string of R103 is bit `j` of
it. -/
def leNat : List Byte → Nat
  | [] => 0
  | b :: bs => b.toNat + 256 * leNat bs

/-- The `k` low bytes of a number, least significant first (R103). -/
def leBytes : Nat → Nat → List Byte
  | 0, _ => []
  | k + 1, v => BitVec.ofNat 8 v :: leBytes k (v / 256)

/-! ### The LZW code map (30_encoding.md R104) -/

/-- What the class of a code depends on (R104): `C`, `E`, `A`, the width at which it is read, and whether
`oldCode = None`. -/
structure CodeCtx where
  clearCode : Nat
  endCode : Nat
  avail : Nat
  codeSize : Nat
  fresh : Bool
  deriving DecidableEq, Repr

/-- The class of a code, tested in the order of R104. -/
def classify (c : CodeCtx) (code : Nat) : Instr :=
  if code = c.clearCode then .codeClear
  else if code = c.endCode then .codeEnd
  else if c.fresh then
    if code < c.clearCode then .codeFreshLiteral code else .codeFreshInvalid code
  else if code < c.clearCode then .codeLiteral code
  else if code < c.avail then .codeTable code
  else if code = c.avail then .codeKwkwk
  else .codeOutOfRange code

/-- The instruction of a disposal code (R106). -/
def disposeInstr (code : BitVec 3) : Instr :=
  match code.toNat with
  | 0 => .dispose0
  | 1 => .dispose1
  | 2 => .dispose2
  | 3 => .dispose3
  | 4 => .dispose4
  | 5 => .dispose5
  | 6 => .dispose6
  | _ => .dispose7

/-! ### The decoder -/

/-- The record format expected at a place of the stream (R111), or the compositor step due. -/
inductive Format where
  | header
  | screen
  | globalPalette (n : BitVec 3)
  | boundary
  | introducer
  | extension
  | subBlock
  | localPalette (n : BitVec 3)
  | minCodeSize
  | code (c : CodeCtx)
  | disposal
  | blit
  | snapshot
  | store
  deriving DecidableEq, Repr

/-- Why bytes are not an instruction of a format. -/
inductive DecodeError where
  /-- The record needs more bytes than were given. -/
  | tooShort
  /-- The record does not begin with the byte its format fixes. -/
  | wrongIntroducer
  deriving DecidableEq, Repr

/-- F-HDR (R91). -/
def decodeHeader : List Byte → Except DecodeError Instr
  | b0 :: b1 :: b2 :: b3 :: b4 :: b5 :: _ =>
    if [b0, b1, b2, b3, b4, b5] = [0x47, 0x49, 0x46, 0x38, 0x37, 0x61] then .ok .sig87
    else if [b0, b1, b2, b3, b4, b5] = [0x47, 0x49, 0x46, 0x38, 0x39, 0x61] then .ok .sig89
    else .ok (.sigBad b0 b1 b2 b3 b4 b5)
  | _ => .error .tooShort

/-- F-LSD (R92, R93). -/
def decodeScreen : List Byte → Except DecodeError Instr
  | w0 :: w1 :: h0 :: h1 :: p :: bg :: aspect :: _ =>
    .ok (.lsd (mkHalf w0 w1) (mkHalf h0 h1) (p.getLsbD 7) (p.extractLsb' 3 4) (p.extractLsb' 0 3) bg aspect)
  | _ => .error .tooShort

/-- F-PAL (R94) as the record of instruction `mk`. -/
def decodePalette (mk : BitVec 3 → List Rgb → Instr) (n : BitVec 3) (bs : List Byte) : Except DecodeError Instr :=
  match readTriples (paletteEntries n) bs with
  | some rgb => .ok (mk n rgb)
  | none => .error .tooShort

/-- The byte at a block boundary, or its absence (R95, 40_container_parser.md R124). -/
def decodeBoundary : List Byte → Except DecodeError Instr
  | [] => .ok .eofAtBoundary
  | t :: _ => .ok (.nextBlock t)

/-- F-IMG after its introducer (R100, R101). -/
def decodeImage : List Byte → Except DecodeError Instr
  | x0 :: x1 :: y0 :: y1 :: w0 :: w1 :: h0 :: h1 :: p :: _ =>
    .ok (.img (mkHalf x0 x1) (mkHalf y0 y1) (mkHalf w0 w1) (mkHalf h0 h1) (p.getLsbD 7) (p.getLsbD 6)
      (p.extractLsb' 3 3) (p.extractLsb' 0 3))
  | _ => .error .tooShort

/-- The record an introducer selects (R95). -/
def decodeIntroducer : List Byte → Except DecodeError Instr
  | [] => .error .tooShort
  | t :: rest =>
    if t = 0x21 then
      match rest with
      | label :: _ => .ok (.extension label)
      | [] => .error .tooShort
    else if t = 0x2C then decodeImage rest
    else if t = 0x3B then .ok .trailer
    else .ok (.blockInvalid t)

/-- F-GCE after its introducer and label (R97, R98). -/
def decodeGraphicsControl : List Byte → Except DecodeError Instr
  | size :: p :: d0 :: d1 :: k :: _ =>
    .ok (.gce size (p.extractLsb' 5 3) (p.extractLsb' 2 3) (p.getLsbD 1) (p.getLsbD 0) (mkHalf d0 d1) k)
  | _ => .error .tooShort

/-- F-EXT from its introducer: the label selects the body (R96). -/
def decodeExtension : List Byte → Except DecodeError Instr
  | t :: label :: rest =>
    if t = 0x21 then
      if label = graphicsControlLabel then decodeGraphicsControl rest else .ok (.extOther label)
    else .error .wrongIntroducer
  | _ => .error .tooShort

/-- F-SUB: one length byte (R99). -/
def decodeSubBlock : List Byte → Except DecodeError Instr
  | [] => .error .tooShort
  | len :: _ => .ok (if len = 0 then .subTerm else .sub len)

/-- F-LZW's first byte (R102). -/
def decodeMinCodeSize : List Byte → Except DecodeError Instr
  | [] => .error .tooShort
  | m :: _ => .ok (.lzwMin m)

/-- F-CODE: the next code of the data string, or its end when fewer than `codeSize` bits are left (R103, R104). -/
def decodeCode (c : CodeCtx) (bs : List Byte) : Instr :=
  if 8 * bs.length < c.codeSize then .dataEnd else classify c (leNat bs % 2 ^ c.codeSize)

/-- The disposal code of an F-GCE packed byte (R98, R106). -/
def decodeDisposal : List Byte → Except DecodeError Instr
  | [] => .error .tooShort
  | p :: _ => .ok (disposeInstr (p.extractLsb' 2 3))

/-- The instruction that the bytes are in a format, total on any bytes. -/
def decode (f : Format) (bs : List Byte) : Except DecodeError Instr :=
  match f with
  | .header => decodeHeader bs
  | .screen => decodeScreen bs
  | .globalPalette n => decodePalette .palGlobal n bs
  | .boundary => decodeBoundary bs
  | .introducer => decodeIntroducer bs
  | .extension => decodeExtension bs
  | .subBlock => decodeSubBlock bs
  | .localPalette n => decodePalette .palLocal n bs
  | .minCodeSize => decodeMinCodeSize bs
  | .code c => .ok (decodeCode c bs)
  | .disposal => decodeDisposal bs
  | .blit => .ok .blit
  | .snapshot => .ok .snapshot
  | .store => .ok .store

/-! ### The encoder -/

/-- A code word of the context's width, LSB first, alone in its bytes (R103). -/
def codeBytes (c : CodeCtx) (v : Nat) : List Byte := leBytes ((c.codeSize + 7) / 8) v

/-- An F-GCE packed byte with the disposal code `d` and every other bit 0 (R98, R106). -/
def disposalByte (d : BitVec 3) : Byte := gcePacked 0 d false false

/-- The bytes of an instruction's record, from the record's first byte as the opcode table counts them. A code class is
written as one code word of the context's width; a step of the compositor, EOF-AT-BOUNDARY and DATA_END have no
bytes. -/
def encode (c : CodeCtx) : Instr → List Byte
  | .sig87 => [0x47, 0x49, 0x46, 0x38, 0x37, 0x61]
  | .sig89 => [0x47, 0x49, 0x46, 0x38, 0x39, 0x61]
  | .sigBad b0 b1 b2 b3 b4 b5 => [b0, b1, b2, b3, b4, b5]
  | .lsd w h g ignored n bg aspect =>
    [loByte w, hiByte w, loByte h, hiByte h, lsdPacked g ignored n, bg, aspect]
  | .palGlobal _ rgb => tripleBytes rgb
  | .nextBlock t => [t]
  | .eofAtBoundary => []
  | .extension label => [0x21, label]
  | .gce size ignoredHi d ignoredLo t delay k =>
    [0x21, graphicsControlLabel, size, gcePacked ignoredHi d ignoredLo t, loByte delay, hiByte delay, k]
  | .extOther label => [0x21, label]
  | .sub len => [len]
  | .subTerm => [0]
  | .img x y w h l interlace ignored n =>
    [0x2C, loByte x, hiByte x, loByte y, hiByte y, loByte w, hiByte w, loByte h, hiByte h,
      imgPacked l interlace ignored n]
  | .palLocal _ rgb => tripleBytes rgb
  | .lzwMin m => [m]
  | .trailer => [0x3B]
  | .blockInvalid t => [t]
  | .codeClear => codeBytes c c.clearCode
  | .codeEnd => codeBytes c c.endCode
  | .codeFreshLiteral code => codeBytes c code
  | .codeFreshInvalid code => codeBytes c code
  | .codeLiteral code => codeBytes c code
  | .codeTable code => codeBytes c code
  | .codeKwkwk => codeBytes c c.avail
  | .codeOutOfRange code => codeBytes c code
  | .dataEnd => []
  | .dispose0 => [disposalByte 0]
  | .dispose1 => [disposalByte 1]
  | .dispose2 => [disposalByte 2]
  | .dispose3 => [disposalByte 3]
  | .dispose4 => [disposalByte 4]
  | .dispose5 => [disposalByte 5]
  | .dispose6 => [disposalByte 6]
  | .dispose7 => [disposalByte 7]
  | .blit => []
  | .snapshot => []
  | .store => []

/-- The format in which an instruction's record is read (R111). -/
def formatOf (c : CodeCtx) : Instr → Format
  | .sig87 => .header
  | .sig89 => .header
  | .sigBad _ _ _ _ _ _ => .header
  | .lsd _ _ _ _ _ _ _ => .screen
  | .palGlobal n _ => .globalPalette n
  | .nextBlock _ => .boundary
  | .eofAtBoundary => .boundary
  | .extension _ => .introducer
  | .gce _ _ _ _ _ _ _ => .extension
  | .extOther _ => .extension
  | .sub _ => .subBlock
  | .subTerm => .subBlock
  | .img _ _ _ _ _ _ _ _ => .introducer
  | .palLocal n _ => .localPalette n
  | .lzwMin _ => .minCodeSize
  | .trailer => .introducer
  | .blockInvalid _ => .introducer
  | .codeClear => .code c
  | .codeEnd => .code c
  | .codeFreshLiteral _ => .code c
  | .codeFreshInvalid _ => .code c
  | .codeLiteral _ => .code c
  | .codeTable _ => .code c
  | .codeKwkwk => .code c
  | .codeOutOfRange _ => .code c
  | .dataEnd => .code c
  | .dispose0 => .disposal
  | .dispose1 => .disposal
  | .dispose2 => .disposal
  | .dispose3 => .disposal
  | .dispose4 => .disposal
  | .dispose5 => .disposal
  | .dispose6 => .disposal
  | .dispose7 => .disposal
  | .blit => .blit
  | .snapshot => .snapshot
  | .store => .store

/-- A code context as the LZ unit can have it: `endCode = clearCode + 1 < avail` and every code it names has
`codeSize` bits (10_state.md R40). -/
def CodeCtx.wellFormed (c : CodeCtx) : Bool :=
  decide (c.endCode = c.clearCode + 1) && decide (c.endCode < c.avail) && decide (0 < c.codeSize)
    && decide (c.endCode < 2 ^ c.codeSize)

/-- The condition column of R104 for a code class, with its value a `codeSize`-bit number; true of every other
instruction. -/
def Instr.fits (c : CodeCtx) : Instr → Bool
  | .codeFreshLiteral code => c.fresh && decide (code < c.clearCode)
  | .codeFreshInvalid code => c.fresh && decide (c.endCode < code) && decide (code < 2 ^ c.codeSize)
  | .codeLiteral code => !c.fresh && decide (code < c.clearCode)
  | .codeTable code =>
    !c.fresh && decide (c.endCode < code) && decide (code < c.avail) && decide (code < 2 ^ c.codeSize)
  | .codeKwkwk => !c.fresh && decide (c.avail < 2 ^ c.codeSize)
  | .codeOutOfRange code => !c.fresh && decide (c.avail < code) && decide (code < 2 ^ c.codeSize)
  | _ => true

/-! ### Words of the opcode table -/

/-- The `k` low bytes of a number, most significant first. The table writes a record's first byte as the most
significant one: its GCE word is 0x21F9 for the bytes 21 F9 (log entry 18). -/
def beBytes (k v : Nat) : List Byte := (leBytes k v).reverse

/-- The bytes of a table word, followed by zeros up to the longest record that begins with a table word (F-IMG, 10
bytes). -/
def tableBytes (nbits w : Nat) : List Byte := beBytes (nbits / 8) w ++ List.replicate 10 0

/-- The format a table word is read in: F-HDR for 6 bytes, F-LSD for 7, F-EXT with its label for 2, and for 1 byte the
introducers, the terminator 0x00, and otherwise the F-GCE packed byte of DISPOSE-0..7 (log entry 18). -/
def tableFormat (nbits w : Nat) : Option Format :=
  if nbits = 48 then some .header
  else if nbits = 56 then some .screen
  else if nbits = 16 then some .extension
  else if nbits = 8 then
    if w = 0x21 ∨ w = 0x2C ∨ w = 0x3B then some .introducer
    else if w = 0 then some .subBlock
    else some .disposal
  else none

/-- The instruction this decoder reads from a word of the opcode table. -/
def decodeTableWord (nbits w : Nat) : Option Instr :=
  match tableFormat nbits w with
  | none => none
  | some f =>
    match decode f (tableBytes nbits w) with
    | .ok i => some i
    | .error _ => none

end Sys2Proof
end

