-- ==== Sys2Proof/Machine/State.lean ====
section
/-! DEFINITION. The state of the decode core: every register, record and buffer of 10_state.md, the inputs of a call,
and the place reached in the pseudocode. Plain data throughout. -/

namespace Sys2Proof.Machine

/-! ### Memories -/

/-- A byte memory: address and byte, addresses strictly rising, no byte that is 0. An unlisted address reads as 0
(log entries 7 and 8). It holds the input buffer and every RGBA buffer (20_memory.md R70). -/
abbrev Memory := List Host.Cell

/-- An index buffer or an LZ table: element number and value, in the same form (20_memory.md R70, 10_state.md R41). -/
abbrev Elements := List (Nat × Nat)

/-! ### Records (10_state.md §3) -/

/-- One palette entry or pixel, four bytes in the order R, G, B, A (R27, 20_memory.md R76). -/
structure Rgba where
  r : Byte
  g : Byte
  b : Byte
  a : Byte
  deriving DecidableEq, Repr

/-- A palette: its entries in order (R27). -/
abbrev Palette := List Rgba

/-- The four disposal methods (R28). -/
inductive Disposal where
  | unspecified
  | none
  | background
  | previous
  deriving DecidableEq, Repr

/-- A graphics control (R28). -/
structure GraphicsControl where
  delay : Half
  isTransparent : Bool
  transparencyIndex : Byte
  disposal : Disposal
  deriving DecidableEq, Repr

/-- The screen-descriptor registers (R26). -/
structure Screen where
  width : Half
  height : Half
  globalColors : Option Palette
  backgroundIndex : Byte
  aspect : Byte
  deriving DecidableEq, Repr

/-- An image descriptor (R30). -/
structure ImageDescriptor where
  x : Half
  y : Half
  width : Half
  height : Half
  localColors : Option Palette
  interlace : Bool
  deriving DecidableEq, Repr

/-- A frame (R31). `indexData` has `desc.width × desc.height` elements, row-major (20_memory.md R72, R77); `rendered`
is `4·W·H` bytes laid out by 20_memory.md R76. -/
structure Frame where
  desc : ImageDescriptor
  gc : Option GraphicsControl
  minCodeSize : Nat
  indexData : Elements
  rendered : Option Memory
  deriving DecidableEq, Repr

/-- The result value of a successful call (R33). -/
structure Image where
  version : Nat
  screen : Screen
  frames : List Frame
  deriving DecidableEq, Repr

/-! ### Errors (60_exceptions.md) -/

/-- The six error kinds (R240); `errorCode` gives each its number. -/
inductive ErrorKind where
  | truncatedStream
  | malformedHeader
  | malformedBlock
  | malformedStream
  | corruptLzwStream
  | stackOverflow
  deriving DecidableEq, Repr

/-- The eleven step tags (R241). -/
inductive StepTag where
  | header
  | screenDescriptor
  | globalPalette
  | blockType
  | extensionLabel
  | graphicsControl
  | extensionSubblocks
  | imageDescriptor
  | localPalette
  | lzwMinCodeSize
  | lzwData
  deriving DecidableEq, Repr

/-- The status register (R36). -/
inductive Result where
  | running
  | success (image : Image)
  | failure (kind : ErrorKind) (step : StepTag)
  deriving DecidableEq, Repr

/-! ### Where the engine is -/

/-- The phase register (R24). -/
inductive Phase where
  | header
  | screen
  | blocks
  | image
  | composite
  | done
  | failed
  deriving DecidableEq, Repr

/-- Whose sub-block chain is being walked, and so what its end means and under which tag it fails: an extension's
(40_container_parser.md R128), a graphics control's with the record read before it and its disposal code (R129), or the
rest of an image's data after its end code (41_lzw_decoder.md R169). -/
inductive ChainOwner where
  | extension
  | graphicsControl (g : GraphicsControl) (opcode : BitVec 3)
  | imageData
  deriving DecidableEq, Repr

/-- The model's own register: the place reached in the pseudocode (log entry 1), with the values that it holds there
in a local variable (the introducer `t`, the label, the depth field `n`). -/
inductive Site where
  | header
  | screen
  | globalPalette (n : BitVec 3)
  | boundary
  | introducer (t : Byte)
  | extension (label : Byte)
  | chain (owner : ChainOwner)
  | localPalette (n : BitVec 3)
  | minCodeSize
  | imageData
  | dispose
  | blit
  | snapshot
  | store
  | ended
  deriving DecidableEq, Repr

/-! ### Working registers -/

/-- The LZ registers (R40 to R44). The top of `stack` is its head. -/
structure LzRegs where
  m : Nat
  clearCode : Nat
  endCode : Nat
  codeSize : Nat
  avail : Nat
  oldCode : Option Nat
  firstChar : Nat
  prefixTab : Elements
  suffixTab : Elements
  stack : List Nat
  acc : Nat
  accBits : Nat
  blockRemaining : Nat
  dataDone : Bool
  outPos : Nat
  target : Elements
  width : Nat
  height : Nat
  interlace : Bool
  deriving DecidableEq, Repr

/-- The FC registers (R50). -/
structure FcRegs where
  canvas : Memory
  kept : Option Memory
  i : Nat
  deriving DecidableEq, Repr

/-- The machine's state. -/
structure State where
  /-- Input: the byte buffer (R22). -/
  buf : Memory
  /-- Input: its length `N` (R22). -/
  bufLen : Nat
  /-- Input: whether compositing runs (R22, R35). -/
  compositeEnable : Bool
  /-- Parameter: `MAX_ALLOC_BYTES` (00_scope.md R9, 20_memory.md R86; log entry 6). -/
  maxAllocBytes : Nat
  /-- The program counter (R23). -/
  cursor : Nat
  /-- The phase (R24). -/
  phase : Phase
  /-- The model's own: the place in the pseudocode (log entry 1). -/
  site : Site
  /-- `header.version` (R25). -/
  version : Nat
  /-- The screen descriptor (R26). -/
  screen : Screen
  /-- The flag `hasGlobal` (R34). -/
  hasGlobal : Bool
  /-- The flag `hasLocal` (R34). -/
  hasLocal : Bool
  /-- The pending graphics control (R29). -/
  pendingGC : Option GraphicsControl
  /-- The model's own: the disposal code of the pending graphics control as read (log entry 10). -/
  pendingOpcode : BitVec 3
  /-- The image descriptor in the making (R30). -/
  desc : ImageDescriptor
  /-- The LZ registers (R40 to R44). -/
  lz : LzRegs
  /-- The frames, in stream order (R32). -/
  frames : List Frame
  /-- The model's own: the disposal code of each frame, the compositor's opcode of 30_encoding.md R106 (log entry
  10). -/
  opcodes : List (BitVec 3)
  /-- The FC registers (R50). -/
  fc : FcRegs
  /-- The status register (R36). -/
  result : Result
  deriving DecidableEq, Repr

/-! ### Outcomes -/

/-- Why the machine stops. Every one of these is safe: the machine stops where the spec gives no effect, in a place that
no run from reset reaches. -/
inductive Fault where
  /-- Raised by a meaning executed where the grammar does not put its record (30_encoding.md R111): at another place of
  the pseudocode, a code where the data ends or the reverse, a data code without an old code. Safe (log entry 11). -/
  | misplaced
  /-- Raised by the bit reader when a data byte is due at an address that does not exist (`N` or above) although its
  sub-block was checked (00_scope.md R12). Safe (log entry 13). -/
  | outsideBuffer
  /-- Raised by a compositor step when the frame it acts on does not exist (42_frame_compositor.md R212). Safe (log
  entry 11). -/
  | noFrame
  deriving DecidableEq, Repr

/-- Why the machine gives an instruction no meaning. -/
inductive Refusal where
  /-- Raised by `exec` for an instruction that has no meaning yet. Safe. -/
  | notModelled (mnemonic : String)
  /-- Raised by LZW-MIN, TRAILER, SNAPSHOT and STORE when an index buffer or an RGBA buffer would pass
  `MAX_ALLOC_BYTES`: the spec refuses the call (20_memory.md R86, 92_eei_decisions.md D30). Safe (log entry 6). -/
  | allocLimit
  deriving DecidableEq, Repr

/-- The outcome of one step. -/
abbrev Out := Host.Outcome State Fault Refusal

/-- What `ReadCode` gives (41_lzw_decoder.md R164), with the state in which it leaves the bit reader: a code, the end of
the data (R166), TruncatedStream (R165), or a data byte at an address that does not exist (log entry 13). -/
inductive CodeRead where
  | code (value : Nat) (s : State)
  | dataEnd (s : State)
  | truncated (s : State)
  | outside
  deriving DecidableEq, Repr

/-- What the fetch finds: an instruction, the failed read of a code word (R164, R165), a data byte at an address that
does not exist, or a call that has ended. -/
inductive Fetched where
  | instr (i : Instr)
  | truncatedCode (s : State)
  | outside
  | ended
  deriving DecidableEq, Repr

/-! ### Reset (R60) -/

/-- Screen registers before they are parsed (R60: unset; log entry 4). -/
def Screen.reset : Screen :=
  { width := 0, height := 0, globalColors := none, backgroundIndex := 0, aspect := 0 }

/-- No image descriptor in the making (log entry 4). -/
def ImageDescriptor.reset : ImageDescriptor :=
  { x := 0, y := 0, width := 0, height := 0, localColors := none, interlace := false }

/-- LZ registers while not live (R60; log entry 4). -/
def LzRegs.reset : LzRegs :=
  { m := 0, clearCode := 0, endCode := 0, codeSize := 0, avail := 0, oldCode := none, firstChar := 0,
    prefixTab := [], suffixTab := [], stack := [], acc := 0, accBits := 0, blockRemaining := 0, dataDone := false,
    outPos := 0, target := [], width := 0, height := 0, interlace := false }

/-- FC registers while not live (R60; log entry 4), and at the start of the composite phase (R62): the canvas all
zero, no snapshot, frame 0. -/
def FcRegs.reset : FcRegs := { canvas := [], kept := none, i := 0 }

/-- The machine at the start of a decode call (R60, 70_reset_and_hazards.md R270). The inputs are the host's; at reset
none has been placed (log entries 5 and 6). -/
def State.reset : State :=
  { buf := [], bufLen := 0, compositeEnable := false, maxAllocBytes := Config.resetMaxAllocBytes,
    cursor := 0, phase := .header, site := .header, version := 0, screen := Screen.reset,
    hasGlobal := false, hasLocal := false, pendingGC := none, pendingOpcode := 0, desc := ImageDescriptor.reset,
    lz := LzRegs.reset, frames := [], opcodes := [], fc := FcRegs.reset, result := .running }

end Sys2Proof.Machine
end

