-- ==== Sys2Proof/Machine/Ops.lean ====
section
/-! DEFINITION. The operations every meaning is made of: memories in canonical form, the input primitives of
00_scope.md R12, the abort of a call, the place in the pseudocode, the allocation limit, and the bit reader. -/

namespace Sys2Proof.Machine

/-! ### Cells in canonical form -/

/-- The value at an address; an unlisted address reads as `d`. -/
def cellRead {α : Type} (d : α) : List (Nat × α) → Nat → α
  | [], _ => d
  | (a, v) :: m, k => if k = a then v else cellRead d m k

/-- The memory with one value replaced; writing `d` removes the entry. -/
def cellWrite {α : Type} [DecidableEq α] (d : α) : List (Nat × α) → Nat → α → List (Nat × α)
  | [], k, v => if v = d then [] else [(k, v)]
  | (a, x) :: m, k, v =>
    if k < a then (if v = d then (a, x) :: m else (k, v) :: (a, x) :: m)
    else if k = a then (if v = d then m else (k, v) :: m)
    else (a, x) :: cellWrite d m k v

/-- The canonical form: addresses strictly rise and no listed value is `d`. -/
def cellsWf {α : Type} [DecidableEq α] (d : α) : List (Nat × α) → Bool
  | [] => true
  | (a, x) :: m => decide (x ≠ d) && m.all (fun c => decide (a < c.1)) && cellsWf d m

/-- One byte of a memory. -/
def Memory.read (m : Memory) (a : Nat) : Byte := cellRead 0 m a

/-- A memory with one byte replaced. -/
def Memory.write (m : Memory) (a : Nat) (v : Byte) : Memory := cellWrite 0 m a v

/-- The canonical form of a byte memory. -/
def Memory.wf (m : Memory) : Bool := cellsWf (0 : Byte) m

/-- Bytes written one after another from an address on. -/
def Memory.writeBytes (m : Memory) (a : Nat) : List Byte → Memory
  | [] => m
  | b :: bs => Memory.writeBytes (Memory.write m a b) (a + 1) bs

/-- One element of an index buffer or table. -/
def Elements.read (m : Elements) (k : Nat) : Nat := cellRead 0 m k

/-- An index buffer or table with one element replaced: `IndexWrite` of 00_scope.md R13. -/
def Elements.write (m : Elements) (k v : Nat) : Elements := cellWrite 0 m k v

/-- The canonical form of an index buffer or table. -/
def Elements.wf (m : Elements) : Bool := cellsWf 0 m

/-! ### Pixels (00_scope.md R13, 20_memory.md R76) -/

/-- The byte offset of pixel `(x, y)` in a buffer of width `w` (R76). -/
def pixelOffset (w x y : Nat) : Nat := 4 * (y * w + x)

/-- `PixelRead`: the four bytes of a pixel, in the order R, G, B, A. -/
def pixelRead (m : Memory) (w x y : Nat) : Rgba :=
  { r := Memory.read m (pixelOffset w x y), g := Memory.read m (pixelOffset w x y + 1),
    b := Memory.read m (pixelOffset w x y + 2), a := Memory.read m (pixelOffset w x y + 3) }

/-- `PixelWrite`: the four bytes of a pixel, in the order R, G, B, A. -/
def pixelWrite (m : Memory) (w x y : Nat) (p : Rgba) : Memory :=
  Memory.writeBytes m (pixelOffset w x y) [p.r, p.g, p.b, p.a]

/-- The pixel `(0, 0, 0, 0)`. -/
def Rgba.zero : Rgba := { r := 0, g := 0, b := 0, a := 0 }

/-! ### Input (00_scope.md R12) -/

/-- `buf[a]` for an address below `N`; nothing is read at `N` or above, where the answer is 0 and is never used
(log entry 9). -/
def bufByte (s : State) (a : Nat) : Byte := if a < s.bufLen then Memory.read s.buf a else 0

/-- The `n` bytes at the cursor, of which a meaning uses none before its own `need` (log entry 9). -/
def window (s : State) (n : Nat) : List Byte := (List.range n).map (fun k => bufByte s (s.cursor + k))

/-- The cursor moved past `n` consumed bytes (10_state.md R23). -/
def advance (n : Nat) (s : State) : State := { s with cursor := s.cursor + n }

/-! ### Places and phases (10_state.md R24) -/

/-- The phase a place of the pseudocode lies in (40_container_parser.md R120). -/
def phaseOf : Site → Phase
  | .header => .header
  | .screen => .screen
  | .globalPalette _ => .screen
  | .boundary => .blocks
  | .introducer _ => .blocks
  | .extension _ => .blocks
  | .chain .extension => .blocks
  | .chain (.graphicsControl _ _) => .blocks
  | .chain .imageData => .image
  | .localPalette _ => .image
  | .minCodeSize => .image
  | .imageData => .image
  | .dispose => .composite
  | .blit => .composite
  | .snapshot => .composite
  | .store => .composite
  | .ended => .done

/-- Go on at another place, in the phase it lies in. -/
def goTo (site : Site) (s : State) : State := { s with site := site, phase := phaseOf site }

/-! ### The end of a call -/

/-- The call ends in phase `p` with result `r`: every register is dropped but the inputs, the cursor and the result
(10_state.md R53; log entry 2). -/
def endCall (p : Phase) (r : Result) (s : State) : State :=
  { s with
    phase := p, site := .ended, result := r,
    version := 0, screen := Screen.reset, hasGlobal := false, hasLocal := false, pendingGC := none,
    pendingOpcode := 0, desc := ImageDescriptor.reset, lz := LzRegs.reset, frames := [], opcodes := [],
    fc := FcRegs.reset }

/-- The numeric code of an error kind (60_exceptions.md R240). -/
def errorCode : ErrorKind → Nat
  | .truncatedStream => 1
  | .malformedHeader => 2
  | .malformedBlock => 3
  | .malformedStream => 4
  | .corruptLzwStream => 5
  | .stackOverflow => 6

/-- The numeric code that a result reports: that of its kind for a failure, none otherwise (R240, 10_state.md R36). -/
def resultCode : Result → Option Nat
  | .running => none
  | .success _ => none
  | .failure kind _ => some (errorCode kind)

/-- `raise kind(step)`: the call is aborted with `Failure(kind, step)` and nothing else survives (00_scope.md R14,
60_exceptions.md R243). -/
def raise (kind : ErrorKind) (step : StepTag) (s : State) : State := endCall .failed (.failure kind step) s

/-- The call succeeds with the image parsed (40_container_parser.md R120). -/
def succeed (s : State) : State :=
  endCall .done (.success { version := s.version, screen := s.screen, frames := s.frames }) s

/-- `Need(n, step)`, then the rest of the operation (00_scope.md R12). -/
def need (n : Nat) (step : StepTag) (s : State) (rest : Out) : Out :=
  if s.cursor + n > s.bufLen then .next (raise .truncatedStream step s) else rest

/-! ### The allocation limit (20_memory.md R86, log entry 6) -/

/-- The bytes of an index buffer. -/
def indexBytes (d : ImageDescriptor) : Nat := Config.indexElementBytes * (d.width.toNat * d.height.toNat)

/-- The bytes `4·W·H` of a canvas-sized buffer (20_memory.md R74). -/
def canvasBytes (s : State) : Nat := 4 * (s.screen.width.toNat * s.screen.height.toNat)

/-- The bytes of the index buffers and canvas-sized buffers that exist. -/
def allocated (s : State) : Nat :=
  (s.frames.map (fun f => indexBytes f.desc + if f.rendered.isSome then canvasBytes s else 0)).sum
    + if s.phase = .composite then canvasBytes s + (if s.fc.kept.isSome then canvasBytes s else 0) else 0

/-- Allocate `bytes` more and go on, or refuse the call (R86). -/
def allocate (bytes : Nat) (s : State) (rest : Out) : Out :=
  if allocated s + bytes > s.maxAllocBytes then .refused .allocLimit else rest

/-! ### Sub-block chains (40_container_parser.md R126) -/

/-- The step tag under which a chain fails (R128, R129; 41_lzw_decoder.md R169). -/
def chainTag : ChainOwner → StepTag
  | .extension => .extensionSubblocks
  | .graphicsControl _ _ => .graphicsControl
  | .imageData => .lzwData

/-- ImageBlock completion (40_container_parser.md R136): the frame is appended with the pending graphics control, the
pending slot is cleared, and the LZ registers are discarded (10_state.md R45). DESIGN CHOICE (log entry 4): the spec gives
`hasLocal`, the descriptor in the making and the discarded LZ registers no value between two image blocks; the model gives
them their reset values. -/
def completeImage (s : State) : State :=
  goTo .boundary
    { s with
      frames := s.frames ++
        [{ desc := s.desc, gc := s.pendingGC, minCodeSize := s.lz.m, indexData := s.lz.target, rendered := none }],
      opcodes := s.opcodes ++ [if s.pendingGC.isSome then s.pendingOpcode else 0],
      pendingGC := none, pendingOpcode := 0, desc := ImageDescriptor.reset, hasLocal := false, lz := LzRegs.reset }

/-- What follows a chain's terminator: the block loop for an extension; the pending-slot write (R131) for a graphics
control; the completion of the image for the rest of its data (41_lzw_decoder.md R184). -/
def endChain (owner : ChainOwner) (s : State) : State :=
  match owner with
  | .extension => goTo .boundary s
  | .graphicsControl g opcode => goTo .boundary { s with pendingGC := some g, pendingOpcode := opcode }
  | .imageData => completeImage s

/-! ### The bit reader (41_lzw_decoder.md R164) -/

/-- A sub-block with data left: the current one, or the next one once its whole length is checked (R165). Otherwise
the read of the code ends here: at the terminator (R166) or with TruncatedStream. -/
def openSubBlock (s : State) : Except CodeRead State :=
  if s.lz.blockRemaining ≠ 0 then .ok s
  else if s.cursor + 1 > s.bufLen then .error (.truncated s)
  else
    let len := (bufByte s s.cursor).toNat
    let s1 := advance 1 s
    if len = 0 then .error (.dataEnd { s1 with lz := { s1.lz with dataDone := true } })
    else if s1.cursor + len > s1.bufLen then .error (.truncated s1)
    else .ok { s1 with lz := { s1.lz with blockRemaining := len } }

/-- One data byte put above the bits already held (R164). -/
def pullByte (s : State) : State :=
  let b := (bufByte s s.cursor).toNat
  { s with
    cursor := s.cursor + 1,
    lz := { s.lz with
      blockRemaining := s.lz.blockRemaining - 1,
      acc := s.lz.acc ||| (b <<< s.lz.accBits),
      accBits := s.lz.accBits + 8 } }

/-- The low `codeSize` bits taken from the accumulator (R164). -/
def takeCode (s : State) : CodeRead :=
  .code (s.lz.acc &&& ((1 <<< s.lz.codeSize) - 1))
    { s with lz := { s.lz with acc := s.lz.acc >>> s.lz.codeSize, accBits := s.lz.accBits - s.lz.codeSize } }

/-- The loop of `ReadCode`. Every turn adds 8 bits, so `codeSize` turns are enough (log entry 13). -/
def gatherCode : Nat → State → CodeRead
  | 0, s => takeCode s
  | k + 1, s =>
    if s.lz.codeSize ≤ s.lz.accBits then takeCode s
    else
      match openSubBlock s with
      | .error r => r
      | .ok s1 => if s1.bufLen ≤ s1.cursor then .outside else gatherCode k (pullByte s1)

/-- `ReadCode()` (R164). -/
def readCode (s : State) : CodeRead := gatherCode s.lz.codeSize s

/-- A meaning of a code class: the code word is read, and the rest acts on the state it leaves. -/
def onCode (s : State) (rest : State → Out) : Out :=
  if s.site = .imageData then
    match readCode s with
    | .code _ s1 => rest s1
    | .dataEnd _ => .fault .misplaced
    | .truncated s1 => .next (raise .truncatedStream .lzwData s1)
    | .outside => .fault .outsideBuffer
  else .fault .misplaced

end Sys2Proof.Machine
end

