-- ==== Sys2Proof/Machine/Operands.lean ====
section
/-! DEFINITION. The operands of the records as the registers hold them, and the pixels of a frame: 30_encoding.md R94
and R106, 41_lzw_decoder.md R182, 42_frame_compositor.md R218 and R219. -/

namespace Sys2Proof.Machine

/-- A palette from its packed triples: alpha 0xFF for every entry (40_container_parser.md R123). -/
def paletteOf (rgb : List Rgb) : Palette := rgb.map (fun c => { r := c.r, g := c.g, b := c.b, a := 0xFF })

/-- `DisposalOf` (40_container_parser.md R130): codes 0 to 3 name a method, 4 to 7 are UNSPECIFIED. -/
def disposalOfCode (c : BitVec 3) : Disposal :=
  match c.toNat with
  | 0 => .unspecified
  | 1 => .none
  | 2 => .background
  | 3 => .previous
  | _ => .unspecified

/-- The rows of one interlace pass: `start`, `start + stride`, … below `h` (41_lzw_decoder.md R182). -/
def passRows (start stride h : Nat) : List Nat := List.range' start ((h - start + (stride - 1)) / stride) stride

/-- The row sequence of an interlaced image of height `h` (41_lzw_decoder.md R182). -/
def interlaceRows (h : Nat) : List Nat := passRows 0 8 h ++ passRows 4 8 h ++ passRows 2 4 h ++ passRows 1 2 h

/-- `InterlaceRow(j, h)` (41_lzw_decoder.md R182). -/
def interlaceRow (j h : Nat) : Nat := (interlaceRows h).getD j 0

/-- `Rect(f)`: the canvas pixels of a frame's placement rectangle, each once (42_frame_compositor.md R218), in raster
order (log entry 16). -/
def rect (d : ImageDescriptor) (w h : Nat) : List (Nat × Nat) :=
  (List.range d.height.toNat).flatMap fun r =>
    (List.range d.width.toNat).filterMap fun c =>
      if d.x.toNat + c < w ∧ d.y.toNat + r < h then some (d.x.toNat + c, d.y.toNat + r) else none

/-- The frame's index at canvas pixel `(cx, cy)` of its rectangle (42_frame_compositor.md R217, R220). -/
def indexAt (f : Frame) (cx cy : Nat) : Nat :=
  Elements.read f.indexData ((cy - f.desc.y.toNat) * f.desc.width.toNat + (cx - f.desc.x.toNat))

/-- The active palette: the local one, else the global one, else the empty palette (42_frame_compositor.md R219). -/
def activePalette (screen : Screen) (f : Frame) : Palette :=
  match f.desc.localColors with
  | some p => p
  | none =>
    match screen.globalColors with
    | some p => p
    | none => []

end Sys2Proof.Machine
end

