-- ==== Sys2Proof/Machine/Flags.lean ====
section
/-! DEFINITION. The flags of a frame's graphics control with their defaults (40_container_parser.md R138), and the
conditions the compositor tests (42_frame_compositor.md R217, R221). The core has no arithmetic condition codes
(10_state.md R34). -/

namespace Sys2Proof.Machine

/-- `isTransparentOf(f)` (R138). -/
def isTransparentOf (f : Frame) : Bool :=
  match f.gc with
  | some g => g.isTransparent
  | none => false

/-- `disposalOf(f)` (R138). -/
def disposalOf (f : Frame) : Disposal :=
  match f.gc with
  | some g => g.disposal
  | none => .unspecified

/-- `tIndexOf(f)`, read only when `isTransparentOf(f)` (R138). -/
def tIndexOf (f : Frame) : Nat :=
  match f.gc with
  | some g => g.transparencyIndex.toNat
  | none => 0

/-- `TransparentSource(p, cx, cy)` (42_frame_compositor.md R217). -/
def transparentSource (f : Frame) (cx cy : Nat) : Bool := isTransparentOf f && indexAt f cx cy == tIndexOf f

/-- Whether a frame updates the kept snapshot: its disposal is NONE or UNSPECIFIED (42_frame_compositor.md R221). -/
def keepsSnapshot (f : Frame) : Bool := disposalOf f == .none || disposalOf f == .unspecified

end Sys2Proof.Machine
end

