-- ==== Sys2Proof/Machine/CanvasOps.lean ====
section
/-! DEFINITION. The operations of the compositor on the canvas (42_frame_compositor.md R212 to R220). -/

namespace Sys2Proof.Machine

/-- Write the pixels of a frame's rectangle for which `pixel` gives a value, and leave the others (R215, R216, R220).
`w` and `h` are the screen's. -/
def paintRect (d : ImageDescriptor) (w h : Nat) (pixel : Nat → Nat → Option Rgba) (canvas : Memory) : Memory :=
  (rect d w h).foldl
    (fun cv p =>
      match pixel p.1 p.2 with
      | none => cv
      | some v => pixelWrite cv w p.1 p.2 v)
    canvas

/-- The pixel a blit of `f` draws at `(cx, cy)`: none for a transparent source pixel or an index beyond the palette
(R220). -/
def blitPixel (screen : Screen) (f : Frame) (cx cy : Nat) : Option Rgba :=
  if transparentSource f cx cy then none else (activePalette screen f)[indexAt f cx cy]?

/-- The pixel the BACKGROUND disposal of `p` writes at `(cx, cy)` (R215). -/
def backgroundPixel (p : Frame) (cx cy : Nat) : Option Rgba :=
  if transparentSource p cx cy then none else some Rgba.zero

/-- The pixel the PREVIOUS disposal of `p` writes at `(cx, cy)`: from the kept snapshot, else zero (R216). -/
def previousPixel (kept : Option Memory) (w : Nat) (p : Frame) (cx cy : Nat) : Option Rgba :=
  if transparentSource p cx cy then none
  else
    match kept with
    | some k => some (pixelRead k w cx cy)
    | none => some Rgba.zero

/-- The screen's width `W`. -/
def screenW (s : State) : Nat := s.screen.width.toNat

/-- The screen's height `H`. -/
def screenH (s : State) : Nat := s.screen.height.toNat

/-- The frame being composited, `frames[fc.i]` (R212). -/
def currentFrame (s : State) : Option Frame := s.frames[s.fc.i]?

/-- The prior frame, `frames[fc.i - 1]`; frame 0 has none (R212, 92_eei_decisions.md D40). -/
def priorFrame (s : State) : Option Frame := if s.fc.i = 0 then none else s.frames[s.fc.i - 1]?

/-- The canvas replaced. -/
def withCanvas (canvas : Memory) (s : State) : State := { s with fc := { s.fc with canvas := canvas } }

/-- `Dispose(p)` by one of its methods, then on to the blit (R212, R213). -/
def disposeBy (method : Frame → Memory) (s : State) : Out :=
  if s.site = .dispose then
    match priorFrame s with
    | none => .fault .noFrame
    | some p => .next (goTo .blit (withCanvas (method p) s))
  else .fault .misplaced

/-- NONE and UNSPECIFIED: the canvas carries forward (R214). -/
def disposeNone (s : State) : Out := disposeBy (fun _ => s.fc.canvas) s

/-- BACKGROUND: the prior frame's pixels are cleared (R215). -/
def disposeBackground (s : State) : Out :=
  disposeBy (fun p => paintRect p.desc (screenW s) (screenH s) (backgroundPixel p) s.fc.canvas) s

/-- PREVIOUS: the prior frame's pixels are restored from the kept snapshot (R216). -/
def disposePrevious (s : State) : Out :=
  disposeBy
    (fun p => paintRect p.desc (screenW s) (screenH s) (previousPixel s.fc.kept (screenW s) p) s.fc.canvas) s

/-- The start of the composite phase (R211, 10_state.md R62). With no frame its loop does nothing and the call
succeeds (R212; log entry 3). -/
def beginComposite (s : State) : State :=
  if s.frames.isEmpty then succeed s else goTo .blit { s with fc := FcRegs.reset }

/-- The end of one turn of the compositing loop (R212): the next frame, or the end of the call. -/
def nextFrame (s : State) : State :=
  if s.fc.i + 1 < s.frames.length then goTo .dispose { s with fc := { s.fc with i := s.fc.i + 1 } } else succeed s

end Sys2Proof.Machine
end

