-- ==== Sys2Proof/Machine/Compositor.lean ====
section
/-! DEFINITION. The meanings of the compositor's steps (42_frame_compositor.md). -/

namespace Sys2Proof.Machine

/-- DISPOSE-0: UNSPECIFIED (R214). -/
def execDispose0 (s : State) : Out := disposeNone s

/-- DISPOSE-1: NONE (R214). -/
def execDispose1 (s : State) : Out := disposeNone s

/-- DISPOSE-2: BACKGROUND (R215). -/
def execDispose2 (s : State) : Out := disposeBackground s

/-- DISPOSE-3: PREVIOUS (R216). -/
def execDispose3 (s : State) : Out := disposePrevious s

/-- DISPOSE-4: normalised to UNSPECIFIED (R214). -/
def execDispose4 (s : State) : Out := disposeNone s

/-- DISPOSE-5: normalised to UNSPECIFIED (R214). -/
def execDispose5 (s : State) : Out := disposeNone s

/-- DISPOSE-6: normalised to UNSPECIFIED (R214). -/
def execDispose6 (s : State) : Out := disposeNone s

/-- DISPOSE-7: normalised to UNSPECIFIED (R214). -/
def execDispose7 (s : State) : Out := disposeNone s

/-- BLIT (R220): the current frame is drawn; the snapshot follows when its disposal asks for one, else the store
(R212). -/
def execBlit (s : State) : Out :=
  if s.site = .blit then
    match currentFrame s with
    | none => .fault .noFrame
    | some f =>
      .next (goTo (if keepsSnapshot f then .snapshot else .store)
        (withCanvas (paintRect f.desc (screenW s) (screenH s) (blitPixel s.screen f) s.fc.canvas) s))
  else .fault .misplaced

/-- SNAPSHOT (R221): a copy of the canvas is kept, and the kept one is unchanged for a frame whose disposal is BACKGROUND
or PREVIOUS. Only the first kept copy needs more memory: at most one exists (20_memory.md R86). -/
def execSnapshot (s : State) : Out :=
  if s.site = .snapshot then
    match currentFrame s with
    | none => .fault .noFrame
    | some f =>
      if keepsSnapshot f then
        allocate (if s.fc.kept.isSome then 0 else canvasBytes s) s
          (.next (goTo .store { s with fc := { s.fc with kept := some s.fc.canvas } }))
      else .next (goTo .store s)
  else .fault .misplaced

/-- STORE (R222): the frame's rendered buffer is a copy of the canvas, and the loop goes on (R212). -/
def execStore (s : State) : Out :=
  if s.site = .store then
    match currentFrame s with
    | none => .fault .noFrame
    | some f =>
      allocate (canvasBytes s) s
        (.next (nextFrame
          { s with frames := s.frames.set s.fc.i { f with rendered := some s.fc.canvas } }))
  else .fault .misplaced

end Sys2Proof.Machine
end

