-- ==== Sys2Proof/Machine/LzwOps.lean ====
section
/-! DEFINITION. The operations of the LZW decoder on its registers (41_lzw_decoder.md R161 to R182). -/

namespace Sys2Proof.Machine

/-- The pre-seeded roots: `suffix[i] = i` for `i` below `min(clearCode, 4096)` (R161, R162). -/
def rootSuffixes (clearCode : Nat) : Elements :=
  (List.range (min clearCode Config.tableSlots - 1)).map (fun i => (i + 1, i + 1))

/-- `ResetTable()` (R163). -/
def resetTable (lz : LzRegs) : LzRegs :=
  { lz with codeSize := lz.m + 1, avail := lz.clearCode + 2, oldCode := none }

/-- `Init(m)` for a frame with descriptor `d` (R161, 10_state.md R61). The table slots at `clearCode` and above and
`firstChar` are unspecified; they hold 0 (log entry 12). -/
def initLzw (m : Nat) (d : ImageDescriptor) : LzRegs :=
  resetTable
    { m := m, clearCode := 1 <<< m, endCode := (1 <<< m) + 1, codeSize := 0, avail := 0, oldCode := none,
      firstChar := 0, prefixTab := [], suffixTab := rootSuffixes (1 <<< m), stack := [], acc := 0, accBits := 0,
      blockRemaining := 0, dataDone := false, outPos := 0, target := [], width := d.width.toNat,
      height := d.height.toNat, interlace := d.interlace }

/-- `Push(v)` on a stack whose top is its head: none when the bound is passed (R175). -/
def push (v : Nat) (stack : List Nat) : Option (List Nat) :=
  if Config.stackLimit ≤ stack.length then none else some (v :: stack)

/-- The walk of the prefix chain down to a root, pushing every character, the root's last (R173): the root and the
stack, or none when the stack bound is passed. Every turn pushes one character, so the bound of R175 is reached before
the turns run out (log entry 14). -/
def walkChain (lz : LzRegs) : Nat → Nat → List Nat → Option (Nat × List Nat)
  | 0, _, _ => none
  | k + 1, code, stack =>
    if code < lz.clearCode then (push code stack).map (fun st => (code, st))
    else
      match push (Elements.read lz.suffixTab code) stack with
      | none => none
      | some st => walkChain lz k (Elements.read lz.prefixTab code) st

/-- The characters of `inCode` on the stack (R173), the KwKwK code `avail` by way of `old` and `firstChar` (R174). -/
def resolveCode (lz : LzRegs) (inCode old : Nat) : Option (Nat × List Nat) :=
  if inCode = lz.avail then
    match push lz.firstChar lz.stack with
    | none => none
    | some st => walkChain lz (Config.stackLimit + 1) old st
  else walkChain lz (Config.stackLimit + 1) inCode lz.stack

/-- `CodeSizeGrowth()` (R178). -/
def growCodeSize (lz : LzRegs) : LzRegs :=
  if lz.avail ≥ 1 <<< lz.codeSize ∧ lz.codeSize < Config.maxCodeBits then { lz with codeSize := lz.codeSize + 1 }
  else lz

/-- `Append(p, c)` (R176): none when all slots are in use (R177). -/
def append (p c : Nat) (lz : LzRegs) : Option LzRegs :=
  if lz.avail ≥ Config.tableSlots then none
  else
    some (growCodeSize
      { lz with
        prefixTab := Elements.write lz.prefixTab lz.avail p,
        suffixTab := Elements.write lz.suffixTab lz.avail c,
        avail := lz.avail + 1 })

/-- The element that the `k`-th character of a frame goes to (R180, R181, R182). -/
def outputElement (lz : LzRegs) (k : Nat) : Nat :=
  (if lz.interlace then interlaceRow (k / lz.width) lz.height else k / lz.width) * lz.width + k % lz.width

/-- `Emit(v)` (R180): characters beyond `w·h` are dropped (R183). -/
def emit (v : Nat) (lz : LzRegs) : LzRegs :=
  let k := lz.outPos
  let lz1 := { lz with outPos := k + 1 }
  if lz.width = 0 ∨ lz.height = 0 ∨ k ≥ lz.width * lz.height then lz1
  else { lz1 with target := Elements.write lz.target (outputElement lz k) v }

/-- `while stack != []: Emit(Pop())` (R173). -/
def emitStack (lz : LzRegs) : LzRegs := lz.stack.foldl (fun l v => emit v l) { lz with stack := [] }

/-- `DataCode(code)` (R173 to R179): resolve, append, update the old code, output. -/
def dataCode (inCode : Nat) (s : State) : Out :=
  match s.lz.oldCode with
  | none => .fault .misplaced
  | some old =>
    match resolveCode s.lz inCode old with
    | none => .next (raise .stackOverflow .lzwData s)
    | some (c0, st) =>
      match append old c0 { s.lz with stack := st } with
      | none => .next (raise .corruptLzwStream .lzwData s)
      | some lz1 => .next { s with lz := emitStack { lz1 with oldCode := some inCode, firstChar := c0 } }

end Sys2Proof.Machine
end

