-- ==== Sys2Proof/Machine/Container.lean ====
section
/-! DEFINITION. The meanings of the container parser's instructions (40_container_parser.md). -/

namespace Sys2Proof.Machine

/-- `readHeader` with its length check (R121): the version is recorded and the screen descriptor follows. -/
def readHeader (version : Nat) (s : State) : Out :=
  if s.site = .header then
    need 6 .header s (.next (goTo .screen { advance 6 s with version := version }))
  else .fault .misplaced

/-- SIG87 (R121). -/
def execSig87 (s : State) : Out := readHeader 87 s

/-- SIG89 (R121). -/
def execSig89 (s : State) : Out := readHeader 89 s

/-- SIG-BAD (R121): TruncatedStream before MalformedHeader (92_eei_decisions.md D2). -/
def execSigBad (s : State) : Out :=
  if s.site = .header then need 6 .header s (.next (raise .malformedHeader .header (advance 6 s)))
  else .fault .misplaced

/-- LSD, `readScreenDescriptor` (R122). -/
def execLsd (width height : Half) (g : Bool) (n : BitVec 3) (bg aspect : Byte) (s : State) : Out :=
  if s.site = .screen then
    need 7 .screenDescriptor s
      (.next (goTo (if g then .globalPalette n else .boundary)
        { advance 7 s with
          screen :=
            { width := width, height := height, globalColors := none, backgroundIndex := bg, aspect := aspect },
          hasGlobal := g }))
  else .fault .misplaced

/-- PAL-GLOBAL, `readPalette(n, GLOBAL_PALETTE)` (R123). -/
def execPalGlobal (n : BitVec 3) (rgb : List Rgb) (s : State) : Out :=
  if s.site = .globalPalette n then
    need (3 * paletteEntries n) .globalPalette s
      (.next (goTo .boundary
        { advance (3 * paletteEntries n) s with
          screen := { s.screen with globalColors := some (paletteOf rgb) } }))
  else .fault .misplaced

/-- NEXT-BLOCK, `NextBlockType` (R124). -/
def execNextBlock (t : Byte) (s : State) : Out :=
  if s.site = .boundary then
    if s.bufLen ≤ s.cursor then .next (raise .malformedStream .blockType s)
    else .next (goTo (.introducer t) (advance 1 s))
  else .fault .misplaced

/-- EOF-AT-BOUNDARY (R124). -/
def execEofAtBoundary (s : State) : Out :=
  if s.site = .boundary then .next (raise .malformedStream .blockType s) else .fault .misplaced

/-- EXTENSION: the label is read (R127). -/
def execExtension (label : Byte) (s : State) : Out :=
  if s.site = .introducer 0x21 then
    need 1 .extensionLabel s (.next (goTo (.extension label) (advance 1 s)))
  else .fault .misplaced

/-- GCE, `readGraphicsControl` up to its chain (R129): the size byte and its check, then the body. -/
def execGce (blockSize : Byte) (disposal : BitVec 3) (t : Bool) (delay : Half) (tIndex : Byte) (s : State) : Out :=
  if s.site = .extension graphicsControlLabel then
    need 1 .graphicsControl s
      (if blockSize.toNat ≠ Config.graphicsControlSize then
        .next (raise .malformedBlock .graphicsControl (advance 1 s))
      else
        need 4 .graphicsControl (advance 1 s)
          (.next (goTo
            (.chain (.graphicsControl
              { delay := delay, isTransparent := t, transparencyIndex := tIndex,
                disposal := disposalOfCode disposal }
              disposal))
            (advance 5 s))))
  else .fault .misplaced

/-- EXT-OTHER: the chain is skipped under EXTENSION_SUBBLOCKS (R128). -/
def execExtOther (label : Byte) (s : State) : Out :=
  if s.site = .extension label then .next (goTo (.chain .extension) s) else .fault .misplaced

/-- SUB: one sub-block of a skipped chain (R126). -/
def execSub (len : Byte) (s : State) : Out :=
  match s.site with
  | .chain owner =>
    need 1 (chainTag owner) s
      (need len.toNat (chainTag owner) (advance 1 s) (.next (advance (1 + len.toNat) s)))
  | _ => .fault .misplaced

/-- SUB-TERM: the end of a skipped chain (R126). -/
def execSubTerm (s : State) : Out :=
  match s.site with
  | .chain owner => need 1 (chainTag owner) s (.next (endChain owner (advance 1 s)))
  | _ => .fault .misplaced

/-- IMG, `readImageDescriptor` (R132). -/
def execImg (x y width height : Half) (l interlace : Bool) (n : BitVec 3) (s : State) : Out :=
  if s.site = .introducer 0x2C then
    need 9 .imageDescriptor s
      (.next (goTo (if l then .localPalette n else .minCodeSize)
        { advance 9 s with
          desc :=
            { x := x, y := y, width := width, height := height, localColors := none, interlace := interlace },
          hasLocal := l }))
  else .fault .misplaced

/-- PAL-LOCAL, `readPalette(n, LOCAL_PALETTE)` (R133). -/
def execPalLocal (n : BitVec 3) (rgb : List Rgb) (s : State) : Out :=
  if s.site = .localPalette n then
    need (3 * paletteEntries n) .localPalette s
      (.next (goTo .minCodeSize
        { advance (3 * paletteEntries n) s with
          desc := { s.desc with localColors := some (paletteOf rgb) } }))
  else .fault .misplaced

/-- LZW-MIN: `minCodeSize` and its check (R134), the allocation of the index buffer (R135), and the start of the LZW
decode (41_lzw_decoder.md R161). -/
def execLzwMin (m : Byte) (s : State) : Out :=
  if s.site = .minCodeSize then
    need 1 .lzwMinCodeSize s
      (if m.toNat < Config.minCodeSizeLo ∨ m.toNat > Config.minCodeSizeHi then
        .next (raise .corruptLzwStream .lzwMinCodeSize (advance 1 s))
      else
        allocate (indexBytes s.desc) s
          (.next (goTo .imageData { advance 1 s with lz := initLzw m.toNat s.desc })))
  else .fault .misplaced

/-- TRAILER (R125): the pending control is dropped, then compositing starts or the call succeeds (R120, R139). -/
def execTrailer (s : State) : Out :=
  if s.site = .introducer 0x3B then
    if s.compositeEnable then
      allocate (canvasBytes s) s (.next (beginComposite { s with pendingGC := none, pendingOpcode := 0 }))
    else .next (succeed { s with pendingGC := none, pendingOpcode := 0 })
  else .fault .misplaced

/-- BLOCK-INVALID (R137). -/
def execBlockInvalid (t : Byte) (s : State) : Out :=
  if s.site = .introducer t then .next (raise .malformedStream .blockType s) else .fault .misplaced

end Sys2Proof.Machine
end

