-- ==== Sys2Proof/Machine/Lzw.lean ====
section
/-! DEFINITION. The meanings of the LZW code classes (41_lzw_decoder.md). Each reads its code word first (R164), with the
exceptions of that read. -/

namespace Sys2Proof.Machine

/-- CODE_CLEAR (R168). -/
def execCodeClear (s : State) : Out := onCode s (fun s1 => .next { s1 with lz := resetTable s1.lz })

/-- CODE_END (R169): the rest of the current sub-block is skipped, and the rest of the chain follows. -/
def execCodeEnd (s : State) : Out :=
  onCode s (fun s1 =>
    .next (goTo (.chain .imageData)
      { advance s1.lz.blockRemaining s1 with lz := { s1.lz with blockRemaining := 0 } }))

/-- CODE_FRESH_LITERAL (R170). -/
def execCodeFreshLiteral (code : Nat) (s : State) : Out :=
  onCode s (fun s1 => .next { s1 with lz := { emit code s1.lz with oldCode := some code, firstChar := code } })

/-- CODE_FRESH_INVALID (R171). -/
def execCodeFreshInvalid (s : State) : Out :=
  onCode s (fun s1 => .next (raise .corruptLzwStream .lzwData s1))

/-- CODE_LITERAL (R173). -/
def execCodeLiteral (code : Nat) (s : State) : Out := onCode s (dataCode code)

/-- CODE_TABLE (R173). -/
def execCodeTable (code : Nat) (s : State) : Out := onCode s (dataCode code)

/-- CODE_KWKWK (R174): the code is `avail`. -/
def execCodeKwkwk (s : State) : Out := onCode s (fun s1 => dataCode s1.lz.avail s1)

/-- CODE_OUT_OF_RANGE (R172). -/
def execCodeOutOfRange (s : State) : Out :=
  onCode s (fun s1 => .next (raise .corruptLzwStream .lzwData s1))

/-- DATA_END (R166): the frame's data ends at the terminator, which the bit reader has consumed. -/
def execDataEnd (s : State) : Out :=
  if s.site = .imageData then
    match readCode s with
    | .code _ _ => .fault .misplaced
    | .dataEnd s1 => .next (completeImage s1)
    | .truncated s1 => .next (raise .truncatedStream .lzwData s1)
    | .outside => .fault .outsideBuffer
  else .fault .misplaced

end Sys2Proof.Machine
end

