-- ==== Sys2Proof/Machine/Dispatch.lean ====
section
/-! DEFINITION. The meaning of every instruction, one arm per constructor of Instr. -/

namespace Sys2Proof.Machine

/-- Execute one instruction. -/
def exec (i : Instr) (s : State) : Host.Outcome State Fault Refusal :=
  match i with
  | .sig87 => Sys2Proof.Machine.execSig87 s
  | .sig89 => Sys2Proof.Machine.execSig89 s
  | .sigBad _ _ _ _ _ _ => Sys2Proof.Machine.execSigBad s
  | .lsd width height g _ n bg aspect => Sys2Proof.Machine.execLsd width height g n bg aspect s
  | .palGlobal n rgb => Sys2Proof.Machine.execPalGlobal n rgb s
  | .nextBlock t => Sys2Proof.Machine.execNextBlock t s
  | .eofAtBoundary => Sys2Proof.Machine.execEofAtBoundary s
  | .extension label => Sys2Proof.Machine.execExtension label s
  | .gce blockSize _ disposal _ t delay tIndex => Sys2Proof.Machine.execGce blockSize disposal t delay tIndex s
  | .extOther label => Sys2Proof.Machine.execExtOther label s
  | .sub len => Sys2Proof.Machine.execSub len s
  | .subTerm => Sys2Proof.Machine.execSubTerm s
  | .img x y width height l interlace _ n => Sys2Proof.Machine.execImg x y width height l interlace n s
  | .palLocal n rgb => Sys2Proof.Machine.execPalLocal n rgb s
  | .lzwMin m => Sys2Proof.Machine.execLzwMin m s
  | .trailer => Sys2Proof.Machine.execTrailer s
  | .blockInvalid t => Sys2Proof.Machine.execBlockInvalid t s
  | .codeClear => Sys2Proof.Machine.execCodeClear s
  | .codeEnd => Sys2Proof.Machine.execCodeEnd s
  | .codeFreshLiteral code => Sys2Proof.Machine.execCodeFreshLiteral code s
  | .codeFreshInvalid _ => Sys2Proof.Machine.execCodeFreshInvalid s
  | .codeLiteral code => Sys2Proof.Machine.execCodeLiteral code s
  | .codeTable code => Sys2Proof.Machine.execCodeTable code s
  | .codeKwkwk => Sys2Proof.Machine.execCodeKwkwk s
  | .codeOutOfRange _ => Sys2Proof.Machine.execCodeOutOfRange s
  | .dataEnd => Sys2Proof.Machine.execDataEnd s
  | .dispose0 => Sys2Proof.Machine.execDispose0 s
  | .dispose1 => Sys2Proof.Machine.execDispose1 s
  | .dispose2 => Sys2Proof.Machine.execDispose2 s
  | .dispose3 => Sys2Proof.Machine.execDispose3 s
  | .dispose4 => Sys2Proof.Machine.execDispose4 s
  | .dispose5 => Sys2Proof.Machine.execDispose5 s
  | .dispose6 => Sys2Proof.Machine.execDispose6 s
  | .dispose7 => Sys2Proof.Machine.execDispose7 s
  | .blit => Sys2Proof.Machine.execBlit s
  | .snapshot => Sys2Proof.Machine.execSnapshot s
  | .store => Sys2Proof.Machine.execStore s

end Sys2Proof.Machine
end

