-- ==== Sys2Proof/Machine/Fetch.lean ====
section
/-! DEFINITION. What the engine executes next: the format due at the place reached (30_encoding.md R111), the bytes of
the record, and the instruction they are. The fetch changes no state; a meaning moves the cursor itself. Here too stand
the pieces of `State.withFetchWord` that place a table word where the fetch reads it. -/

namespace Sys2Proof.Machine

/-- What the class of the next code depends on (30_encoding.md R104). -/
def codeCtx (s : State) : CodeCtx :=
  { clearCode := s.lz.clearCode, endCode := s.lz.endCode, avail := s.lz.avail, codeSize := s.lz.codeSize,
    fresh := s.lz.oldCode.isNone }

/-- The disposal code of the prior frame, the compositor's next opcode (30_encoding.md R106). -/
def priorOpcode (s : State) : BitVec 3 := s.opcodes.getD (s.fc.i - 1) 0

/-- The format due at a place, and the bytes of the record from its first byte: those already consumed (the
introducer, the label) and those at the cursor (log entry 9). None for image data, whose codes lie in the bit reader,
and after the end of the call. -/
def recordAt (s : State) : Option (Format × List Byte) :=
  match s.site with
  | .header => some (.header, window s 6)
  | .screen => some (.screen, window s 7)
  | .globalPalette n => some (.globalPalette n, window s (3 * paletteEntries n))
  | .boundary => some (.boundary, if s.bufLen ≤ s.cursor then [] else window s 1)
  | .introducer t => some (.introducer, t :: window s 9)
  | .extension label => some (.extension, 0x21 :: label :: window s 5)
  | .chain _ => some (.subBlock, window s 1)
  | .localPalette n => some (.localPalette n, window s (3 * paletteEntries n))
  | .minCodeSize => some (.minCodeSize, window s 1)
  | .imageData => none
  | .dispose => some (.disposal, [disposalByte (priorOpcode s)])
  | .blit => some (.blit, [])
  | .snapshot => some (.snapshot, [])
  | .store => some (.store, [])
  | .ended => none

/-- The next code of an image's data and its class (41_lzw_decoder.md R167). -/
def fetchCode (s : State) : Fetched :=
  match readCode s with
  | .code v _ => .instr (classify (codeCtx s) v)
  | .dataEnd _ => .instr .dataEnd
  | .truncated s1 => .truncatedCode s1
  | .outside => .outside

/-- The next instruction. -/
def fetch (s : State) : Fetched :=
  if s.site = .imageData then fetchCode s
  else
    match recordAt s with
    | none => .ended
    | some (f, bs) =>
      match decode f bs with
      | .ok i => .instr i
      | .error _ => .outside

/-! ### Placing a table word -/

/-- The place at which a record of a table format is fetched, and how many of its first bytes are consumed by then:
the introducer and, for F-EXT, the label. -/
def tableSite (f : Format) (bs : List Byte) : Site × Nat :=
  match f with
  | .header => (.header, 0)
  | .screen => (.screen, 0)
  | .introducer => (.introducer (bs.getD 0 0), 1)
  | .extension => (.extension (bs.getD 1 0), 2)
  | .subBlock => (.chain .extension, 0)
  | .disposal => (.dispose, 0)
  | _ => (.boundary, 0)

/-- A frame with nothing in it but its disposal code, for a DISPOSE word to act on. -/
def blankFrame (code : BitVec 3) : Frame :=
  { desc := ImageDescriptor.reset,
    gc := some { delay := 0, isTransparent := false, transparencyIndex := 0, disposal := disposalOfCode code },
    minCodeSize := 1, indexData := [], rendered := none }

/-- A record placed in the buffer at the cursor, with the cursor past what is consumed of it. -/
def placeRecord (site : Site) (consumed : Nat) (bs : List Byte) (s : State) : State :=
  goTo site
    { s with
      buf := Memory.writeBytes s.buf s.cursor bs,
      bufLen := max s.bufLen (s.cursor + bs.length),
      cursor := s.cursor + consumed }

/-- A DISPOSE word placed as the disposal code of the prior frame. -/
def placeDisposal (code : BitVec 3) (s : State) : State :=
  goTo .dispose
    { s with frames := [blankFrame code], opcodes := [code], fc := { s.fc with i := 1 } }

/-- A table word placed where the next step fetches it (log entry 5). -/
def placeWord (s : State) (nbits w : Nat) : State :=
  match tableFormat nbits w with
  | none => s
  | some .disposal => placeDisposal (((tableBytes nbits w).getD 0 0).extractLsb' 2 3) s
  | some f => placeRecord (tableSite f (tableBytes nbits w)).1 (tableSite f (tableBytes nbits w)).2 (tableBytes nbits w) s

end Sys2Proof.Machine
end

