-- ==== Sys2Proof/Machine/Step.lean ====
section
/-! DEFINITION. One step of the machine. -/

namespace Sys2Proof.Machine

/-- Fetch and execute. The failed read of a code word raises TruncatedStream(LZW_DATA) (41_lzw_decoder.md R164, R165).
A call that has ended stays as it is: DONE and FAILED are final (10_state.md R24; log entry 3). -/
def step (s : State) : Host.Outcome State Fault Refusal :=
  match fetch s with
  | .instr i => exec i s
  | .truncatedCode s1 => .next (raise .truncatedStream .lzwData s1)
  | .outside => .fault .outsideBuffer
  | .ended => .next s

/-- The state with a word of the opcode table stored where the next step fetches it (log entry 5). -/
def State.withFetchWord (s : State) (nbits w : Nat) : State := placeWord s nbits w

end Sys2Proof.Machine
end

