-- ==== Sys2Proof/Safety.lean ====
section
/-! DEFINITION. What the claims about the machine are stated in: the invariants of a run, the string of a code, and the
measure that every step lowers. -/

namespace Sys2Proof.Machine

/-! ### Errors -/

/-- The (kind, step) pairs that 60_exceptions.md R242 lists; no other can occur. -/
def legalFailures : List (ErrorKind × StepTag) :=
  [(.truncatedStream, .header), (.malformedHeader, .header), (.truncatedStream, .screenDescriptor),
    (.truncatedStream, .globalPalette), (.malformedStream, .blockType), (.truncatedStream, .extensionLabel),
    (.truncatedStream, .graphicsControl), (.malformedBlock, .graphicsControl),
    (.truncatedStream, .extensionSubblocks), (.truncatedStream, .imageDescriptor), (.truncatedStream, .localPalette),
    (.truncatedStream, .lzwMinCodeSize), (.corruptLzwStream, .lzwMinCodeSize), (.truncatedStream, .lzwData),
    (.corruptLzwStream, .lzwData), (.stackOverflow, .lzwData)]

/-- A failed call reports a pair of R242. -/
def FailureLegal (s : State) : Prop := ∀ k t, s.result = .failure k t → (k, t) ∈ legalFailures

/-! ### Memories -/

/-- The memories of a frame are in canonical form. -/
def Frame.canonical (f : Frame) : Bool := Elements.wf f.indexData && f.rendered.all Memory.wf

/-- The memories of a result are in canonical form. -/
def Result.canonical : Result → Bool
  | .running => true
  | .success im => im.frames.all Frame.canonical
  | .failure _ _ => true

/-- Every memory of the state is in canonical form. -/
def State.canonical (s : State) : Bool :=
  Memory.wf s.buf && s.frames.all Frame.canonical && Memory.wf s.fc.canvas && s.fc.kept.all Memory.wf
    && Elements.wf s.lz.prefixTab && Elements.wf s.lz.suffixTab && Elements.wf s.lz.target && s.result.canonical

/-! ### Places -/

/-- Whether a place is one of a sub-block chain. -/
def Site.isChain : Site → Bool
  | .chain _ => true
  | _ => false

/-- Whether the grammar puts an instruction's record at a place of the pseudocode (30_encoding.md R111). -/
def placedAt (i : Instr) (site : Site) : Bool :=
  match i with
  | .sig87 | .sig89 | .sigBad _ _ _ _ _ _ => decide (site = .header)
  | .lsd _ _ _ _ _ _ _ => decide (site = .screen)
  | .palGlobal n _ => decide (site = .globalPalette n)
  | .nextBlock _ | .eofAtBoundary => decide (site = .boundary)
  | .extension _ => decide (site = .introducer 0x21)
  | .gce _ _ _ _ _ _ _ => decide (site = .extension graphicsControlLabel)
  | .extOther label => decide (site = .extension label)
  | .sub _ | .subTerm => site.isChain
  | .img _ _ _ _ _ _ _ _ => decide (site = .introducer 0x2C)
  | .palLocal n _ => decide (site = .localPalette n)
  | .lzwMin _ => decide (site = .minCodeSize)
  | .trailer => decide (site = .introducer 0x3B)
  | .blockInvalid t => decide (site = .introducer t)
  | .codeClear | .codeEnd | .codeFreshLiteral _ | .codeFreshInvalid _ | .codeLiteral _ | .codeTable _ | .codeKwkwk
  | .codeOutOfRange _ | .dataEnd => decide (site = .imageData)
  | .dispose0 | .dispose1 | .dispose2 | .dispose3 | .dispose4 | .dispose5 | .dispose6 | .dispose7 =>
    decide (site = .dispose)
  | .blit => decide (site = .blit)
  | .snapshot => decide (site = .snapshot)
  | .store => decide (site = .store)

/-! ### The cursor and the phase -/

/-- The data of the current sub-block lies in the buffer (41_lzw_decoder.md R165). -/
def BlockInBuffer (s : State) : Prop := s.cursor + s.lz.blockRemaining ≤ s.bufLen

/-- The cursor lies in `0..N`, and so does the sub-block an image's data is being read from (10_state.md R23). -/
def CursorInBuffer (s : State) : Prop := s.cursor ≤ s.bufLen ∧ (s.site = .imageData → BlockInBuffer s)

/-- The phase register holds the phase of the place reached, and `result` is Running until the call ends; then the phase
is DONE with a success or FAILED with a failure (10_state.md R24, R36). -/
def PhaseFits (s : State) : Prop :=
  (s.site ≠ .ended ∧ s.phase = phaseOf s.site ∧ s.result = .running) ∨
  (s.site = .ended ∧ s.phase = .done ∧ ∃ im, s.result = .success im) ∨
  (s.site = .ended ∧ s.phase = .failed ∧ ∃ k t, s.result = .failure k t)

/-! ### The LZ registers -/

/-- The ranges of the LZ registers between two codes (10_state.md R40 to R43), and the facts about the tables that
41_lzw_decoder.md R162 and R176 derive: roots spell themselves, and a chain strictly descends to a root. The tables are
in canonical form. -/
structure LzFits (lz : LzRegs) : Prop where
  m_lo : 1 ≤ lz.m
  m_hi : lz.m ≤ 12
  clear : lz.clearCode = 2 ^ lz.m
  endc : lz.endCode = 2 ^ lz.m + 1
  size_lo : lz.m + 1 ≤ lz.codeSize
  size_hi : lz.codeSize ≤ max (lz.m + 1) 12
  avail_lo : lz.clearCode + 2 ≤ lz.avail
  avail_hi : lz.avail ≤ 4096 ∨ (lz.m = 12 ∧ lz.avail = lz.clearCode + 2)
  old : ∀ c, lz.oldCode = some c → c < lz.avail ∧ c ≠ lz.clearCode ∧ c ≠ lz.endCode ∧ lz.firstChar < lz.clearCode
  roots : ∀ i, i < lz.clearCode → Elements.read lz.suffixTab i = i
  table : ∀ k, lz.clearCode + 2 ≤ k → k < lz.avail →
    Elements.read lz.prefixTab k < k ∧ Elements.read lz.prefixTab k ≠ lz.clearCode ∧
      Elements.read lz.prefixTab k ≠ lz.endCode ∧ Elements.read lz.suffixTab k < lz.clearCode
  prefixWf : Elements.wf lz.prefixTab = true
  suffixWf : Elements.wf lz.suffixTab = true
  stack : lz.stack = []
  accBits : lz.accBits < lz.codeSize + 8
  acc : lz.acc < 2 ^ lz.accBits
  block : lz.blockRemaining ≤ 255
  data : lz.dataDone = false

/-- While an image's data is decoded the LZ registers are in their ranges. -/
def LzInRange (s : State) : Prop := s.site = .imageData → LzFits s.lz

/-- The string of a code (41_lzw_decoder.md R162, R173): a root spells itself; a table code spells its prefix's string
and then its suffix. -/
inductive Spells (lz : LzRegs) : Nat → List Nat → Prop where
  | root (c : Nat) (h : c < lz.clearCode) : Spells lz c [c]
  | entry (c : Nat) (l : List Nat) (h : lz.clearCode ≤ c) (hp : Spells lz (Elements.read lz.prefixTab c) l) :
      Spells lz c (l ++ [Elements.read lz.suffixTab c])

/-! ### Palettes, index buffers and canvases -/

/-- A palette as 10_state.md R27 has it: `2^(n+1)` entries for some `n` in 0..7, every alpha 0xFF. -/
def PaletteFits (p : Palette) : Prop := (∃ n : BitVec 3, p.length = 2 ^ (n.toNat + 1)) ∧ ∀ c ∈ p, c.a = 0xFF

/-- A palette that may be absent. -/
def OptPaletteFits (p : Option Palette) : Prop := ∀ q, p = some q → PaletteFits q

/-- Every palette of the state is one of R27. -/
def PalettesFit (s : State) : Prop :=
  OptPaletteFits s.screen.globalColors ∧ OptPaletteFits s.desc.localColors ∧
  (∀ f ∈ s.frames, OptPaletteFits f.desc.localColors) ∧
  ∀ im, s.result = .success im →
    OptPaletteFits im.screen.globalColors ∧ ∀ f ∈ im.frames, OptPaletteFits f.desc.localColors

/-- No listed element lies at `n` or beyond, or has a value of `bound` or more. -/
def Elements.within (n bound : Nat) (m : Elements) : Prop := ∀ c ∈ m, c.1 < n ∧ c.2 < bound

/-- No listed byte lies at `n` or beyond. -/
def Memory.within (n : Nat) (m : Memory) : Prop := ∀ c ∈ m, c.1 < n

/-- A frame as 10_state.md R31 has it on a screen: an index buffer of `width × height` elements below 4096, a
`minCodeSize` in 1..12, and a rendered buffer, if present, of `4·W·H` bytes. -/
def FrameFits (screen : Screen) (f : Frame) : Prop :=
  Elements.within (f.desc.width.toNat * f.desc.height.toNat) 4096 f.indexData ∧
  1 ≤ f.minCodeSize ∧ f.minCodeSize ≤ 12 ∧
  ∀ m, f.rendered = some m → Memory.within (4 * (screen.width.toNat * screen.height.toNat)) m

/-- Whether the LZ registers belong to an image block in progress: its codes are read, or the rest of its chain is
skipped. -/
def LzLive (s : State) : Prop := s.site = .imageData ∨ s.site = .chain .imageData

/-- Whether a place belongs to the composite phase. -/
def Composing (s : State) : Prop :=
  s.site = .dispose ∨ s.site = .blit ∨ s.site = .snapshot ∨ s.site = .store

/-- The buffers have the sizes the spec gives them (20_memory.md R72, R74): those of every frame, of the frame being
decoded, and the canvas and the snapshot. -/
structure BuffersFit (s : State) : Prop where
  frames : ∀ f ∈ s.frames, FrameFits s.screen f
  target : LzLive s →
    1 ≤ s.lz.m ∧ s.lz.m ≤ 12 ∧ s.lz.width = s.desc.width.toNat ∧ s.lz.height = s.desc.height.toNat ∧
      Elements.within (s.desc.width.toNat * s.desc.height.toNat) 4096 s.lz.target
  canvas : Composing s → Memory.within (4 * (screenW s * screenH s)) s.fc.canvas
  kept : Composing s → ∀ k, s.fc.kept = some k → Memory.within (4 * (screenW s * screenH s)) k
  image : ∀ im, s.result = .success im → ∀ f ∈ im.frames, FrameFits im.screen f

/-! ### The compositor's place -/

/-- The compositor acts on a frame that exists, and a disposal has a prior frame (42_frame_compositor.md R212). -/
def FrameDue (s : State) : Prop :=
  (Composing s → s.fc.i < s.frames.length) ∧ (s.site = .dispose → 0 < s.fc.i)

/-- Every disposal code kept beside a graphics control is the one its method was decoded from (40_container_parser.md
R130): in the pending slot, in a graphics control still being read, and in every frame. -/
structure OpcodesFit (s : State) : Prop where
  length : s.opcodes.length = s.frames.length
  frames : ∀ (i : Nat) (f : Frame) (c : BitVec 3), s.frames[i]? = some f → s.opcodes[i]? = some c →
    disposalOf f = disposalOfCode c
  pending : ∀ g, s.pendingGC = some g → g.disposal = disposalOfCode s.pendingOpcode
  reading : ∀ g c, s.site = .chain (.graphicsControl g c) → g.disposal = disposalOfCode c

/-- Which frames have a rendered buffer (10_state.md R31, R51): none while the stream is parsed; in the composite phase
exactly those before the current one; after a success all of them or none, as `compositeEnable` says
(42_frame_compositor.md R226). -/
structure RenderedFits (s : State) : Prop where
  parsing : s.site ≠ .ended → ¬ Composing s → ∀ f ∈ s.frames, f.rendered = none
  composing : Composing s → s.compositeEnable = true ∧
    ∀ (i : Nat) (f : Frame), s.frames[i]? = some f → (f.rendered.isSome = true ↔ i < s.fc.i)
  image : ∀ im, s.result = .success im → ∀ f ∈ im.frames, f.rendered.isSome = s.compositeEnable

/-! ### A run that follows the rules -/

/-- Everything a run from reset keeps that keeps it from stopping with a fault. -/
structure Sound (s : State) : Prop where
  cursor : CursorInBuffer s
  phase : PhaseFits s
  lz : LzInRange s
  frame : FrameDue s

/-! ### Progress (40_container_parser.md R140) -/

/-- How many steps of one turn of the compositing loop, or of the reading of one block, are still to come at a place
without the cursor moving. -/
def siteRank : Site → Nat
  | .introducer _ => 4
  | .extension _ => 1
  | .dispose => 3
  | .blit => 2
  | .snapshot => 1
  | _ => 0

/-- The bits of the input not yet consumed by a code or a record. -/
def bitsLeft (s : State) : Nat :=
  8 * (s.bufLen - s.cursor) + if s.site = .imageData then s.lz.accBits else 0

/-- The frames not yet composited. -/
def framesLeft (s : State) : Nat :=
  match s.site with
  | .dispose => s.frames.length - s.fc.i
  | .blit => s.frames.length - s.fc.i
  | .snapshot => s.frames.length - s.fc.i
  | .store => s.frames.length - s.fc.i
  | _ => s.frames.length

/-- A bound on the steps a call can still take: 0 when it has ended. -/
def budget (s : State) : Nat :=
  if s.site = .ended then 0 else 8 * bitsLeft s + 4 * framesLeft s + siteRank s.site + 1

/-- The inputs of the call, which no step writes (20_memory.md R84). -/
def SameInputs (s t : State) : Prop :=
  t.buf = s.buf ∧ t.bufLen = s.bufLen ∧ t.compositeEnable = s.compositeEnable ∧ t.maxAllocBytes = s.maxAllocBytes

end Sys2Proof.Machine
end

