-- ==== Sys2Proof/Certificates/Slice0/Obligations.lean ====
section
/-! DEFINITION. The statements for the provers. Each docstring names the rule of spec/ it formalises. Where a next state is
written `{ s with … }`, every field not named is unchanged: that is the statement's frame. Throughout, the field `site` is
the model's own register (log entry 1), the cursor a raise or a success leaves is log entry 2's choice, and the fields
`opcodes` and `pendingOpcode` are log entry 10's. -/

open Sys2Proof Sys2Proof.Machine

/-! ### Encoding -/

/-- Words written out from 30_encoding.md, one or more per family, decode to the instruction they stand for: the
signatures (R91), two screen descriptors, with packed bytes 1 0000 000 and 1 0010 111 (R92, R93), a global and a local
palette entry pair (R94), a byte at a block boundary and its absence (R95, 40_container_parser.md R124), the introducers
(R95), two image descriptors, with packed bytes 1 1 000 001 and 0 1 100 010 (R100, R101), the graphics control of
40_container_parser.md R129's example and one with packed byte 001 110 1 0 (R97, R98), lengths (R99), a `minCodeSize`
(R102), the codes 4 and 6 of 3 bits (R104), and disposal codes 2 and 7 (R106). -/
def Obligations.WordsOfTheSpecDecode : Prop :=
  decode .header [0x47, 0x49, 0x46, 0x38, 0x37, 0x61] = .ok .sig87 ∧
  decode .header [0x47, 0x49, 0x46, 0x38, 0x39, 0x61] = .ok .sig89 ∧
  decode .header [0x47, 0x49, 0x46, 0x38, 0x38, 0x61] = .ok (.sigBad 0x47 0x49 0x46 0x38 0x38 0x61) ∧
  decode .screen [0x02, 0x01, 0x01, 0x00, 0x80, 0x05, 0x06] = .ok (.lsd 0x0102 1 true 0 0 5 6) ∧
  decode .screen [0x01, 0x02, 0x04, 0x03, 0x97, 0x05, 0x31] = .ok (.lsd 0x0201 0x0304 true 2 7 5 0x31) ∧
  decode (.globalPalette 0) [0xFF, 0, 0, 0, 0, 0xFF] = .ok (.palGlobal 0 [⟨0xFF, 0, 0⟩, ⟨0, 0, 0xFF⟩]) ∧
  decode (.localPalette 0) [1, 2, 3, 4, 5, 6] = .ok (.palLocal 0 [⟨1, 2, 3⟩, ⟨4, 5, 6⟩]) ∧
  decode .boundary [0x2C] = .ok (.nextBlock 0x2C) ∧
  decode .boundary [] = .ok .eofAtBoundary ∧
  decode .introducer [0x21, 0xFE] = .ok (.extension 0xFE) ∧
  decode .introducer [0x3B] = .ok .trailer ∧
  decode .introducer [0x00] = .ok (.blockInvalid 0) ∧
  decode .introducer [0x2C, 1, 0, 2, 0, 3, 0, 4, 1, 0xC1] = .ok (.img 1 2 3 0x0104 true true 0 1) ∧
  decode .introducer [0x2C, 1, 5, 2, 6, 3, 7, 4, 8, 0x62] = .ok (.img 0x0501 0x0602 0x0703 0x0804 false true 4 2) ∧
  decode .extension [0x21, 0xF9, 0x04, 0x09, 0x0A, 0, 0] = .ok (.gce 4 0 2 false true 10 0) ∧
  decode .extension [0x21, 0xF9, 0x05, 0x3A, 0x02, 0x01, 0x07] = .ok (.gce 5 1 6 true false 0x0102 7) ∧
  decode .extension [0x21, 0xFF] = .ok (.extOther 0xFF) ∧
  decode .subBlock [0x0B] = .ok (.sub 11) ∧
  decode .subBlock [0x00] = .ok .subTerm ∧
  decode .minCodeSize [0x02] = .ok (.lzwMin 2) ∧
  decode (.code ⟨4, 5, 7, 3, false⟩) [0x4C] = .ok .codeClear ∧
  decode (.code ⟨4, 5, 7, 3, false⟩) [0x06] = .ok (.codeTable 6) ∧
  decode .disposal [0x08] = .ok .dispose2 ∧
  decode .disposal [0x1C] = .ok .dispose7

/-- Decoding the encoding of a well-formed instruction gives it back, in the format its record is read in, for every
instruction and every value of its fields; a code class at every code its condition (R104) admits. -/
def Obligations.DecodeOfEncode : Prop :=
  ∀ (c : CodeCtx) (i : Instr), c.wellFormed = true → i.wellFormed = true → i.fits c = true →
    decode (formatOf c i) (encode c i) = .ok i

/-- What decodes in a record format is a well-formed instruction of that format, and its encoding stands at the front of
the bytes: the decoder drops no bit of a record. (The code and disposal formats read part of a byte.) -/
def Obligations.EncodeOfDecode : Prop :=
  ∀ (c : CodeCtx) (f : Format) (bs : List Byte) (i : Instr), (∀ c', f ≠ .code c') → f ≠ .disposal →
    decode f bs = .ok i →
      i.wellFormed = true ∧ formatOf c i = f ∧ ∃ rest, bs = encode c i ++ rest

/-- Every code falls into exactly the class whose condition it meets, and the data ends where fewer than `codeSize` bits are
left of it (R104). The premises are ranges of 10_state.md R40. -/
def Obligations.CodeClassesFollowTheMap : Prop :=
  ∀ (c : CodeCtx) (code : Nat), c.endCode = c.clearCode + 1 → c.endCode < c.avail →
    (classify c code = .codeClear ↔ code = c.clearCode) ∧
    (classify c code = .codeEnd ↔ code = c.endCode) ∧
    (classify c code = .codeFreshLiteral code ↔ c.fresh = true ∧ code < c.clearCode) ∧
    (classify c code = .codeFreshInvalid code ↔ c.fresh = true ∧ c.endCode < code) ∧
    (classify c code = .codeLiteral code ↔ c.fresh = false ∧ code < c.clearCode) ∧
    (classify c code = .codeTable code ↔ c.fresh = false ∧ c.endCode < code ∧ code < c.avail) ∧
    (classify c code = .codeKwkwk ↔ c.fresh = false ∧ code = c.avail) ∧
    (classify c code = .codeOutOfRange code ↔ c.fresh = false ∧ c.avail < code) ∧
    ∀ bs : List Byte,
      decode (.code c) bs = .ok (if 8 * bs.length < c.codeSize then .dataEnd else classify c (leNat bs % 2 ^ c.codeSize))

/-! ### The step -/

/-- The step runs the instruction the fetch finds: outside image data, the record at the place; in image data, the
class of the code read, by the clear code, the end code, the fill pointer and the old code as they stand before the
read (41_lzw_decoder.md R167, 30_encoding.md R104), or DATA_END; a read of a code that fails raises
TruncatedStream(LZW_DATA), or faults on a byte that does not exist; after the end of the call nothing changes (log
entries 3 and 13 for the last two). The record at each place is the one the grammar puts there (30_encoding.md R90,
R111): its format, the introducer and label already consumed, and the bytes from the cursor on, as many as the longest
record of the format has; a byte at N or above counts as 0 there and is never used (log entry 9), and at a block
boundary there is no byte at N (40_container_parser.md R124). The compositor's record is the prior frame's disposal
code (R106; log entry 10), or none. -/
def Obligations.StepRunsTheDecodedInstruction : Prop :=
  ∀ s : State,
    let bytes : Nat → List Byte := fun n =>
      (List.range n).map fun k => if s.cursor + k < s.bufLen then Memory.read s.buf (s.cursor + k) else 0
    (∀ f bs i, recordAt s = some (f, bs) → decode f bs = .ok i → step s = exec i s) ∧
    (∀ v s1, s.site = .imageData → readCode s = .code v s1 →
      step s = exec
        (classify
          { clearCode := s.lz.clearCode, endCode := s.lz.endCode, avail := s.lz.avail, codeSize := s.lz.codeSize,
            fresh := s.lz.oldCode.isNone } v) s) ∧
    (∀ s1, s.site = .imageData → readCode s = .dataEnd s1 → step s = exec .dataEnd s) ∧
    (∀ s1, s.site = .imageData → readCode s = .truncated s1 →
      step s = .next (raise .truncatedStream .lzwData s1)) ∧
    (s.site = .imageData → readCode s = .outside → step s = .fault .outsideBuffer) ∧
    (s.site = .ended → step s = .next s) ∧
    (s.site = .header → recordAt s = some (.header, bytes 6)) ∧
    (s.site = .screen → recordAt s = some (.screen, bytes 7)) ∧
    (∀ n, s.site = .globalPalette n → recordAt s = some (.globalPalette n, bytes (3 * 2 ^ (n.toNat + 1)))) ∧
    (s.site = .boundary → s.cursor < s.bufLen → recordAt s = some (.boundary, [Memory.read s.buf s.cursor])) ∧
    (s.site = .boundary → s.bufLen ≤ s.cursor → recordAt s = some (.boundary, [])) ∧
    (∀ t, s.site = .introducer t → recordAt s = some (.introducer, t :: bytes 9)) ∧
    (∀ label, s.site = .extension label → recordAt s = some (.extension, 0x21 :: label :: bytes 5)) ∧
    (∀ owner, s.site = .chain owner → recordAt s = some (.subBlock, bytes 1)) ∧
    (∀ n, s.site = .localPalette n → recordAt s = some (.localPalette n, bytes (3 * 2 ^ (n.toNat + 1)))) ∧
    (s.site = .minCodeSize → recordAt s = some (.minCodeSize, bytes 1)) ∧
    (s.site = .dispose → recordAt s = some (.disposal, [disposalByte (s.opcodes.getD (s.fc.i - 1) 0)])) ∧
    (s.site = .blit → recordAt s = some (.blit, [])) ∧
    (s.site = .snapshot → recordAt s = some (.snapshot, [])) ∧
    (s.site = .store → recordAt s = some (.store, []))

/-- An instruction runs only where the grammar puts its record (30_encoding.md R111): at every other place it stops by name
(log entry 11). -/
def Obligations.MisplacedInstructionsStop : Prop :=
  ∀ (i : Instr) (s : State), placedAt i s.site = false → exec i s = .fault .misplaced

/-- Reset leaves the values of 10_state.md R60 that the rule states: `cursor` 0, `phase` HEADER, no pending control, no
frame, `result` Running. -/
def Obligations.ResetValues : Prop :=
  State.reset.cursor = 0 ∧ State.reset.phase = .header ∧ State.reset.pendingGC = none ∧
  State.reset.frames = [] ∧ State.reset.result = .running

/-- Reset meets every invariant stated below, whatever inputs the host places (a canonical buffer, its length, the flag
and the limit). -/
def Obligations.ResetMeetsTheInvariants : Prop :=
  ∀ (buf : Memory) (n : Nat) (composite : Bool) (limit : Nat), Memory.wf buf = true →
    let s : State :=
      { State.reset with buf := buf, bufLen := n, compositeEnable := composite, maxAllocBytes := limit }
    s.canonical = true ∧ Sound s ∧ FailureLegal s ∧ PalettesFit s ∧ BuffersFit s ∧ OpcodesFit s ∧ RenderedFits s

/-! ### The end of a call -/

/-- What a raise leaves (60_exceptions.md R243): result Failure with the kind and the step raised, phase FAILED, the inputs,
the cursor where the failing operation left it (log entry 2), and nothing else of what was parsed. A step whose result is
a failure ends in exactly that state. The result reports the code that R240 gives the kind. -/
def Obligations.FailureDiscardsEverything : Prop :=
  (∀ (k : ErrorKind) (g : StepTag) (s : State), raise k g s =
    { s with
      phase := .failed, site := .ended, result := .failure k g, version := 0, screen := Screen.reset,
      hasGlobal := false, hasLocal := false, pendingGC := none, pendingOpcode := 0, desc := ImageDescriptor.reset,
      lz := LzRegs.reset, frames := [], opcodes := [], fc := FcRegs.reset }) ∧
  (∀ (s t : State) (k : ErrorKind) (g : StepTag), s.result = .running → step s = .next t → t.result = .failure k g →
    t = { s with
      cursor := t.cursor, phase := .failed, site := .ended, result := .failure k g, version := 0,
      screen := Screen.reset, hasGlobal := false, hasLocal := false, pendingGC := none, pendingOpcode := 0,
      desc := ImageDescriptor.reset, lz := LzRegs.reset, frames := [], opcodes := [], fc := FcRegs.reset }) ∧
  ∀ g : StepTag,
    resultCode (.failure .truncatedStream g) = some 1 ∧ resultCode (.failure .malformedHeader g) = some 2 ∧
    resultCode (.failure .malformedBlock g) = some 3 ∧ resultCode (.failure .malformedStream g) = some 4 ∧
    resultCode (.failure .corruptLzwStream g) = some 5 ∧ resultCode (.failure .stackOverflow g) = some 6

/-! ### Container parser -/

/-- `readHeader` (40_container_parser.md R121): fewer than 6 bytes raise TruncatedStream(HEADER) first; a signature records
its version and is followed by the screen descriptor; any other six bytes raise MalformedHeader(HEADER). -/
def Obligations.HeaderIsRead : Prop :=
  ∀ s : State, s.site = .header →
    (s.cursor + 6 ≤ s.bufLen →
      exec .sig87 s = .next { s with cursor := s.cursor + 6, version := 87, site := .screen, phase := .screen } ∧
      exec .sig89 s = .next { s with cursor := s.cursor + 6, version := 89, site := .screen, phase := .screen } ∧
      ∀ b0 b1 b2 b3 b4 b5, exec (.sigBad b0 b1 b2 b3 b4 b5) s
        = .next (raise .malformedHeader .header { s with cursor := s.cursor + 6 })) ∧
    (s.bufLen < s.cursor + 6 →
      exec .sig87 s = .next (raise .truncatedStream .header s) ∧
      exec .sig89 s = .next (raise .truncatedStream .header s) ∧
      ∀ b0 b1 b2 b3 b4 b5, exec (.sigBad b0 b1 b2 b3 b4 b5) s = .next (raise .truncatedStream .header s))

/-- What the header step does with the bytes at the cursor (40_container_parser.md R121, 30_encoding.md R91): the length
is checked first, then the six bytes must be one of the two signatures. -/
def Obligations.HeaderStepChecksTheSignature : Prop :=
  ∀ s : State, s.site = .header →
    (s.bufLen < s.cursor + 6 → step s = .next (raise .truncatedStream .header s)) ∧
    (s.cursor + 6 ≤ s.bufLen →
      let b := window s 6
      (b = [0x47, 0x49, 0x46, 0x38, 0x37, 0x61] →
        step s = .next { s with cursor := s.cursor + 6, version := 87, site := .screen, phase := .screen }) ∧
      (b = [0x47, 0x49, 0x46, 0x38, 0x39, 0x61] →
        step s = .next { s with cursor := s.cursor + 6, version := 89, site := .screen, phase := .screen }) ∧
      (b ≠ [0x47, 0x49, 0x46, 0x38, 0x37, 0x61] → b ≠ [0x47, 0x49, 0x46, 0x38, 0x39, 0x61] →
        step s = .next (raise .malformedHeader .header { s with cursor := s.cursor + 6 })))

/-- The screen descriptor (40_container_parser.md R122): every register of R26, then the global palette when `G` is set;
the ignored bits play no part. -/
def Obligations.ScreenDescriptorIsRecorded : Prop :=
  ∀ (s : State) (w h : Half) (g : Bool) (ignored : BitVec 4) (n : BitVec 3) (bg aspect : Byte), s.site = .screen →
    (s.cursor + 7 ≤ s.bufLen →
      exec (.lsd w h g ignored n bg aspect) s = .next
        { s with
          cursor := s.cursor + 7, hasGlobal := g,
          screen := { width := w, height := h, globalColors := none, backgroundIndex := bg, aspect := aspect },
          site := if g = true then .globalPalette n else .boundary,
          phase := if g = true then .screen else .blocks }) ∧
    (s.bufLen < s.cursor + 7 →
      exec (.lsd w h g ignored n bg aspect) s = .next (raise .truncatedStream .screenDescriptor s))

/-- `readPalette` (40_container_parser.md R123, R133): `3·2^(n+1)` bytes are consumed, every entry has alpha 0xFF, and the
palette becomes the global or the local one; too few bytes raise TruncatedStream under its own tag. -/
def Obligations.PalettesAreRead : Prop :=
  ∀ (s : State) (n : BitVec 3) (rgb : List Rgb),
    let size := 3 * 2 ^ (n.toNat + 1)
    let palette : Palette := rgb.map (fun c => ⟨c.r, c.g, c.b, 0xFF⟩)
    (s.site = .globalPalette n →
      (s.cursor + size ≤ s.bufLen →
        exec (.palGlobal n rgb) s = .next
          { s with
            cursor := s.cursor + size, screen := { s.screen with globalColors := some palette },
            site := .boundary, phase := .blocks }) ∧
      (s.bufLen < s.cursor + size → exec (.palGlobal n rgb) s = .next (raise .truncatedStream .globalPalette s))) ∧
    (s.site = .localPalette n →
      (s.cursor + size ≤ s.bufLen →
        exec (.palLocal n rgb) s = .next
          { s with
            cursor := s.cursor + size, desc := { s.desc with localColors := some palette },
            site := .minCodeSize, phase := .image }) ∧
      (s.bufLen < s.cursor + size → exec (.palLocal n rgb) s = .next (raise .truncatedStream .localPalette s)))

/-- `NextBlockType` (40_container_parser.md R124): one byte is consumed and selects what follows; the buffer's end at a
block boundary raises MalformedStream(BLOCK_TYPE). -/
def Obligations.NextBlockReadsTheIntroducer : Prop :=
  ∀ (s : State) (t : Byte), s.site = .boundary →
    (s.cursor < s.bufLen →
      exec (.nextBlock t) s = .next { s with cursor := s.cursor + 1, site := .introducer t, phase := .blocks }) ∧
    (s.cursor = s.bufLen →
      exec (.nextBlock t) s = .next (raise .malformedStream .blockType s) ∧
      step s = .next (raise .malformedStream .blockType s)) ∧
    exec .eofAtBoundary s = .next (raise .malformedStream .blockType s)

/-- The introducers that are not 0x21, 0x2C or 0x3B raise MalformedStream(BLOCK_TYPE) (40_container_parser.md R137). -/
def Obligations.InvalidIntroducerRaises : Prop :=
  ∀ (s : State) (t : Byte), s.site = .introducer t →
    exec (.blockInvalid t) s = .next (raise .malformedStream .blockType s) ∧
    (t ≠ 0x21 → t ≠ 0x2C → t ≠ 0x3B → step s = .next (raise .malformedStream .blockType s))

/-- EXTENSION reads the label, and a label other than 0xF9 is followed by a skipped chain (40_container_parser.md R127,
R128); the pending control is not touched. -/
def Obligations.ExtensionReadsTheLabel : Prop :=
  ∀ (s : State) (label : Byte),
    (s.site = .introducer 0x21 → s.cursor + 1 ≤ s.bufLen →
      exec (.extension label) s
        = .next { s with cursor := s.cursor + 1, site := .extension label, phase := .blocks }) ∧
    (s.site = .introducer 0x21 → s.bufLen < s.cursor + 1 →
      exec (.extension label) s = .next (raise .truncatedStream .extensionLabel s)) ∧
    (s.site = .extension label →
      exec (.extOther label) s = .next { s with site := .chain .extension, phase := .blocks })

/-- `readGraphicsControl` up to its chain (40_container_parser.md R129): the size byte, its check, then the body, in that
order; the record read carries every field of R28, its disposal method by the map of R130. -/
def Obligations.GraphicsControlIsRead : Prop :=
  ∀ (s : State) (size : Byte) (hi d : BitVec 3) (lo t : Bool) (delay : Half) (k : Byte), s.site = .extension 0xF9 →
    (s.bufLen < s.cursor + 1 →
      exec (.gce size hi d lo t delay k) s = .next (raise .truncatedStream .graphicsControl s)) ∧
    (s.cursor + 1 ≤ s.bufLen → size ≠ 4 →
      exec (.gce size hi d lo t delay k) s
        = .next (raise .malformedBlock .graphicsControl { s with cursor := s.cursor + 1 })) ∧
    (s.cursor + 1 ≤ s.bufLen → s.bufLen < s.cursor + 5 → size = 4 →
      exec (.gce size hi d lo t delay k) s
        = .next (raise .truncatedStream .graphicsControl { s with cursor := s.cursor + 1 })) ∧
    (s.cursor + 5 ≤ s.bufLen → size = 4 →
      exec (.gce size hi d lo t delay k) s = .next
        { s with
          cursor := s.cursor + 5,
          site := .chain (.graphicsControl
            { delay := delay, isTransparent := t, transparencyIndex := k, disposal := disposalOfCode d } d),
          phase := .blocks }) ∧
    (disposalOfCode 0 = .unspecified ∧ disposalOfCode 1 = .none ∧ disposalOfCode 2 = .background ∧
      disposalOfCode 3 = .previous ∧ ∀ c : BitVec 3, 4 ≤ c.toNat → disposalOfCode c = .unspecified)

/-- `skipSubBlocks` (40_container_parser.md R126): a length byte and that many bytes are consumed, unread; a missing length
byte, or a length past the buffer, raises TruncatedStream under the tag of the chain's owner (R128, R129;
41_lzw_decoder.md R169). -/
def Obligations.SubBlocksAreSkipped : Prop :=
  ∀ (s : State) (owner : ChainOwner) (len : Byte), s.site = .chain owner →
    (s.cursor + 1 + len.toNat ≤ s.bufLen →
      exec (.sub len) s = .next { s with cursor := s.cursor + (1 + len.toNat) }) ∧
    (s.bufLen < s.cursor + 1 →
      exec (.sub len) s = .next (raise .truncatedStream (chainTag owner) s) ∧
      exec .subTerm s = .next (raise .truncatedStream (chainTag owner) s)) ∧
    (s.cursor + 1 ≤ s.bufLen → s.bufLen < s.cursor + 1 + len.toNat →
      exec (.sub len) s = .next (raise .truncatedStream (chainTag owner) { s with cursor := s.cursor + 1 })) ∧
    (chainTag .extension = .extensionSubblocks ∧ chainTag .imageData = .lzwData ∧
      ∀ g c, chainTag (.graphicsControl g c) = .graphicsControl)

/-- The terminator of a chain (40_container_parser.md R126, R131, R136): an extension's leads back to the block loop and
leaves the pending control alone; a graphics control's writes the pending slot, replacing what was there; an image's
appends the frame with the pending control and clears the slot. That the image's descriptor, `hasLocal` and the LZ registers
then hold their reset values is the model's choice (log entry 4). -/
def Obligations.TerminatorEndsTheChain : Prop :=
  ∀ s : State, s.cursor + 1 ≤ s.bufLen →
    (s.site = .chain .extension →
      exec .subTerm s = .next { s with cursor := s.cursor + 1, site := .boundary, phase := .blocks }) ∧
    (∀ g c, s.site = .chain (.graphicsControl g c) →
      exec .subTerm s = .next
        { s with
          cursor := s.cursor + 1, pendingGC := some g, pendingOpcode := c, site := .boundary, phase := .blocks }) ∧
    (s.site = .chain .imageData →
      exec .subTerm s = .next
        { s with
          cursor := s.cursor + 1,
          frames := s.frames ++
            [{ desc := s.desc, gc := s.pendingGC, minCodeSize := s.lz.m, indexData := s.lz.target,
               rendered := none }],
          opcodes := s.opcodes ++ [if s.pendingGC.isSome then s.pendingOpcode else 0],
          pendingGC := none, pendingOpcode := 0, desc := ImageDescriptor.reset, hasLocal := false,
          lz := LzRegs.reset, site := .boundary, phase := .blocks })

/-- `readImageDescriptor` (40_container_parser.md R132): the nine bytes become the descriptor, and the local palette
follows when `L` is set. -/
def Obligations.ImageDescriptorIsRecorded : Prop :=
  ∀ (s : State) (x y w h : Half) (l il : Bool) (ignored n : BitVec 3), s.site = .introducer 0x2C →
    (s.cursor + 9 ≤ s.bufLen →
      exec (.img x y w h l il ignored n) s = .next
        { s with
          cursor := s.cursor + 9, hasLocal := l,
          desc := { x := x, y := y, width := w, height := h, localColors := none, interlace := il },
          site := if l = true then .localPalette n else .minCodeSize, phase := .image }) ∧
    (s.bufLen < s.cursor + 9 →
      exec (.img x y w h l il ignored n) s = .next (raise .truncatedStream .imageDescriptor s))

/-- LZW-MIN with a legal `minCodeSize` and room for the index buffer starts the decode with the register values of
10_state.md R61; the values R61 leaves open are not stated. -/
def Obligations.MinCodeSizeStartsTheDecode : Prop :=
  ∀ (s : State) (m : Byte), s.site = .minCodeSize → s.cursor + 1 ≤ s.bufLen → 1 ≤ m.toNat → m.toNat ≤ 12 →
    allocated s + indexBytes s.desc ≤ s.maxAllocBytes →
    ∃ lz : LzRegs,
      exec (.lzwMin m) s
        = .next { s with cursor := s.cursor + 1, lz := lz, site := .imageData, phase := .image } ∧
      lz.m = m.toNat ∧ lz.clearCode = 2 ^ m.toNat ∧ lz.endCode = 2 ^ m.toNat + 1 ∧ lz.codeSize = m.toNat + 1 ∧
      lz.avail = 2 ^ m.toNat + 2 ∧ lz.oldCode = none ∧
      (∀ i, i < 2 ^ m.toNat → Elements.read lz.suffixTab i = i) ∧
      lz.stack = [] ∧ lz.acc = 0 ∧ lz.accBits = 0 ∧ lz.blockRemaining = 0 ∧ lz.dataDone = false ∧ lz.outPos = 0 ∧
      (∀ k, Elements.read lz.target k = 0) ∧ lz.width = s.desc.width.toNat ∧ lz.height = s.desc.height.toNat ∧
      lz.interlace = s.desc.interlace

/-- LZW-MIN turned away: a missing byte, a `minCodeSize` outside 1..12 (40_container_parser.md R134), or an index
buffer past the allocation limit, which is refused (R135, 20_memory.md R86). What counts against the limit is log
entry 6's choice, written out first: 2 bytes for each of the `width × height` index elements (R72), `4·W·H` bytes a
canvas-sized buffer (R74), over the frames, their rendered buffers, and in the composite phase the canvas and the kept
snapshot. -/
def Obligations.MinCodeSizeTurnedAway : Prop :=
  (∀ d : ImageDescriptor, indexBytes d = 2 * (d.width.toNat * d.height.toNat)) ∧
  (∀ s : State, canvasBytes s = 4 * (s.screen.width.toNat * s.screen.height.toNat)) ∧
  (∀ s : State, allocated s =
    (s.frames.map (fun f => indexBytes f.desc + if f.rendered = none then 0 else canvasBytes s)).sum +
      if s.phase = .composite then canvasBytes s + (if s.fc.kept = none then 0 else canvasBytes s) else 0) ∧
  ∀ (s : State) (m : Byte), s.site = .minCodeSize →
    (s.bufLen < s.cursor + 1 → exec (.lzwMin m) s = .next (raise .truncatedStream .lzwMinCodeSize s)) ∧
    (s.cursor + 1 ≤ s.bufLen → m.toNat < 1 ∨ 12 < m.toNat →
      exec (.lzwMin m) s = .next (raise .corruptLzwStream .lzwMinCodeSize { s with cursor := s.cursor + 1 })) ∧
    (s.cursor + 1 ≤ s.bufLen → 1 ≤ m.toNat → m.toNat ≤ 12 →
      s.maxAllocBytes < allocated s + indexBytes s.desc → exec (.lzwMin m) s = .refused .allocLimit)

/-- TRAILER (40_container_parser.md R125, R120, R139): without compositing the call succeeds with the frames as they are
(42_frame_compositor.md R226); with compositing the canvas starts cleared with no snapshot at frame 0
(10_state.md R62), or, with no frame, the call succeeds (log entry 3). The pending control is dropped. A success leaves the
result Success with the image, phase DONE, the inputs and the cursor, and drops every other register (10_state.md R36,
R53; log entry 2). The refusal is log entry 6's. -/
def Obligations.TrailerEndsTheStream : Prop :=
  ∀ s : State, s.site = .introducer 0x3B →
    let done : State :=
      { s with
        phase := .done, site := .ended,
        result := .success { version := s.version, screen := s.screen, frames := s.frames },
        version := 0, screen := Screen.reset, hasGlobal := false, hasLocal := false, pendingGC := none,
        pendingOpcode := 0, desc := ImageDescriptor.reset, lz := LzRegs.reset, frames := [], opcodes := [],
        fc := FcRegs.reset }
    (s.compositeEnable = false → exec .trailer s = .next done) ∧
    (s.compositeEnable = true → allocated s + canvasBytes s ≤ s.maxAllocBytes → s.frames = [] →
      exec .trailer s = .next done) ∧
    (s.compositeEnable = true → allocated s + canvasBytes s ≤ s.maxAllocBytes → s.frames ≠ [] →
      exec .trailer s = .next
        { s with
          pendingGC := none, pendingOpcode := 0, fc := { canvas := [], kept := none, i := 0 },
          site := .blit, phase := .composite }) ∧
    (s.compositeEnable = true → s.maxAllocBytes < allocated s + canvasBytes s →
      exec .trailer s = .refused .allocLimit)

/-! ### LZW decoder -/

/-- `ReadCode` inside one sub-block (41_lzw_decoder.md R164, 30_encoding.md R103): `k` bytes are pulled, as many as the
width needs; the bits held, with the bytes above them, are one number whose low `codeSize` bits are the code, LSB
first, and whose other bits stay. -/
def Obligations.ReadCodeTakesTheLowBits : Prop :=
  ∀ (s : State) (k : Nat), s.lz.acc < 2 ^ s.lz.accBits → k ≤ s.lz.blockRemaining → s.cursor + k ≤ s.bufLen →
    s.lz.codeSize ≤ s.lz.accBits + 8 * k → (k = 0 ∨ s.lz.accBits + 8 * (k - 1) < s.lz.codeSize) →
    let bits := s.lz.acc + 2 ^ s.lz.accBits * leNat (window s k)
    readCode s = .code (bits % 2 ^ s.lz.codeSize)
      { s with
        cursor := s.cursor + k,
        lz := { s.lz with
          acc := bits / 2 ^ s.lz.codeSize, accBits := s.lz.accBits + 8 * k - s.lz.codeSize,
          blockRemaining := s.lz.blockRemaining - k } }

/-- `ReadCode` turn by turn, where it does not yet hold a code (41_lzw_decoder.md R164, R165, R166). With data left in the
sub-block, one byte goes above the bits held and the read goes on, so a code may begin in one sub-block and end in a later
one, at the terminator, or at a cut. Where the sub-block has run out, the next length byte opens the next one, and the bits
go on across the boundary; a zero length byte ends the data; a missing length byte, or a length past the buffer, is
truncated before any byte of the sub-block is used. -/
def Obligations.ReadCodeCrossesSubBlocks : Prop :=
  ∀ s : State, s.lz.accBits < s.lz.codeSize →
    (0 < s.lz.blockRemaining → s.lz.acc < 2 ^ s.lz.accBits → s.cursor < s.bufLen →
      readCode s = readCode
        { s with
          cursor := s.cursor + 1,
          lz := { s.lz with
            acc := s.lz.acc + 2 ^ s.lz.accBits * (Memory.read s.buf s.cursor).toNat, accBits := s.lz.accBits + 8,
            blockRemaining := s.lz.blockRemaining - 1 } }) ∧
    (s.lz.blockRemaining = 0 → s.bufLen < s.cursor + 1 → readCode s = .truncated s) ∧
    (s.lz.blockRemaining = 0 → s.cursor + 1 ≤ s.bufLen →
      let len := (Memory.read s.buf s.cursor).toNat
      (len = 0 →
        readCode s = .dataEnd { s with cursor := s.cursor + 1, lz := { s.lz with dataDone := true } }) ∧
      (len ≠ 0 → s.bufLen < s.cursor + 1 + len → readCode s = .truncated { s with cursor := s.cursor + 1 }) ∧
      (len ≠ 0 → s.cursor + 1 + len ≤ s.bufLen →
        readCode s = readCode { s with cursor := s.cursor + 1, lz := { s.lz with blockRemaining := len } }))

/-- A read of a code writes the cursor and the bit-reader registers, and nothing else (41_lzw_decoder.md R164, State
written): the frame of every code class before its own effect. -/
def Obligations.ReadCodeFrame : Prop :=
  ∀ s s1 : State, (∃ v, readCode s = .code v s1) ∨ readCode s = .dataEnd s1 ∨ readCode s = .truncated s1 →
    s1 = { s with
      cursor := s1.cursor,
      lz := { s.lz with
        acc := s1.lz.acc, accBits := s1.lz.accBits, blockRemaining := s1.lz.blockRemaining,
        dataDone := s1.lz.dataDone } }

/-- CODE_CLEAR (41_lzw_decoder.md R168, R163): after its code word is read, the code size, the fill pointer and the old
code are reset, and nothing else. -/
def Obligations.ClearResetsTheTable : Prop :=
  ∀ (s s1 : State) (v : Nat), s.site = .imageData → readCode s = .code v s1 →
    exec .codeClear s = .next
      { s1 with lz := { s1.lz with codeSize := s1.lz.m + 1, avail := s1.lz.clearCode + 2, oldCode := none } }

/-- CODE_END (41_lzw_decoder.md R169): the rest of the current sub-block is skipped, and the rest of the chain is skipped
under LZW_DATA. -/
def Obligations.EndCodeSkipsTheRest : Prop :=
  ∀ (s s1 : State) (v : Nat), s.site = .imageData → readCode s = .code v s1 →
    exec .codeEnd s = .next
      { s1 with
        cursor := s1.cursor + s1.lz.blockRemaining, lz := { s1.lz with blockRemaining := 0 },
        site := .chain .imageData, phase := .image }

/-- CODE_FRESH_LITERAL (41_lzw_decoder.md R170): the character is emitted and the code becomes the old code; no table entry
is appended and the width is unchanged. -/
def Obligations.FreshLiteralIsEmitted : Prop :=
  ∀ (s s1 : State) (v code : Nat), s.site = .imageData → readCode s = .code v s1 →
    exec (.codeFreshLiteral code) s = .next
      { s1 with
        lz := { s1.lz with
          target := (emit code s1.lz).target, outPos := s1.lz.outPos + 1,
          oldCode := some code, firstChar := code } }

/-- The two invalid classes raise CorruptLzwStream(LZW_DATA) (41_lzw_decoder.md R171, R172). -/
def Obligations.InvalidCodesRaise : Prop :=
  ∀ (s s1 : State) (v code : Nat), s.site = .imageData → readCode s = .code v s1 →
    exec (.codeFreshInvalid code) s = .next (raise .corruptLzwStream .lzwData s1) ∧
    exec (.codeOutOfRange code) s = .next (raise .corruptLzwStream .lzwData s1)

/-- CODE_LITERAL and CODE_TABLE (41_lzw_decoder.md R173, R176, R179): a known code emits its string in order, appends
(old code, first character), grows the width if due, and becomes the old code. -/
def Obligations.KnownCodeEmitsItsString : Prop :=
  ∀ (s s1 : State) (v code old : Nat) (l : List Nat), s.site = .imageData → readCode s = .code v s1 →
    s1.lz.oldCode = some old → s1.lz.stack = [] → code ≠ s1.lz.avail → Spells s1.lz code l → l.length ≤ 4097 →
    s1.lz.avail < 4096 →
    let lz1 : LzRegs := growCodeSize
      { s1.lz with
        prefixTab := Elements.write s1.lz.prefixTab s1.lz.avail old,
        suffixTab := Elements.write s1.lz.suffixTab s1.lz.avail (l.headD 0),
        avail := s1.lz.avail + 1 }
    let t : State :=
      { s1 with
        lz := l.foldl (fun z c => emit c z) { lz1 with oldCode := some code, firstChar := l.headD 0 } }
    exec (.codeLiteral code) s = .next t ∧ exec (.codeTable code) s = .next t

/-- CODE_KWKWK (41_lzw_decoder.md R174): the code `avail` emits the old code's string and then its first character, and
appends (old code, first character). -/
def Obligations.KwkwkEmitsTheOldString : Prop :=
  ∀ (s s1 : State) (v old : Nat) (l : List Nat), s.site = .imageData → readCode s = .code v s1 →
    s1.lz.oldCode = some old → s1.lz.stack = [] → Spells s1.lz old l → l.length + 1 ≤ 4097 →
    s1.lz.avail < 4096 →
    let lz1 : LzRegs := growCodeSize
      { s1.lz with
        prefixTab := Elements.write s1.lz.prefixTab s1.lz.avail old,
        suffixTab := Elements.write s1.lz.suffixTab s1.lz.avail (l.headD 0),
        avail := s1.lz.avail + 1 }
    exec .codeKwkwk s = .next
      { s1 with
        lz := (l ++ [s1.lz.firstChar]).foldl (fun z c => emit c z)
          { lz1 with oldCode := some s1.lz.avail, firstChar := l.headD 0 } }

/-- The two aborts of a data code, in their order (41_lzw_decoder.md R175, R177, 60_exceptions.md R245): a string longer
than the stack bound raises StackOverflow; otherwise a full table raises CorruptLzwStream. For CODE_LITERAL and CODE_TABLE
the string is the code's own (R173); for CODE_KWKWK it is the old code's and one character more (R174), so at `m = 12`,
where the table is full from the start, it raises CorruptLzwStream too (R186). -/
def Obligations.DataCodeAborts : Prop :=
  ∀ (s s1 : State) (v old : Nat) (l : List Nat), s.site = .imageData → readCode s = .code v s1 →
    s1.lz.oldCode = some old → s1.lz.stack = [] →
    (∀ code : Nat, code ≠ s1.lz.avail → Spells s1.lz code l →
      (4097 < l.length →
        exec (.codeTable code) s = .next (raise .stackOverflow .lzwData s1) ∧
        exec (.codeLiteral code) s = .next (raise .stackOverflow .lzwData s1)) ∧
      (l.length ≤ 4097 → 4096 ≤ s1.lz.avail →
        exec (.codeTable code) s = .next (raise .corruptLzwStream .lzwData s1) ∧
        exec (.codeLiteral code) s = .next (raise .corruptLzwStream .lzwData s1))) ∧
    (Spells s1.lz old l →
      (4097 < l.length + 1 → exec .codeKwkwk s = .next (raise .stackOverflow .lzwData s1)) ∧
      (l.length + 1 ≤ 4097 → 4096 ≤ s1.lz.avail →
        exec .codeKwkwk s = .next (raise .corruptLzwStream .lzwData s1)))

/-- `CodeSizeGrowth` (41_lzw_decoder.md R178): after each append the width goes up by one bit when the fill pointer has
reached `2^codeSize` and the width is below 12; otherwise it stays. An append that finds a free slot writes the entry at the
fill pointer, advances it, and then grows the width (R176); with all 4096 slots in use there is none (R177). -/
def Obligations.WidthGrowsAtThePowerOfTwo : Prop :=
  ∀ lz : LzRegs,
    (2 ^ lz.codeSize ≤ lz.avail → lz.codeSize < 12 → growCodeSize lz = { lz with codeSize := lz.codeSize + 1 }) ∧
    (lz.avail < 2 ^ lz.codeSize ∨ 12 ≤ lz.codeSize → growCodeSize lz = lz) ∧
    ∀ p c : Nat, append p c lz =
      if lz.avail < 4096 then
        some (growCodeSize
          { lz with
            prefixTab := Elements.write lz.prefixTab lz.avail p,
            suffixTab := Elements.write lz.suffixTab lz.avail c,
            avail := lz.avail + 1 })
      else none

/-- `Emit` (41_lzw_decoder.md R180, R181, R183): the `k`-th character goes to its row and column and nowhere else; beyond
`w·h` it is dropped; the count of characters goes on in both cases. -/
def Obligations.EmitPlacesTheCharacter : Prop :=
  ∀ (lz : LzRegs) (v : Nat), Elements.wf lz.target = true →
    (emit v lz = { lz with target := (emit v lz).target, outPos := lz.outPos + 1 }) ∧
    (lz.width = 0 ∨ lz.height = 0 ∨ lz.width * lz.height ≤ lz.outPos → (emit v lz).target = lz.target) ∧
    (lz.width ≠ 0 → lz.height ≠ 0 → lz.outPos < lz.width * lz.height →
      let row := if lz.interlace = true then (interlaceRows lz.height).getD (lz.outPos / lz.width) 0
        else lz.outPos / lz.width
      ∀ k, Elements.read (emit v lz).target k =
        if k = row * lz.width + lz.outPos % lz.width then v else Elements.read lz.target k)

/-- `InterlaceRow` (41_lzw_decoder.md R182): the four passes in order, and every row exactly once. -/
def Obligations.InterlaceVisitsEveryRowOnce : Prop :=
  ∀ h : Nat,
    interlaceRows h =
      (List.range h).filter (fun r => r % 8 = 0) ++ (List.range h).filter (fun r => r % 8 = 4) ++
        (List.range h).filter (fun r => r % 4 = 2) ++ (List.range h).filter (fun r => r % 2 = 1) ∧
    (interlaceRows h).Perm (List.range h)

/-- DATA_END (41_lzw_decoder.md R166): the terminator is consumed, the image is complete, and what was not written keeps its
0; the frame takes the pending control (40_container_parser.md R136). That the image's descriptor, `hasLocal` and the LZ
registers then hold their reset values is the model's choice (log entry 4). -/
def Obligations.DataEndCompletesTheImage : Prop :=
  ∀ s s1 : State, s.site = .imageData → readCode s = .dataEnd s1 →
    exec .dataEnd s = .next
      { s with
        cursor := s1.cursor,
        frames := s.frames ++
          [{ desc := s.desc, gc := s.pendingGC, minCodeSize := s.lz.m, indexData := s.lz.target, rendered := none }],
        opcodes := s.opcodes ++ [if s.pendingGC.isSome then s.pendingOpcode else 0],
        pendingGC := none, pendingOpcode := 0, desc := ImageDescriptor.reset, hasLocal := false,
        lz := LzRegs.reset, site := .boundary, phase := .blocks }

/-! ### Frame compositor -/

/-- BLIT (42_frame_compositor.md R218, R219, R220): every canvas pixel inside the placement takes the entry of its index in
the active palette (the local one, else the global one, else an empty one), unless the frame's control is transparent
with that index or the index lies beyond the palette; every other byte of the canvas is unchanged. A frame without a
control is not transparent and UNSPECIFIED; with one, its fields are the control's (40_container_parser.md R138). A pixel
is the four bytes R, G, B, A from `4·(y·W + x)` on (20_memory.md R76). -/
def Obligations.BlitDrawsTheFrame : Prop :=
  (∀ (m : Memory) (w x y : Nat), pixelRead m w x y =
    ⟨Memory.read m (4 * (y * w + x)), Memory.read m (4 * (y * w + x) + 1), Memory.read m (4 * (y * w + x) + 2),
      Memory.read m (4 * (y * w + x) + 3)⟩) ∧
  (∀ f : Frame, f.gc = none → isTransparentOf f = false ∧ disposalOf f = .unspecified) ∧
  (∀ (f : Frame) (g : GraphicsControl), f.gc = some g →
    isTransparentOf f = g.isTransparent ∧ disposalOf f = g.disposal ∧ tIndexOf f = g.transparencyIndex.toNat) ∧
  ∀ (s : State) (f : Frame), s.site = .blit → s.frames[s.fc.i]? = some f → Memory.wf s.fc.canvas = true →
    ∃ cv : Memory,
      exec .blit s = .next
        { s with
          fc := { s.fc with canvas := cv },
          site := if disposalOf f = .none ∨ disposalOf f = .unspecified then .snapshot else .store,
          phase := .composite } ∧
      (∀ x y, x < s.screen.width.toNat → y < s.screen.height.toNat →
        pixelRead cv s.screen.width.toNat x y =
          if f.desc.x.toNat ≤ x ∧ x < f.desc.x.toNat + f.desc.width.toNat ∧
              f.desc.y.toNat ≤ y ∧ y < f.desc.y.toNat + f.desc.height.toNat then
            let v := Elements.read f.indexData
              ((y - f.desc.y.toNat) * f.desc.width.toNat + (x - f.desc.x.toNat))
            if f.gc.any (·.isTransparent) = true ∧ f.gc.map (·.transparencyIndex.toNat) = some v then
              pixelRead s.fc.canvas s.screen.width.toNat x y
            else ((f.desc.localColors.getD (s.screen.globalColors.getD []))[v]?).getD
              (pixelRead s.fc.canvas s.screen.width.toNat x y)
          else pixelRead s.fc.canvas s.screen.width.toNat x y) ∧
      ∀ a, 4 * (s.screen.width.toNat * s.screen.height.toNat) ≤ a →
        Memory.read cv a = Memory.read s.fc.canvas a

/-- DISPOSE-0, 1, 4, 5, 6, 7 (42_frame_compositor.md R214): the canvas carries forward as it is. -/
def Obligations.DisposeNoneKeepsTheCanvas : Prop :=
  ∀ (s : State) (p : Frame), s.site = .dispose → s.fc.i ≠ 0 → s.frames[s.fc.i - 1]? = some p →
    let t : State := { s with site := .blit, phase := .composite }
    exec .dispose0 s = .next t ∧ exec .dispose1 s = .next t ∧ exec .dispose4 s = .next t ∧
    exec .dispose5 s = .next t ∧ exec .dispose6 s = .next t ∧ exec .dispose7 s = .next t

/-- DISPOSE-2 (42_frame_compositor.md R215, R217, R218): every pixel of the prior frame's clipped rectangle that was not a
transparent source pixel becomes `(0,0,0,0)`; every other byte of the canvas is unchanged. -/
def Obligations.DisposeBackgroundClears : Prop :=
  ∀ (s : State) (p : Frame), s.site = .dispose → s.fc.i ≠ 0 → s.frames[s.fc.i - 1]? = some p →
    Memory.wf s.fc.canvas = true →
    ∃ cv : Memory,
      exec .dispose2 s = .next { s with fc := { s.fc with canvas := cv }, site := .blit, phase := .composite } ∧
      (∀ x y, x < s.screen.width.toNat → y < s.screen.height.toNat →
        pixelRead cv s.screen.width.toNat x y =
          if (p.desc.x.toNat ≤ x ∧ x < p.desc.x.toNat + p.desc.width.toNat ∧
              p.desc.y.toNat ≤ y ∧ y < p.desc.y.toNat + p.desc.height.toNat) ∧
              ¬ (p.gc.any (·.isTransparent) = true ∧
                p.gc.map (·.transparencyIndex.toNat) = some (Elements.read p.indexData
                  ((y - p.desc.y.toNat) * p.desc.width.toNat + (x - p.desc.x.toNat)))) then
            ⟨0, 0, 0, 0⟩
          else pixelRead s.fc.canvas s.screen.width.toNat x y) ∧
      ∀ a, 4 * (s.screen.width.toNat * s.screen.height.toNat) ≤ a →
        Memory.read cv a = Memory.read s.fc.canvas a

/-- DISPOSE-3 (42_frame_compositor.md R216): the same pixels are restored from the kept snapshot, or become `(0,0,0,0)`
where there is none; every other byte of the canvas is unchanged. -/
def Obligations.DisposePreviousRestores : Prop :=
  ∀ (s : State) (p : Frame), s.site = .dispose → s.fc.i ≠ 0 → s.frames[s.fc.i - 1]? = some p →
    Memory.wf s.fc.canvas = true →
    ∃ cv : Memory,
      exec .dispose3 s = .next { s with fc := { s.fc with canvas := cv }, site := .blit, phase := .composite } ∧
      (∀ x y, x < s.screen.width.toNat → y < s.screen.height.toNat →
        pixelRead cv s.screen.width.toNat x y =
          if (p.desc.x.toNat ≤ x ∧ x < p.desc.x.toNat + p.desc.width.toNat ∧
              p.desc.y.toNat ≤ y ∧ y < p.desc.y.toNat + p.desc.height.toNat) ∧
              ¬ (p.gc.any (·.isTransparent) = true ∧
                p.gc.map (·.transparencyIndex.toNat) = some (Elements.read p.indexData
                  ((y - p.desc.y.toNat) * p.desc.width.toNat + (x - p.desc.x.toNat)))) then
            (match s.fc.kept with
              | some k => pixelRead k s.screen.width.toNat x y
              | none => ⟨0, 0, 0, 0⟩)
          else pixelRead s.fc.canvas s.screen.width.toNat x y) ∧
      ∀ a, 4 * (s.screen.width.toNat * s.screen.height.toNat) ≤ a →
        Memory.read cv a = Memory.read s.fc.canvas a

/-- The disposal a step applies is the prior frame's own method (42_frame_compositor.md R213). -/
def Obligations.DisposalIsThePriorFrames : Prop :=
  ∀ (s : State) (p : Frame), OpcodesFit s → s.site = .dispose → s.fc.i ≠ 0 → s.frames[s.fc.i - 1]? = some p →
    step s =
      match disposalOf p with
      | .unspecified => exec .dispose0 s
      | .none => exec .dispose1 s
      | .background => exec .dispose2 s
      | .previous => exec .dispose3 s

/-- SNAPSHOT (42_frame_compositor.md R221): a copy of the canvas is kept for a frame whose disposal is NONE or UNSPECIFIED;
otherwise the kept one is unchanged. The room for a first copy is log entry 6's. -/
def Obligations.SnapshotKeepsTheCanvas : Prop :=
  ∀ (s : State) (f : Frame), s.site = .snapshot → s.frames[s.fc.i]? = some f →
    (disposalOf f = .none ∨ disposalOf f = .unspecified →
      allocated s + (if s.fc.kept.isSome then 0 else canvasBytes s) ≤ s.maxAllocBytes →
      exec .snapshot s = .next
        { s with fc := { s.fc with kept := some s.fc.canvas }, site := .store, phase := .composite }) ∧
    (disposalOf f = .none ∨ disposalOf f = .unspecified →
      s.maxAllocBytes < allocated s + (if s.fc.kept.isSome then 0 else canvasBytes s) →
      exec .snapshot s = .refused .allocLimit) ∧
    (disposalOf f = .background ∨ disposalOf f = .previous →
      exec .snapshot s = .next { s with site := .store, phase := .composite })

/-- STORE (42_frame_compositor.md R222, R212): the frame's rendered buffer is a copy of the canvas; then the next frame is
due, with this one's disposal first, or the call succeeds: the result is Success with the rendered frames, phase DONE, and
every register but the inputs and the cursor is dropped (10_state.md R36, R53; log entry 2). The refusal is log entry 6's. -/
def Obligations.StoreRendersTheFrame : Prop :=
  ∀ (s : State) (f : Frame), s.site = .store → s.frames[s.fc.i]? = some f →
    let frames := s.frames.set s.fc.i { f with rendered := some s.fc.canvas }
    (s.maxAllocBytes < allocated s + canvasBytes s → exec .store s = .refused .allocLimit) ∧
    (allocated s + canvasBytes s ≤ s.maxAllocBytes → s.fc.i + 1 < s.frames.length →
      exec .store s = .next
        { s with frames := frames, fc := { s.fc with i := s.fc.i + 1 }, site := .dispose, phase := .composite }) ∧
    (allocated s + canvasBytes s ≤ s.maxAllocBytes → s.fc.i + 1 = s.frames.length →
      exec .store s = .next
        { s with
          phase := .done, site := .ended,
          result := .success { version := s.version, screen := s.screen, frames := frames },
          version := 0, screen := Screen.reset, hasGlobal := false, hasLocal := false, pendingGC := none,
          pendingOpcode := 0, desc := ImageDescriptor.reset, lz := LzRegs.reset, frames := [], opcodes := [],
          fc := FcRegs.reset })

/-- The compositor raises no error (42_frame_compositor.md R225): a step of the composite phase goes on in it, ends the call
with a success, or is refused for want of memory. -/
def Obligations.CompositorRaisesNothing : Prop :=
  ∀ s : State, Composing s → FrameDue s → PhaseFits s →
    step s = .refused .allocLimit ∨
    ∃ t, step s = .next t ∧
      ((t.phase = .composite ∧ t.result = .running) ∨ (t.phase = .done ∧ ∃ im, t.result = .success im))

/-! ### What every step keeps -/

/-- Every step keeps every memory in its canonical form. The form is the model's own (log entries 7 and 8): the spec gives
the buffers (20_memory.md R70) and their zero fill (R72, 10_state.md R62), not the list that holds them. -/
def Obligations.StepKeepsMemoriesCanonical : Prop :=
  ∀ s t : State, s.canonical = true → step s = .next t → t.canonical = true

/-- The cursor stays in `0..N` and never moves backward (10_state.md R23). -/
def Obligations.CursorStaysInTheBuffer : Prop :=
  ∀ s t : State, CursorInBuffer s → step s = .next t → CursorInBuffer t ∧ s.cursor ≤ t.cursor

/-- No step writes the input buffer or another input (20_memory.md R84, R70). -/
def Obligations.InputsAreNeverWritten : Prop :=
  ∀ s t : State, step s = .next t → SameInputs s t

/-- Only the pairs of 60_exceptions.md R242 are ever reported. -/
def Obligations.OnlyListedFailuresOccur : Prop :=
  ∀ s t : State, FailureLegal s → step s = .next t → FailureLegal t

/-- The phase changes only along the pseudocode of 40_container_parser.md R120 and R139, and DONE and FAILED are final
(10_state.md R24). -/
def Obligations.PhasesFollowThePseudocode : Prop :=
  ∀ s t : State, PhaseFits s → step s = .next t →
    PhaseFits t ∧
    (s.phase, t.phase) ∈
      [(Phase.header, Phase.screen), (.header, .failed), (.screen, .screen), (.screen, .blocks), (.screen, .failed),
        (.blocks, .blocks), (.blocks, .image), (.blocks, .composite), (.blocks, .done), (.blocks, .failed),
        (.image, .image), (.image, .blocks), (.image, .failed), (.composite, .composite), (.composite, .done),
        (.done, .done), (.failed, .failed)]

/-- The LZ registers stay in the ranges of 10_state.md R40 to R43, and the tables keep the facts of 41_lzw_decoder.md R162
and R176. -/
def Obligations.LzRegistersStayInRange : Prop :=
  ∀ s t : State, LzInRange s → step s = .next t → LzInRange t

/-- StackOverflow cannot occur (41_lzw_decoder.md R185): no step of a decode whose registers are in their ranges raises
it. -/
def Obligations.StackOverflowIsNeverRaised : Prop :=
  ∀ (s t : State) (g : StepTag), LzInRange s → s.result = .running → step s = .next t →
    t.result ≠ .failure .stackOverflow g

/-- Every palette has `2^(n+1)` entries with alpha 0xFF (10_state.md R27). -/
def Obligations.PalettesKeepTheirForm : Prop :=
  ∀ s t : State, PalettesFit s → step s = .next t → PalettesFit t

/-- Every buffer keeps the size the spec gives it, and every index stays below 4096 (10_state.md R31, 20_memory.md R72,
R74). -/
def Obligations.BuffersKeepTheirSizes : Prop :=
  ∀ s t : State, LzInRange s → RenderedFits s → BuffersFit s → step s = .next t → BuffersFit t

/-- Every frame's disposal code stays the one its method came from (40_container_parser.md R130). The code is kept by the
model's own choice (log entry 10). -/
def Obligations.OpcodesKeepTheirMethods : Prop :=
  ∀ s t : State, OpcodesFit s → step s = .next t → OpcodesFit t

/-- A frame's rendered buffer appears in frame order in the composite phase, and only when compositing is enabled
(42_frame_compositor.md R222, R226). -/
def Obligations.RenderingGoesInOrder : Prop :=
  ∀ s t : State, RenderedFits s → step s = .next t → RenderedFits t

/-- Until the call ends, a step leaves the frames alone, appends one unrendered frame, or stores the rendered buffer of the
frame being composited (10_state.md R32, R51). -/
def Obligations.FramesOnlyGrowInStreamOrder : Prop :=
  ∀ s t : State, step s = .next t → t.site ≠ .ended →
    t.frames = s.frames ∨
    (∃ f, t.frames = s.frames ++ [f] ∧ f.rendered = none) ∨
    (s.site = .store ∧ ∃ f, s.frames[s.fc.i]? = some f ∧
      t.frames = s.frames.set s.fc.i { f with rendered := some s.fc.canvas })

/-- Until the call ends, the pending control is written only by the end of a graphics control, and cleared only by the
frame that takes it or by the trailer; a step that appends a frame gives it the pending control and leaves the slot
empty, so no later frame takes the same one (10_state.md R29, 70_reset_and_hazards.md R275). -/
def Obligations.PendingControlIsConsumedOnce : Prop :=
  ∀ s t : State, step s = .next t →
    (t.site ≠ .ended →
      t.pendingGC = s.pendingGC ∨
      (∃ g c, s.site = .chain (.graphicsControl g c) ∧ t.pendingGC = some g) ∨
      (t.pendingGC = none ∧ ∃ f, t.frames = s.frames ++ [f] ∧ f.gc = s.pendingGC) ∨
      (t.pendingGC = none ∧ s.site = .introducer 0x3B)) ∧
    ∀ f, t.frames = s.frames ++ [f] → f.gc = s.pendingGC ∧ t.pendingGC = none

/-- A run that follows the rules never stops with a fault: the invariants of `Sound` are kept, and a step answers a next
state, or the refusal of the allocation limit. -/
def Obligations.SoundRunsNeverFault : Prop :=
  ∀ s : State, Sound s → step s = .refused .allocLimit ∨ ∃ t, step s = .next t ∧ Sound t

/-- Every call ends (40_container_parser.md R140): each step of a sound run that has not ended lowers the budget, so within
the budget's number of steps the run has ended or has been refused. -/
def Obligations.EveryCallEnds : Prop :=
  ∀ s : State, Sound s →
    (∀ t : State, s.site ≠ .ended → step s = .next t → budget t < budget s) ∧
    ∃ k, k ≤ budget s ∧
      (Sys2Proof.core.run k s = .refused Refusal.allocLimit ∨
        ∃ t : State, Sys2Proof.core.run k s = .next t ∧ t.site = .ended)
end

