-- ==== Sys2Proof/Laws/Cells.lean ====
section
/-! SUPPORT. Memories in canonical form: reading after writing, and that every memory operation keeps the form. -/

namespace Sys2Proof.Machine

variable {α : Type} {d : α}

@[simp] theorem cellRead_nil (k : Nat) : cellRead d [] k = d := rfl

/-- An address below every listed one reads as the unlisted value. -/
theorem cellRead_of_forall_lt {m : List (Nat × α)} {k : Nat} (h : ∀ c ∈ m, k < c.1) : cellRead d m k = d := by
  induction m with
  | nil => rfl
  | cons c m ih =>
    have hk : k ≠ c.1 := by have := h c (by simp); omega
    simp [cellRead, hk, ih fun c hc => h c (by simp [hc])]

variable [DecidableEq α]

@[simp] theorem cellsWf_nil : cellsWf d ([] : List (Nat × α)) = true := rfl

theorem cellsWf_cons {a : Nat} {x : α} {m : List (Nat × α)} :
    cellsWf d ((a, x) :: m) = true ↔ x ≠ d ∧ (∀ c ∈ m, a < c.1) ∧ cellsWf d m = true := by
  simp [cellsWf, and_assoc]

/-- Every address a write lists is the written one or was listed before. -/
theorem mem_cellWrite {m : List (Nat × α)} {k : Nat} {v : α} {c : Nat × α} (h : c ∈ cellWrite d m k v) :
    c.1 = k ∨ c ∈ m := by
  induction m with
  | nil => simp only [cellWrite] at h; split at h <;> simp_all
  | cons e m ih =>
    obtain ⟨a, x⟩ := e
    simp only [cellWrite] at h
    split at h
    · split at h
      · exact .inr h
      · exact (List.mem_cons.1 h).imp (congrArg Prod.fst) id
    · split at h
      · split at h
        · exact .inr (List.mem_cons_of_mem _ h)
        · exact (List.mem_cons.1 h).imp (congrArg Prod.fst) (List.mem_cons_of_mem _)
      · rcases List.mem_cons.1 h with rfl | h
        · exact .inr (List.mem_cons_self ..)
        · exact (ih h).imp id (List.mem_cons_of_mem _)

/-- A write keeps the canonical form. -/
theorem cellWrite_wf {m : List (Nat × α)} {k : Nat} {v : α} (h : cellsWf d m = true) :
    cellsWf d (cellWrite d m k v) = true := by
  induction m with
  | nil => simp only [cellWrite]; split <;> simp_all [cellsWf]
  | cons e m ih =>
    obtain ⟨a, x⟩ := e
    obtain ⟨hx, hlt, hm⟩ := cellsWf_cons.1 h
    simp only [cellWrite]
    split
    · rename_i hka
      split
      · exact h
      · rename_i hv
        refine cellsWf_cons.2 ⟨hv, fun c hc => ?_, h⟩
        rcases List.mem_cons.1 hc with rfl | hc
        · exact hka
        · exact hka.trans (hlt c hc)
    · split
      · rename_i hka
        split
        · exact hm
        · rename_i hv
          exact cellsWf_cons.2 ⟨hv, fun c hc => hka ▸ hlt c hc, hm⟩
      · refine cellsWf_cons.2 ⟨hx, fun c hc => ?_, ih hm⟩
        rcases mem_cellWrite hc with h | h
        · omega
        · exact hlt c h

/-- A write leaves every other address alone. -/
theorem cellRead_write_of_ne {m : List (Nat × α)} {k j : Nat} {v : α} (h : j ≠ k) :
    cellRead d (cellWrite d m k v) j = cellRead d m j := by
  induction m with
  | nil => simp only [cellWrite]; split <;> simp [cellRead, h]
  | cons e m ih =>
    obtain ⟨a, x⟩ := e
    simp only [cellWrite]
    split
    · split <;> simp [cellRead, h]
    · split
      · rename_i hka
        split <;> simp [cellRead, ← hka, h]
      · simp [cellRead, ih]

/-- A read of the written address gives the value written. -/
theorem cellRead_write_self {m : List (Nat × α)} {k : Nat} {v : α} (h : cellsWf d m = true) :
    cellRead d (cellWrite d m k v) k = v := by
  induction m with
  | nil => simp only [cellWrite]; split <;> simp_all [cellRead]
  | cons e m ih =>
    obtain ⟨a, x⟩ := e
    obtain ⟨hx, hlt, hm⟩ := cellsWf_cons.1 h
    simp only [cellWrite]
    split
    · rename_i hka
      split
      · rename_i hv
        rw [cellRead_of_forall_lt (d := d), hv]
        intro c hc
        rcases List.mem_cons.1 hc with rfl | hc
        · exact hka
        · exact hka.trans (hlt c hc)
      · simp [cellRead]
    · split
      · rename_i hka
        split
        · rename_i hv
          rw [cellRead_of_forall_lt (d := d), hv]
          exact fun c hc => hka ▸ hlt c hc
        · simp [cellRead]
      · rename_i hka
        simp [cellRead, hka, ih hm]

/-- Canonical memories that read alike are the same data. -/
theorem cells_ext {m m' : List (Nat × α)} (h : cellsWf d m = true) (h' : cellsWf d m' = true)
    (hr : ∀ k, cellRead d m k = cellRead d m' k) : m = m' := by
  induction m generalizing m' with
  | nil =>
    cases m' with
    | nil => rfl
    | cons c m' =>
      obtain ⟨hx, -, -⟩ := cellsWf_cons.1 h'
      have := hr c.1
      simp [cellRead] at this
      exact absurd this.symm hx
  | cons c m ih =>
    obtain ⟨a, x⟩ := c
    obtain ⟨hx, hlt, hm⟩ := cellsWf_cons.1 h
    cases m' with
    | nil =>
      have := hr a
      simp [cellRead] at this
      exact absurd this hx
    | cons c' m' =>
      obtain ⟨a', x'⟩ := c'
      obtain ⟨hx', hlt', hm'⟩ := cellsWf_cons.1 h'
      have haa : a = a' := by
        rcases Nat.lt_trichotomy a a' with hl | he | hl
        · have := hr a
          rw [cellRead_of_forall_lt (m := (a', x') :: m')] at this
          · simp [cellRead] at this; exact absurd this hx
          · intro c hc
            rcases List.mem_cons.1 hc with rfl | hc
            · exact hl
            · exact hl.trans (hlt' c hc)
        · exact he
        · have := hr a'
          rw [cellRead_of_forall_lt (m := (a, x) :: m)] at this
          · simp [cellRead] at this; exact absurd this.symm hx'
          · intro c hc
            rcases List.mem_cons.1 hc with rfl | hc
            · exact hl
            · exact hl.trans (hlt c hc)
      subst haa
      have hxx : x = x' := by simpa [cellRead] using hr a
      subst hxx
      rw [ih hm hm']
      intro k
      by_cases hk : k = a
      · subst hk
        rw [cellRead_of_forall_lt hlt, cellRead_of_forall_lt hlt']
      · simpa [cellRead, hk] using hr k

/-! ### Byte memories -/

@[simp] theorem Memory.read_nil (a : Nat) : Memory.read [] a = 0 := rfl

theorem Memory.write_wf {m : Memory} (h : Memory.wf m = true) (a : Nat) (v : Byte) :
    Memory.wf (Memory.write m a v) = true := cellWrite_wf h

theorem Memory.read_write_self {m : Memory} (h : Memory.wf m = true) (a : Nat) (v : Byte) :
    Memory.read (Memory.write m a v) a = v := cellRead_write_self h

theorem Memory.read_write_of_ne (m : Memory) {a b : Nat} (v : Byte) (h : b ≠ a) :
    Memory.read (Memory.write m a v) b = Memory.read m b := cellRead_write_of_ne h

theorem Memory.writeBytes_wf {m : Memory} (h : Memory.wf m = true) (a : Nat) (bs : List Byte) :
    Memory.wf (Memory.writeBytes m a bs) = true := by
  induction bs generalizing m a with
  | nil => exact h
  | cons b bs ih => exact ih (Memory.write_wf h a b) (a + 1)

/-- Bytes written from `a` on leave every address outside them alone. -/
theorem Memory.read_writeBytes_of_outside (m : Memory) {a b : Nat} {bs : List Byte}
    (h : b < a ∨ a + bs.length ≤ b) : Memory.read (Memory.writeBytes m a bs) b = Memory.read m b := by
  induction bs generalizing m a with
  | nil => rfl
  | cons v bs ih =>
    simp only [List.length_cons] at h
    simp only [Memory.writeBytes]
    rw [ih (Memory.write m a v) (by omega), Memory.read_write_of_ne m v (by omega)]

/-- Bytes written from `a` on are read back in order. -/
theorem Memory.read_writeBytes_of_lt {m : Memory} (h : Memory.wf m = true) (a : Nat) {bs : List Byte} {j : Nat}
    (hj : j < bs.length) : Memory.read (Memory.writeBytes m a bs) (a + j) = bs[j] := by
  induction bs generalizing m a j with
  | nil => simp at hj
  | cons v bs ih =>
    simp only [Memory.writeBytes]
    cases j with
    | zero =>
      rw [Memory.read_writeBytes_of_outside _ (.inl (by omega))]
      exact Memory.read_write_self h a v
    | succ j =>
      have := ih (Memory.write_wf h a v) (a + 1) (j := j) (by simpa using hj)
      rw [show a + (j + 1) = a + 1 + j by omega, this]
      simp

/-! ### Index buffers and tables -/

@[simp] theorem Elements.read_nil (k : Nat) : Elements.read [] k = 0 := rfl

theorem Elements.write_wf {m : Elements} (h : Elements.wf m = true) (k v : Nat) :
    Elements.wf (Elements.write m k v) = true := cellWrite_wf h

theorem Elements.read_write_self {m : Elements} (h : Elements.wf m = true) (k v : Nat) :
    Elements.read (Elements.write m k v) k = v := cellRead_write_self h

theorem Elements.read_write_of_ne (m : Elements) {k j : Nat} (v : Nat) (h : j ≠ k) :
    Elements.read (Elements.write m k v) j = Elements.read m j := cellRead_write_of_ne h

/-! ### Pixels -/

theorem pixelWrite_wf {m : Memory} (h : Memory.wf m = true) (w x y : Nat) (p : Rgba) :
    Memory.wf (pixelWrite m w x y p) = true := Memory.writeBytes_wf h _ _

/-- A pixel reads back as written. -/
theorem pixelRead_write_self {m : Memory} (h : Memory.wf m = true) (w x y : Nat) (p : Rgba) :
    pixelRead (pixelWrite m w x y p) w x y = p := by
  obtain ⟨r, g, b, a⟩ := p
  have hr := fun j (hj : j < [r, g, b, a].length) =>
    Memory.read_writeBytes_of_lt h (pixelOffset w x y) (bs := [r, g, b, a]) hj
  have h0 := hr 0 (by simp)
  have h1 := hr 1 (by simp)
  have h2 := hr 2 (by simp)
  have h3 := hr 3 (by simp)
  simp only [Nat.add_zero, List.getElem_cons_zero, List.getElem_cons_succ] at h0 h1 h2 h3
  simp only [pixelRead, pixelWrite, h0, h1, h2, h3]

/-- Distinct pixels of a row-major buffer occupy disjoint bytes (20_memory.md R76). -/
theorem pixelOffset_ne {w x y x' y' : Nat} (hx : x < w) (hx' : x' < w) (h : (x, y) ≠ (x', y')) :
    y * w + x ≠ y' * w + x' := by
  intro he
  have hw : 0 < w := by omega
  have hy : y = y' := by
    have h1 : (y * w + x) / w = y := by
      rw [Nat.mul_comm, Nat.mul_add_div hw, Nat.div_eq_of_lt hx, Nat.add_zero]
    have h2 : (y' * w + x') / w = y' := by
      rw [Nat.mul_comm, Nat.mul_add_div hw, Nat.div_eq_of_lt hx', Nat.add_zero]
    rw [← h1, he, h2]
  subst hy
  exact h (by simp; omega)

/-- A pixel write leaves every other pixel of the row-major buffer alone. -/
theorem pixelRead_write_of_ne (m : Memory) {w x y x' y' : Nat} (p : Rgba) (hx : x < w) (hx' : x' < w)
    (h : (x', y') ≠ (x, y)) : pixelRead (pixelWrite m w x y p) w x' y' = pixelRead m w x' y' := by
  have hne := pixelOffset_ne hx' hx h
  have hr : ∀ j < 4, Memory.read (pixelWrite m w x y p) (pixelOffset w x' y' + j)
      = Memory.read m (pixelOffset w x' y' + j) := by
    intro j hj
    apply Memory.read_writeBytes_of_outside
    simp only [pixelOffset, List.length_cons, List.length_nil]
    omega
  have h0 := hr 0 (by omega)
  simp only [Nat.add_zero] at h0
  simp only [pixelRead, h0, hr 1 (by omega), hr 2 (by omega), hr 3 (by omega)]

end Sys2Proof.Machine
end

