-- ==== Sys2Proof/Laws/State.lean ====
section
/-! SUPPORT. What each shared update of the state does to each field, so that no proof unfolds a record update. -/

namespace Sys2Proof.Machine

/-! ### `advance`: moves the cursor -/

@[simp] theorem advance_buf (n : Nat) (s : State) : (advance n s).buf = s.buf := rfl
@[simp] theorem advance_bufLen (n : Nat) (s : State) : (advance n s).bufLen = s.bufLen := rfl
@[simp] theorem advance_compositeEnable (n : Nat) (s : State) : (advance n s).compositeEnable = s.compositeEnable :=
  rfl
@[simp] theorem advance_maxAllocBytes (n : Nat) (s : State) : (advance n s).maxAllocBytes = s.maxAllocBytes := rfl
@[simp] theorem advance_cursor (n : Nat) (s : State) : (advance n s).cursor = s.cursor + n := rfl
@[simp] theorem advance_phase (n : Nat) (s : State) : (advance n s).phase = s.phase := rfl
@[simp] theorem advance_site (n : Nat) (s : State) : (advance n s).site = s.site := rfl
@[simp] theorem advance_version (n : Nat) (s : State) : (advance n s).version = s.version := rfl
@[simp] theorem advance_screen (n : Nat) (s : State) : (advance n s).screen = s.screen := rfl
@[simp] theorem advance_hasGlobal (n : Nat) (s : State) : (advance n s).hasGlobal = s.hasGlobal := rfl
@[simp] theorem advance_hasLocal (n : Nat) (s : State) : (advance n s).hasLocal = s.hasLocal := rfl
@[simp] theorem advance_pendingGC (n : Nat) (s : State) : (advance n s).pendingGC = s.pendingGC := rfl
@[simp] theorem advance_pendingOpcode (n : Nat) (s : State) : (advance n s).pendingOpcode = s.pendingOpcode := rfl
@[simp] theorem advance_desc (n : Nat) (s : State) : (advance n s).desc = s.desc := rfl
@[simp] theorem advance_lz (n : Nat) (s : State) : (advance n s).lz = s.lz := rfl
@[simp] theorem advance_frames (n : Nat) (s : State) : (advance n s).frames = s.frames := rfl
@[simp] theorem advance_opcodes (n : Nat) (s : State) : (advance n s).opcodes = s.opcodes := rfl
@[simp] theorem advance_fc (n : Nat) (s : State) : (advance n s).fc = s.fc := rfl
@[simp] theorem advance_result (n : Nat) (s : State) : (advance n s).result = s.result := rfl

/-! ### `goTo`: moves to a place -/

@[simp] theorem goTo_buf (p : Site) (s : State) : (goTo p s).buf = s.buf := rfl
@[simp] theorem goTo_bufLen (p : Site) (s : State) : (goTo p s).bufLen = s.bufLen := rfl
@[simp] theorem goTo_compositeEnable (p : Site) (s : State) : (goTo p s).compositeEnable = s.compositeEnable := rfl
@[simp] theorem goTo_maxAllocBytes (p : Site) (s : State) : (goTo p s).maxAllocBytes = s.maxAllocBytes := rfl
@[simp] theorem goTo_cursor (p : Site) (s : State) : (goTo p s).cursor = s.cursor := rfl
@[simp] theorem goTo_phase (p : Site) (s : State) : (goTo p s).phase = phaseOf p := rfl
@[simp] theorem goTo_site (p : Site) (s : State) : (goTo p s).site = p := rfl
@[simp] theorem goTo_version (p : Site) (s : State) : (goTo p s).version = s.version := rfl
@[simp] theorem goTo_screen (p : Site) (s : State) : (goTo p s).screen = s.screen := rfl
@[simp] theorem goTo_hasGlobal (p : Site) (s : State) : (goTo p s).hasGlobal = s.hasGlobal := rfl
@[simp] theorem goTo_hasLocal (p : Site) (s : State) : (goTo p s).hasLocal = s.hasLocal := rfl
@[simp] theorem goTo_pendingGC (p : Site) (s : State) : (goTo p s).pendingGC = s.pendingGC := rfl
@[simp] theorem goTo_pendingOpcode (p : Site) (s : State) : (goTo p s).pendingOpcode = s.pendingOpcode := rfl
@[simp] theorem goTo_desc (p : Site) (s : State) : (goTo p s).desc = s.desc := rfl
@[simp] theorem goTo_lz (p : Site) (s : State) : (goTo p s).lz = s.lz := rfl
@[simp] theorem goTo_frames (p : Site) (s : State) : (goTo p s).frames = s.frames := rfl
@[simp] theorem goTo_opcodes (p : Site) (s : State) : (goTo p s).opcodes = s.opcodes := rfl
@[simp] theorem goTo_fc (p : Site) (s : State) : (goTo p s).fc = s.fc := rfl
@[simp] theorem goTo_result (p : Site) (s : State) : (goTo p s).result = s.result := rfl

/-! ### `withCanvas`: replaces the canvas -/

@[simp] theorem withCanvas_buf (cv : Memory) (s : State) : (withCanvas cv s).buf = s.buf := rfl
@[simp] theorem withCanvas_bufLen (cv : Memory) (s : State) : (withCanvas cv s).bufLen = s.bufLen := rfl
@[simp] theorem withCanvas_compositeEnable (cv : Memory) (s : State) : (withCanvas cv s).compositeEnable = s.compositeEnable := rfl
@[simp] theorem withCanvas_maxAllocBytes (cv : Memory) (s : State) : (withCanvas cv s).maxAllocBytes = s.maxAllocBytes := rfl
@[simp] theorem withCanvas_cursor (cv : Memory) (s : State) : (withCanvas cv s).cursor = s.cursor := rfl
@[simp] theorem withCanvas_phase (cv : Memory) (s : State) : (withCanvas cv s).phase = s.phase := rfl
@[simp] theorem withCanvas_site (cv : Memory) (s : State) : (withCanvas cv s).site = s.site := rfl
@[simp] theorem withCanvas_version (cv : Memory) (s : State) : (withCanvas cv s).version = s.version := rfl
@[simp] theorem withCanvas_screen (cv : Memory) (s : State) : (withCanvas cv s).screen = s.screen := rfl
@[simp] theorem withCanvas_hasGlobal (cv : Memory) (s : State) : (withCanvas cv s).hasGlobal = s.hasGlobal := rfl
@[simp] theorem withCanvas_hasLocal (cv : Memory) (s : State) : (withCanvas cv s).hasLocal = s.hasLocal := rfl
@[simp] theorem withCanvas_pendingGC (cv : Memory) (s : State) : (withCanvas cv s).pendingGC = s.pendingGC := rfl
@[simp] theorem withCanvas_pendingOpcode (cv : Memory) (s : State) : (withCanvas cv s).pendingOpcode = s.pendingOpcode := rfl
@[simp] theorem withCanvas_desc (cv : Memory) (s : State) : (withCanvas cv s).desc = s.desc := rfl
@[simp] theorem withCanvas_lz (cv : Memory) (s : State) : (withCanvas cv s).lz = s.lz := rfl
@[simp] theorem withCanvas_frames (cv : Memory) (s : State) : (withCanvas cv s).frames = s.frames := rfl
@[simp] theorem withCanvas_opcodes (cv : Memory) (s : State) : (withCanvas cv s).opcodes = s.opcodes := rfl
@[simp] theorem withCanvas_fc (cv : Memory) (s : State) : (withCanvas cv s).fc = { s.fc with canvas := cv } := rfl
@[simp] theorem withCanvas_result (cv : Memory) (s : State) : (withCanvas cv s).result = s.result := rfl

/-! ### `endCall`: ends the call -/

@[simp] theorem endCall_buf (p : Phase) (r : Result) (s : State) : (endCall p r s).buf = s.buf := rfl
@[simp] theorem endCall_bufLen (p : Phase) (r : Result) (s : State) : (endCall p r s).bufLen = s.bufLen := rfl
@[simp] theorem endCall_compositeEnable (p : Phase) (r : Result) (s : State) : (endCall p r s).compositeEnable = s.compositeEnable := rfl
@[simp] theorem endCall_maxAllocBytes (p : Phase) (r : Result) (s : State) : (endCall p r s).maxAllocBytes = s.maxAllocBytes := rfl
@[simp] theorem endCall_cursor (p : Phase) (r : Result) (s : State) : (endCall p r s).cursor = s.cursor := rfl
@[simp] theorem endCall_phase (p : Phase) (r : Result) (s : State) : (endCall p r s).phase = p := rfl
@[simp] theorem endCall_site (p : Phase) (r : Result) (s : State) : (endCall p r s).site = .ended := rfl
@[simp] theorem endCall_version (p : Phase) (r : Result) (s : State) : (endCall p r s).version = 0 := rfl
@[simp] theorem endCall_screen (p : Phase) (r : Result) (s : State) : (endCall p r s).screen = Screen.reset := rfl
@[simp] theorem endCall_hasGlobal (p : Phase) (r : Result) (s : State) : (endCall p r s).hasGlobal = false := rfl
@[simp] theorem endCall_hasLocal (p : Phase) (r : Result) (s : State) : (endCall p r s).hasLocal = false := rfl
@[simp] theorem endCall_pendingGC (p : Phase) (r : Result) (s : State) : (endCall p r s).pendingGC = none := rfl
@[simp] theorem endCall_pendingOpcode (p : Phase) (r : Result) (s : State) : (endCall p r s).pendingOpcode = 0 := rfl
@[simp] theorem endCall_desc (p : Phase) (r : Result) (s : State) : (endCall p r s).desc = ImageDescriptor.reset :=
  rfl
@[simp] theorem endCall_lz (p : Phase) (r : Result) (s : State) : (endCall p r s).lz = LzRegs.reset := rfl
@[simp] theorem endCall_frames (p : Phase) (r : Result) (s : State) : (endCall p r s).frames = [] := rfl
@[simp] theorem endCall_opcodes (p : Phase) (r : Result) (s : State) : (endCall p r s).opcodes = [] := rfl
@[simp] theorem endCall_fc (p : Phase) (r : Result) (s : State) : (endCall p r s).fc = FcRegs.reset := rfl
@[simp] theorem endCall_result (p : Phase) (r : Result) (s : State) : (endCall p r s).result = r := rfl

/-! ### `raise`: aborts the call -/

@[simp] theorem raise_buf (k : ErrorKind) (t : StepTag) (s : State) : (raise k t s).buf = s.buf := rfl
@[simp] theorem raise_bufLen (k : ErrorKind) (t : StepTag) (s : State) : (raise k t s).bufLen = s.bufLen := rfl
@[simp] theorem raise_compositeEnable (k : ErrorKind) (t : StepTag) (s : State) : (raise k t s).compositeEnable = s.compositeEnable := rfl
@[simp] theorem raise_maxAllocBytes (k : ErrorKind) (t : StepTag) (s : State) : (raise k t s).maxAllocBytes = s.maxAllocBytes := rfl
@[simp] theorem raise_cursor (k : ErrorKind) (t : StepTag) (s : State) : (raise k t s).cursor = s.cursor := rfl
@[simp] theorem raise_phase (k : ErrorKind) (t : StepTag) (s : State) : (raise k t s).phase = .failed := rfl
@[simp] theorem raise_site (k : ErrorKind) (t : StepTag) (s : State) : (raise k t s).site = .ended := rfl
@[simp] theorem raise_version (k : ErrorKind) (t : StepTag) (s : State) : (raise k t s).version = 0 := rfl
@[simp] theorem raise_screen (k : ErrorKind) (t : StepTag) (s : State) : (raise k t s).screen = Screen.reset := rfl
@[simp] theorem raise_hasGlobal (k : ErrorKind) (t : StepTag) (s : State) : (raise k t s).hasGlobal = false := rfl
@[simp] theorem raise_hasLocal (k : ErrorKind) (t : StepTag) (s : State) : (raise k t s).hasLocal = false := rfl
@[simp] theorem raise_pendingGC (k : ErrorKind) (t : StepTag) (s : State) : (raise k t s).pendingGC = none := rfl
@[simp] theorem raise_pendingOpcode (k : ErrorKind) (t : StepTag) (s : State) : (raise k t s).pendingOpcode = 0 := rfl
@[simp] theorem raise_desc (k : ErrorKind) (t : StepTag) (s : State) : (raise k t s).desc = ImageDescriptor.reset :=
  rfl
@[simp] theorem raise_lz (k : ErrorKind) (t : StepTag) (s : State) : (raise k t s).lz = LzRegs.reset := rfl
@[simp] theorem raise_frames (k : ErrorKind) (t : StepTag) (s : State) : (raise k t s).frames = [] := rfl
@[simp] theorem raise_opcodes (k : ErrorKind) (t : StepTag) (s : State) : (raise k t s).opcodes = [] := rfl
@[simp] theorem raise_fc (k : ErrorKind) (t : StepTag) (s : State) : (raise k t s).fc = FcRegs.reset := rfl
@[simp] theorem raise_result (k : ErrorKind) (t : StepTag) (s : State) : (raise k t s).result = .failure k t := rfl

/-! ### `succeed`: ends the call with an image -/

@[simp] theorem succeed_buf (s : State) : (succeed s).buf = s.buf := rfl
@[simp] theorem succeed_bufLen (s : State) : (succeed s).bufLen = s.bufLen := rfl
@[simp] theorem succeed_compositeEnable (s : State) : (succeed s).compositeEnable = s.compositeEnable := rfl
@[simp] theorem succeed_maxAllocBytes (s : State) : (succeed s).maxAllocBytes = s.maxAllocBytes := rfl
@[simp] theorem succeed_cursor (s : State) : (succeed s).cursor = s.cursor := rfl
@[simp] theorem succeed_phase (s : State) : (succeed s).phase = .done := rfl
@[simp] theorem succeed_site (s : State) : (succeed s).site = .ended := rfl
@[simp] theorem succeed_version (s : State) : (succeed s).version = 0 := rfl
@[simp] theorem succeed_screen (s : State) : (succeed s).screen = Screen.reset := rfl
@[simp] theorem succeed_hasGlobal (s : State) : (succeed s).hasGlobal = false := rfl
@[simp] theorem succeed_hasLocal (s : State) : (succeed s).hasLocal = false := rfl
@[simp] theorem succeed_pendingGC (s : State) : (succeed s).pendingGC = none := rfl
@[simp] theorem succeed_pendingOpcode (s : State) : (succeed s).pendingOpcode = 0 := rfl
@[simp] theorem succeed_desc (s : State) : (succeed s).desc = ImageDescriptor.reset := rfl
@[simp] theorem succeed_lz (s : State) : (succeed s).lz = LzRegs.reset := rfl
@[simp] theorem succeed_frames (s : State) : (succeed s).frames = [] := rfl
@[simp] theorem succeed_opcodes (s : State) : (succeed s).opcodes = [] := rfl
@[simp] theorem succeed_fc (s : State) : (succeed s).fc = FcRegs.reset := rfl
@[simp] theorem succeed_result (s : State) : (succeed s).result = .success { version := s.version, screen := s.screen, frames := s.frames } := rfl

/-! ### `completeImage`: appends a frame -/

@[simp] theorem completeImage_buf (s : State) : (completeImage s).buf = s.buf := rfl
@[simp] theorem completeImage_bufLen (s : State) : (completeImage s).bufLen = s.bufLen := rfl
@[simp] theorem completeImage_compositeEnable (s : State) : (completeImage s).compositeEnable = s.compositeEnable :=
  rfl
@[simp] theorem completeImage_maxAllocBytes (s : State) : (completeImage s).maxAllocBytes = s.maxAllocBytes := rfl
@[simp] theorem completeImage_cursor (s : State) : (completeImage s).cursor = s.cursor := rfl
@[simp] theorem completeImage_phase (s : State) : (completeImage s).phase = .blocks := rfl
@[simp] theorem completeImage_site (s : State) : (completeImage s).site = .boundary := rfl
@[simp] theorem completeImage_version (s : State) : (completeImage s).version = s.version := rfl
@[simp] theorem completeImage_screen (s : State) : (completeImage s).screen = s.screen := rfl
@[simp] theorem completeImage_hasGlobal (s : State) : (completeImage s).hasGlobal = s.hasGlobal := rfl
@[simp] theorem completeImage_hasLocal (s : State) : (completeImage s).hasLocal = false := rfl
@[simp] theorem completeImage_pendingGC (s : State) : (completeImage s).pendingGC = none := rfl
@[simp] theorem completeImage_pendingOpcode (s : State) : (completeImage s).pendingOpcode = 0 := rfl
@[simp] theorem completeImage_desc (s : State) : (completeImage s).desc = ImageDescriptor.reset := rfl
@[simp] theorem completeImage_lz (s : State) : (completeImage s).lz = LzRegs.reset := rfl
@[simp] theorem completeImage_frames (s : State) : (completeImage s).frames = s.frames ++ [{ desc := s.desc, gc := s.pendingGC, minCodeSize := s.lz.m, indexData := s.lz.target, rendered := none }] := rfl
@[simp] theorem completeImage_opcodes (s : State) : (completeImage s).opcodes = s.opcodes ++ [if s.pendingGC.isSome then s.pendingOpcode else 0] := rfl
@[simp] theorem completeImage_fc (s : State) : (completeImage s).fc = s.fc := rfl
@[simp] theorem completeImage_result (s : State) : (completeImage s).result = s.result := rfl

end Sys2Proof.Machine
end

