-- ==== Sys2Proof/Laws/BitReader.lean ====
section
/-! SUPPORT. What `ReadCode` can do to the state (41_lzw_decoder.md R164 to R166). -/

namespace Sys2Proof.Machine

/-- Two states that differ at most in the cursor and in the bit-reader registers (10_state.md R43). -/
structure SameButReader (s t : State) : Prop where
  rest : t = { s with cursor := t.cursor, lz := t.lz }
  lz : t.lz = { s.lz with
    acc := t.lz.acc, accBits := t.lz.accBits, blockRemaining := t.lz.blockRemaining, dataDone := t.lz.dataDone }

theorem SameButReader.refl (s : State) : SameButReader s s := ⟨rfl, rfl⟩

theorem SameButReader.trans {s t u : State} (h : SameButReader s t) (h' : SameButReader t u) : SameButReader s u := by
  obtain ⟨h1, h2⟩ := h
  obtain ⟨h3, h4⟩ := h'
  constructor
  · rw [h3, h1]
  · rw [h4, h2]

theorem SameButReader.mk' {s : State} (c a ab br : Nat) (dd : Bool) :
    SameButReader s { s with cursor := c, lz := { s.lz with
      acc := a, accBits := ab, blockRemaining := br, dataDone := dd } } := ⟨rfl, rfl⟩

/-- What opening a sub-block can give: the current one goes on; the next one is opened, its length byte consumed and
its whole length in the buffer; the terminator is consumed; or the length byte or the length runs past the buffer. -/
theorem openSubBlock_cases (s : State) :
    (s.lz.blockRemaining ≠ 0 ∧ openSubBlock s = .ok s) ∨
    (s.lz.blockRemaining = 0 ∧ s.bufLen < s.cursor + 1 ∧ openSubBlock s = .error (.truncated s)) ∨
    (s.lz.blockRemaining = 0 ∧ s.cursor + 1 ≤ s.bufLen ∧ (bufByte s s.cursor).toNat = 0 ∧
      openSubBlock s = .error (.dataEnd { s with cursor := s.cursor + 1, lz := { s.lz with dataDone := true } })) ∨
    (s.lz.blockRemaining = 0 ∧ s.cursor + 1 ≤ s.bufLen ∧ (bufByte s s.cursor).toNat ≠ 0 ∧
      s.bufLen < s.cursor + 1 + (bufByte s s.cursor).toNat ∧
      openSubBlock s = .error (.truncated { s with cursor := s.cursor + 1 })) ∨
    (s.lz.blockRemaining = 0 ∧ (bufByte s s.cursor).toNat ≠ 0 ∧
      s.cursor + 1 + (bufByte s s.cursor).toNat ≤ s.bufLen ∧
      openSubBlock s = .ok { s with cursor := s.cursor + 1, lz := { s.lz with
        blockRemaining := (bufByte s s.cursor).toNat } }) := by
  unfold openSubBlock
  by_cases hb : s.lz.blockRemaining = 0
  · by_cases hc : s.bufLen < s.cursor + 1
    · simp [hb, hc]
    · by_cases hl : (bufByte s s.cursor).toNat = 0
      · simp [hb, hc, hl, advance]; omega
      · by_cases hn : s.bufLen < s.cursor + 1 + (bufByte s s.cursor).toNat
        · simp [hb, hc, hl, hn, advance]; omega
        · simp [hb, hc, hl, hn, advance]; omega
  · simp [hb]

/-- An invariant of the bit reader's loop (indexed by the turns left) decides what the reader gives: where a code is
taken, where a sub-block does not open, and where a data byte lies outside the buffer. -/
theorem gatherCode_induction {P : Nat → State → Prop} {Q : CodeRead → Prop}
    (hpull : ∀ n s s1, P (n + 1) s → s.lz.accBits < s.lz.codeSize → openSubBlock s = .ok s1 →
      s1.cursor < s1.bufLen → P n (pullByte s1))
    (hstop : ∀ n s r, P (n + 1) s → s.lz.accBits < s.lz.codeSize → openSubBlock s = .error r → Q r)
    (hout : ∀ n s s1, P (n + 1) s → openSubBlock s = .ok s1 → s1.bufLen ≤ s1.cursor → Q .outside)
    (htake : ∀ n s, P n s → n = 0 ∨ s.lz.codeSize ≤ s.lz.accBits → Q (takeCode s))
    {n : Nat} {s : State} (hs : P n s) : Q (gatherCode n s) := by
  induction n generalizing s with
  | zero => exact htake 0 s hs (.inl rfl)
  | succ n ih =>
    unfold gatherCode
    split
    · exact htake _ s hs (.inr ‹_›)
    · rename_i hlt
      split
      · exact hstop n s _ hs (by omega) ‹_›
      · rename_i s1 ho
        split
        · exact hout n s s1 hs ho ‹_›
        · exact ih (hpull n s s1 hs (by omega) ho (by omega))

/-- The state a read of a code leaves, if it leaves one. -/
def CodeRead.state? : CodeRead → Option State
  | .code _ s => some s
  | .dataEnd s => some s
  | .truncated s => some s
  | .outside => none

theorem openSubBlock_sameButReader {s s1 : State} (h : openSubBlock s = .ok s1) : SameButReader s s1 := by
  rcases openSubBlock_cases s with ⟨-, e⟩ | ⟨-, -, e⟩ | ⟨-, -, -, e⟩ | ⟨-, -, -, -, e⟩ | ⟨-, -, -, e⟩
  all_goals rw [e] at h; cases h
  · exact .refl s
  · exact ⟨rfl, rfl⟩

theorem openSubBlock_stop {s s1 : State} {r : CodeRead} (h : openSubBlock s = .error r) (hr : r.state? = some s1) :
    SameButReader s s1 := by
  rcases openSubBlock_cases s with ⟨-, e⟩ | ⟨-, -, e⟩ | ⟨-, -, -, e⟩ | ⟨-, -, -, -, e⟩ | ⟨-, -, -, e⟩
  all_goals rw [e] at h; cases h
  all_goals cases hr; exact ⟨rfl, rfl⟩

/-- Opening a sub-block takes no bit. -/
theorem openSubBlock_accBits {s s1 : State} (h : openSubBlock s = .ok s1) : s1.lz.accBits = s.lz.accBits := by
  rcases openSubBlock_cases s with ⟨-, e⟩ | ⟨-, -, e⟩ | ⟨-, -, -, e⟩ | ⟨-, -, -, -, e⟩ | ⟨-, -, -, e⟩
  all_goals rw [e] at h; cases h
  all_goals rfl

/-- The bit reader's loop gives the same read for any two numbers of turns that reach the width: the bound of log entry 13
is no part of the result. -/
theorem gatherCode_turns {n m : Nat} {s : State} (hn : s.lz.codeSize ≤ s.lz.accBits + n)
    (hm : s.lz.codeSize ≤ s.lz.accBits + m) : gatherCode n s = gatherCode m s := by
  induction n generalizing m s with
  | zero => cases m <;> simp [gatherCode]; omega
  | succ n ih =>
    cases m with
    | zero => simp [gatherCode]; omega
    | succ m =>
      unfold gatherCode
      split
      · rfl
      · cases ho : openSubBlock s with
        | error r => rfl
        | ok s1 =>
          have hc : s1.lz.codeSize = s.lz.codeSize := by rw [(openSubBlock_sameButReader ho).lz]
          dsimp only
          split
          · rfl
          · apply ih <;> simp only [pullByte, hc, openSubBlock_accBits ho] <;> omega

/-- `ReadCode` writes only the cursor and the bit-reader registers (R164, State written). -/
theorem readCode_sameButReader {s s1 : State} (h : (readCode s).state? = some s1) : SameButReader s s1 := by
  refine gatherCode_induction (P := fun _ t => SameButReader s t)
    (Q := fun r => ∀ t, r.state? = some t → SameButReader s t) ?_ ?_ ?_ ?_ (SameButReader.refl s) s1 h
  · intro n t t1 ht _ ho _
    exact (ht.trans (openSubBlock_sameButReader ho)).trans ⟨rfl, rfl⟩
  · intro n t r ht _ ho u hu
    exact ht.trans (openSubBlock_stop ho hu)
  · intro n t t1 _ _ _ u hu
    cases hu
  · intro n t ht _ u hu
    cases hu
    exact ht.trans ⟨rfl, rfl⟩

theorem openSubBlock_inBuffer {s s1 : State} (hs : BlockInBuffer s) (h : openSubBlock s = .ok s1) :
    BlockInBuffer s1 ∧ 0 < s1.lz.blockRemaining ∧ s.cursor ≤ s1.cursor := by
  unfold BlockInBuffer at *
  rcases openSubBlock_cases s with ⟨hb, e⟩ | ⟨-, -, e⟩ | ⟨-, -, -, e⟩ | ⟨-, -, -, -, e⟩ | ⟨-, hl, hn, e⟩
  all_goals rw [e] at h; cases h
  · exact ⟨hs, by omega, le_refl _⟩
  · dsimp only; omega

/-- A read of a code keeps the cursor and the current sub-block inside the buffer, never moves the cursor back, and
never meets a data byte outside the buffer (R165, 10_state.md R23). -/
theorem readCode_inBuffer {s : State} (hs : BlockInBuffer s) (hc : s.cursor ≤ s.bufLen) :
    match readCode s with
    | .code _ t => BlockInBuffer t ∧ t.cursor ≤ t.bufLen ∧ s.cursor ≤ t.cursor
    | .dataEnd t => t.cursor ≤ t.bufLen ∧ s.cursor < t.cursor
    | .truncated t => t.cursor ≤ t.bufLen ∧ s.cursor ≤ t.cursor
    | .outside => False := by
  refine gatherCode_induction
    (P := fun _ t => BlockInBuffer t ∧ t.cursor ≤ t.bufLen ∧ s.cursor ≤ t.cursor)
    (Q := fun r => match r with
      | .code _ t => BlockInBuffer t ∧ t.cursor ≤ t.bufLen ∧ s.cursor ≤ t.cursor
      | .dataEnd t => t.cursor ≤ t.bufLen ∧ s.cursor < t.cursor
      | .truncated t => t.cursor ≤ t.bufLen ∧ s.cursor ≤ t.cursor
      | .outside => False) ?_ ?_ ?_ ?_ ⟨hs, hc, le_refl _⟩
  · rintro n t t1 ⟨hb, ht, hst⟩ _ ho hlt
    obtain ⟨hb1, hpos, hle⟩ := openSubBlock_inBuffer hb ho
    unfold BlockInBuffer at *
    simp only [pullByte]
    omega
  · rintro n t r ⟨hb, ht, hst⟩ _ ho
    rcases openSubBlock_cases t with ⟨-, e⟩ | ⟨-, hc, e⟩ | ⟨-, hc, -, e⟩ | ⟨-, hc, -, -, e⟩ | ⟨-, -, -, e⟩
    all_goals rw [e] at ho; cases ho
    all_goals dsimp only; omega
  · rintro n t t1 ⟨hb, ht, hst⟩ ho hle
    obtain ⟨hb1, hpos, -⟩ := openSubBlock_inBuffer hb ho
    unfold BlockInBuffer at hb1
    omega
  · rintro n t ⟨hb, ht, hst⟩ _
    exact ⟨hb, ht, hst⟩

end Sys2Proof.Machine
end

