-- ==== Sys2Proof/Laws/Canvas.lean ====
section
/-! SUPPORT. What painting a frame's rectangle does to the canvas (42_frame_compositor.md R215 to R220). -/

namespace Sys2Proof.Machine

/-- A frame's rectangle: the pixels of its placement that lie on the canvas (R218). -/
theorem mem_rect {d : ImageDescriptor} {w h x y : Nat} :
    (x, y) ∈ rect d w h ↔
      d.x.toNat ≤ x ∧ x < d.x.toNat + d.width.toNat ∧ d.y.toNat ≤ y ∧ y < d.y.toNat + d.height.toNat
        ∧ x < w ∧ y < h := by
  simp only [rect, List.mem_flatMap, List.mem_range, List.mem_filterMap]
  constructor
  · rintro ⟨r, hr, c, hc, he⟩
    split at he
    · rename_i hb
      simp only [Option.some.injEq, Prod.mk.injEq] at he
      omega
    · cases he
  · rintro ⟨h1, h2, h3, h4, h5, h6⟩
    refine ⟨y - d.y.toNat, by omega, x - d.x.toNat, by omega, ?_⟩
    rw [Nat.add_sub_cancel' h1, Nat.add_sub_cancel' h3, if_pos ⟨h5, h6⟩]

theorem rect_fst_lt {d : ImageDescriptor} {w h : Nat} {p : Nat × Nat} (hp : p ∈ rect d w h) : p.1 < w :=
  (mem_rect.1 (by simpa using hp)).2.2.2.2.1

/-- Painting a list of pixels keeps the canonical form and decides each pixel on its own. -/
theorem paint_list {w : Nat} {pixel : Nat → Nat → Option Rgba} {l : List (Nat × Nat)} (hl : ∀ p ∈ l, p.1 < w)
    {cv : Memory} (hcv : Memory.wf cv = true) :
    Memory.wf (l.foldl (fun cv p => match pixel p.1 p.2 with
      | none => cv
      | some v => pixelWrite cv w p.1 p.2 v) cv) = true ∧
    ∀ x y, x < w →
      pixelRead (l.foldl (fun cv p => match pixel p.1 p.2 with
        | none => cv
        | some v => pixelWrite cv w p.1 p.2 v) cv) w x y
        = if (x, y) ∈ l then (pixel x y).getD (pixelRead cv w x y) else pixelRead cv w x y := by
  induction l generalizing cv with
  | nil => simp [hcv]
  | cons p l ih =>
    obtain ⟨px, py⟩ := p
    have hp : px < w := hl (px, py) (by simp)
    have hl' : ∀ p ∈ l, p.1 < w := fun p h => hl p (by simp [h])
    simp only [List.foldl_cons]
    cases hv : pixel px py with
    | none =>
      obtain ⟨h1, h2⟩ := ih hl' hcv
      refine ⟨h1, fun x y hx => ?_⟩
      rw [h2 x y hx]
      by_cases he : (x, y) = (px, py)
      · obtain ⟨rfl, rfl⟩ := Prod.mk.injEq .. ▸ he
        simp [hv]
      · simp [List.mem_cons, he]
    | some v =>
      obtain ⟨h1, h2⟩ := ih hl' (pixelWrite_wf hcv w px py v)
      refine ⟨h1, fun x y hx => ?_⟩
      rw [h2 x y hx]
      by_cases he : (x, y) = (px, py)
      · obtain ⟨rfl, rfl⟩ := Prod.mk.injEq .. ▸ he
        simp [hv, pixelRead_write_self hcv]
      · simp [List.mem_cons, he, pixelRead_write_of_ne cv v hp hx he]

theorem paintRect_wf (d : ImageDescriptor) (w h : Nat) (pixel : Nat → Nat → Option Rgba) {cv : Memory}
    (hcv : Memory.wf cv = true) : Memory.wf (paintRect d w h pixel cv) = true :=
  (paint_list (fun _ hp => rect_fst_lt hp) hcv).1

/-- Painting a rectangle: a pixel of it takes the value given for it, if one is; every other pixel is unchanged. -/
theorem pixelRead_paintRect (d : ImageDescriptor) {w x : Nat} (h y : Nat) (pixel : Nat → Nat → Option Rgba)
    {cv : Memory} (hcv : Memory.wf cv = true) (hx : x < w) :
    pixelRead (paintRect d w h pixel cv) w x y =
      if (x, y) ∈ rect d w h then (pixel x y).getD (pixelRead cv w x y) else pixelRead cv w x y :=
  (paint_list (fun _ hp => rect_fst_lt hp) hcv).2 x y hx

end Sys2Proof.Machine
end

