-- ==== Sys2Proof/Laws/Ops.lean ====
section
/-! SUPPORT. What each shared operation can answer, stated once; later proofs cite these and unfold nothing. -/

namespace Sys2Proof.Machine

/-! ### `need` and `allocate` -/

@[simp] theorem need_of_le {n : Nat} {t : StepTag} {s : State} {rest : Out} (h : s.cursor + n ≤ s.bufLen) :
    need n t s rest = rest := by simp [need, Nat.not_lt.2 h]

@[simp] theorem need_of_lt {n : Nat} {t : StepTag} {s : State} {rest : Out} (h : s.bufLen < s.cursor + n) :
    need n t s rest = .next (raise .truncatedStream t s) := by simp [need, h]

theorem need_eq_next {n : Nat} {t : StepTag} {s u : State} {rest : Out} :
    need n t s rest = .next u ↔
      (s.bufLen < s.cursor + n ∧ u = raise .truncatedStream t s) ∨ (s.cursor + n ≤ s.bufLen ∧ rest = .next u) := by
  rcases Nat.lt_or_ge s.bufLen (s.cursor + n) with h | h
  · simp [h, Nat.not_le.2 h, eq_comm]
  · simp [h, Nat.not_lt.2 h]

@[simp] theorem allocate_of_le {n : Nat} {s : State} {rest : Out} (h : allocated s + n ≤ s.maxAllocBytes) :
    allocate n s rest = rest := by simp [allocate, Nat.not_lt.2 h]

@[simp] theorem allocate_of_lt {n : Nat} {s : State} {rest : Out} (h : s.maxAllocBytes < allocated s + n) :
    allocate n s rest = .refused .allocLimit := by simp [allocate, h]

theorem allocate_eq_next {n : Nat} {s u : State} {rest : Out} :
    allocate n s rest = .next u ↔ allocated s + n ≤ s.maxAllocBytes ∧ rest = .next u := by
  rcases Nat.lt_or_ge s.maxAllocBytes (allocated s + n) with h | h
  · simp [h, Nat.not_le.2 h]
  · simp [h]

/-! ### The end of a call -/

/-- Distinct error kinds have distinct codes. -/
theorem errorCode_injective {k k' : ErrorKind} (h : errorCode k = errorCode k') : k = k' := by
  cases k <;> cases k' <;> simp_all [errorCode]

@[simp] theorem resultCode_raise (k : ErrorKind) (g : StepTag) (s : State) :
    resultCode (raise k g s).result = some (errorCode k) := rfl

/-! ### Codes -/

theorem onCode_of_code {s s1 : State} {v : Nat} {rest : State → Out} (hs : s.site = .imageData)
    (h : readCode s = .code v s1) : onCode s rest = rest s1 := by simp [onCode, hs, h]

theorem onCode_eq_next {s u : State} {rest : State → Out} :
    onCode s rest = .next u ↔
      s.site = .imageData ∧
        ((∃ v s1, readCode s = .code v s1 ∧ rest s1 = .next u) ∨
          ∃ s1, readCode s = .truncated s1 ∧ u = raise .truncatedStream .lzwData s1) := by
  unfold onCode
  by_cases hs : s.site = .imageData
  · cases h : readCode s <;> simp [hs, eq_comm]
  · simp [hs]

/-- A data code needs an old code; then it aborts on the stack bound or on a full table, or appends one entry and
emits its string (R173 to R179). -/
theorem dataCode_cases {c : Nat} {s : State} {old : Nat} (ho : s.lz.oldCode = some old) :
    (resolveCode s.lz c old = none ∧ dataCode c s = .next (raise .stackOverflow .lzwData s)) ∨
    (∃ c0 st, resolveCode s.lz c old = some (c0, st) ∧
      ((Config.tableSlots ≤ s.lz.avail ∧ dataCode c s = .next (raise .corruptLzwStream .lzwData s)) ∨
        (s.lz.avail < Config.tableSlots ∧
          dataCode c s = .next { s with lz := emitStack { growCodeSize
            { s.lz with
              stack := st,
              prefixTab := Elements.write s.lz.prefixTab s.lz.avail old,
              suffixTab := Elements.write s.lz.suffixTab s.lz.avail c0,
              avail := s.lz.avail + 1 } with oldCode := some c, firstChar := c0 } }))) := by
  cases hr : resolveCode s.lz c old with
  | none => simp [dataCode, ho, hr]
  | some p =>
    obtain ⟨c0, st⟩ := p
    rcases Nat.lt_or_ge s.lz.avail Config.tableSlots with h | h
    · right; refine ⟨c0, st, rfl, .inr ⟨h, ?_⟩⟩
      simp [dataCode, ho, hr, append, Nat.not_le.2 h]
    · right; refine ⟨c0, st, rfl, .inl ⟨h, ?_⟩⟩
      simp [dataCode, ho, hr, append, h]

@[simp] theorem dataCode_of_fresh {c : Nat} {s : State} (ho : s.lz.oldCode = none) :
    dataCode c s = .fault .misplaced := by simp [dataCode, ho]

/-! ### Output: `emit` writes `target` and `outPos` only -/

theorem emit_frame (v : Nat) (lz : LzRegs) :
    emit v lz = { lz with target := (emit v lz).target, outPos := lz.outPos + 1 } := by
  unfold emit; dsimp only; split <;> rfl

theorem emit_target (v : Nat) (lz : LzRegs) :
    (emit v lz).target =
      if lz.width = 0 ∨ lz.height = 0 ∨ lz.outPos ≥ lz.width * lz.height then lz.target
      else Elements.write lz.target (outputElement lz lz.outPos) v := by
  unfold emit; dsimp only; split <;> rfl

theorem foldl_emit_frame (l : List Nat) (lz : LzRegs) :
    l.foldl (fun z v => emit v z) lz =
      { lz with target := (l.foldl (fun z v => emit v z) lz).target, outPos := lz.outPos + l.length } := by
  induction l generalizing lz with
  | nil => rfl
  | cons v l ih =>
    rw [List.foldl_cons, ih, emit_frame v lz]
    simp only [List.length_cons]
    rw [show lz.outPos + 1 + l.length = lz.outPos + (l.length + 1) by omega]

/-- Emptying the stack writes the target, the count of characters and the stack. -/
theorem emitStack_frame (lz : LzRegs) :
    emitStack lz =
      { lz with target := (emitStack lz).target, outPos := lz.outPos + lz.stack.length, stack := [] } := by
  unfold emitStack
  rw [foldl_emit_frame]

theorem emit_target_wf {lz : LzRegs} (h : Elements.wf lz.target = true) (v : Nat) :
    Elements.wf (emit v lz).target = true := by
  rw [emit_target]; split
  · exact h
  · exact cellWrite_wf h

theorem foldl_emit_target_wf {lz : LzRegs} (h : Elements.wf lz.target = true) (l : List Nat) :
    Elements.wf (l.foldl (fun z v => emit v z) lz).target = true := by
  induction l generalizing lz with
  | nil => exact h
  | cons v l ih => exact ih (emit_target_wf h v)

theorem emitStack_target_wf {lz : LzRegs} (h : Elements.wf lz.target = true) :
    Elements.wf (emitStack lz).target = true := foldl_emit_target_wf (lz := { lz with stack := [] }) h _

/-! ### Growth and chains -/

theorem growCodeSize_frame (lz : LzRegs) : growCodeSize lz = { lz with codeSize := (growCodeSize lz).codeSize } := by
  unfold growCodeSize; split <;> rfl

theorem growCodeSize_codeSize (lz : LzRegs) :
    (growCodeSize lz).codeSize =
      if lz.avail ≥ 1 <<< lz.codeSize ∧ lz.codeSize < Config.maxCodeBits then lz.codeSize + 1 else lz.codeSize := by
  unfold growCodeSize; split <;> rfl

theorem endChain_cases (owner : ChainOwner) (s : State) :
    (owner = .extension ∧ endChain owner s = goTo .boundary s) ∨
    (∃ g op, owner = .graphicsControl g op ∧
      endChain owner s = goTo .boundary { s with pendingGC := some g, pendingOpcode := op }) ∨
    (owner = .imageData ∧ endChain owner s = completeImage s) := by
  cases owner <;> simp [endChain]

/-! ### The compositor -/

theorem disposeBy_eq_next {m : Frame → Memory} {s u : State} :
    disposeBy m s = .next u ↔
      s.site = .dispose ∧ ∃ p, priorFrame s = some p ∧ u = goTo .blit (withCanvas (m p) s) := by
  unfold disposeBy
  by_cases hs : s.site = .dispose
  · cases h : priorFrame s <;> simp [hs, eq_comm]
  · simp [hs]

theorem nextFrame_cases (s : State) :
    (s.fc.i + 1 < s.frames.length ∧ nextFrame s = goTo .dispose { s with fc := { s.fc with i := s.fc.i + 1 } }) ∨
    (s.frames.length ≤ s.fc.i + 1 ∧ nextFrame s = succeed s) := by
  unfold nextFrame
  split
  · exact .inl ⟨‹_›, rfl⟩
  · exact .inr ⟨by omega, rfl⟩

theorem beginComposite_cases (s : State) :
    (s.frames = [] ∧ beginComposite s = succeed s) ∨
    (s.frames ≠ [] ∧ beginComposite s = goTo .blit { s with fc := FcRegs.reset }) := by
  unfold beginComposite
  cases s.frames <;> simp

end Sys2Proof.Machine
end

