-- ==== Sys2Proof/Laws/Lzw.lean ====
section
/-! SUPPORT. What resolving a code and appending an entry give (41_lzw_decoder.md R162, R173 to R177). -/

namespace Sys2Proof.Machine

theorem push_of_lt {v : Nat} {st : List Nat} (h : st.length < 4097) : push v st = some (v :: st) :=
  if_neg (Nat.not_le.2 h)

theorem push_of_le {v : Nat} {st : List Nat} (h : 4097 ≤ st.length) : push v st = none := if_pos h

theorem append_of_lt {p c : Nat} {lz : LzRegs} (h : lz.avail < 4096) :
    append p c lz = some (growCodeSize
      { lz with
        prefixTab := Elements.write lz.prefixTab lz.avail p,
        suffixTab := Elements.write lz.suffixTab lz.avail c,
        avail := lz.avail + 1 }) := if_neg (Nat.not_le.2 h)

theorem append_of_le {p c : Nat} {lz : LzRegs} (h : 4096 ≤ lz.avail) : append p c lz = none := if_pos h

theorem Spells.ne_nil {lz : LzRegs} {c : Nat} {l : List Nat} (h : Spells lz c l) : l ≠ [] := by
  cases h <;> simp

/-- The string of a code depends on the roots and the two tables only. -/
theorem Spells.congr {lz lz' : LzRegs} {c : Nat} {l : List Nat} (h : Spells lz c l)
    (hc : lz'.clearCode = lz.clearCode) (hp : lz'.prefixTab = lz.prefixTab) (hs : lz'.suffixTab = lz.suffixTab) :
    Spells lz' c l := by
  induction h with
  | root c h => exact .root c (hc ▸ h)
  | entry c l h _ ih => exact hs ▸ .entry c l (hc ▸ h) (hp ▸ ih)

/-- Walking a code's chain puts its string on the stack, first character on top, or passes the stack bound. -/
theorem walkChain_of_spells {lz : LzRegs} {c : Nat} {l : List Nat} (h : Spells lz c l) {k : Nat} {st : List Nat}
    (hk : 4098 - st.length ≤ k) :
    walkChain lz k c st = if st.length + l.length ≤ 4097 then some (l.headD 0, l ++ st) else none := by
  induction h generalizing k st with
  | root c hc =>
    cases k with
    | zero => rw [if_neg (by simp; omega)]; rfl
    | succ k =>
      simp only [walkChain, if_pos hc, List.length_singleton]
      rcases Nat.lt_or_ge st.length 4097 with h | h
      · rw [push_of_lt h, if_pos (by omega)]; rfl
      · rw [push_of_le h, if_neg (by omega)]; rfl
  | entry c l hc hp ih =>
    cases k with
    | zero => rw [if_neg (by simp; omega)]; rfl
    | succ k =>
      simp only [walkChain, if_neg (Nat.not_lt.2 hc), List.length_append, List.length_singleton]
      rcases Nat.lt_or_ge st.length 4097 with h | h
      · rw [push_of_lt h]
        dsimp only
        rw [ih (by simp; omega)]
        obtain ⟨a, l', rfl⟩ := List.exists_cons_of_ne_nil hp.ne_nil
        simp only [List.length_cons, Nat.add_assoc, Nat.add_comm 1]
        simp
      · rw [push_of_le h, if_neg (by omega)]

/-- Resolving a code other than `avail` (R173). -/
theorem resolveCode_of_spells {lz : LzRegs} {c old : Nat} {l : List Nat} (hst : lz.stack = []) (hne : c ≠ lz.avail)
    (h : Spells lz c l) : resolveCode lz c old = if l.length ≤ 4097 then some (l.headD 0, l) else none := by
  have := walkChain_of_spells h (k := Config.stackLimit + 1) (st := []) (by decide)
  simpa [resolveCode, hne, hst] using this

/-- Resolving the code `avail` (R174). -/
theorem resolveCode_avail {lz : LzRegs} {old : Nat} {l : List Nat} (hst : lz.stack = []) (h : Spells lz old l) :
    resolveCode lz lz.avail old =
      if l.length + 1 ≤ 4097 then some (l.headD 0, l ++ [lz.firstChar]) else none := by
  have := walkChain_of_spells h (k := Config.stackLimit + 1) (st := [lz.firstChar])
    (by simp [Config.stackLimit])
  simp only [List.length_singleton, Nat.add_comm 1] at this
  simp only [resolveCode, if_pos, hst, push_of_lt (v := lz.firstChar) (st := []) (by simp), this]

end Sys2Proof.Machine
end

