-- ==== Sys2Proof/Laws/PerInstr.lean ====
section
/-! SUPPORT. Per-instruction statements: the length of an instruction's record. -/

namespace Sys2Proof.Laws

/-- The bytes of the records that 30_encoding.md R108 counts: 6 and 7 bytes for the header and the screen descriptor, three
bytes a palette entry, 2 bytes for an extension and 5 more for a graphics control's body, 1 and 9 for an image, 1 for a
length byte, a `minCodeSize`, an introducer or a packed byte; a code fills whole bytes alone; the rest have no bytes. -/
def recordLength (c : CodeCtx) : Instr → Nat
  | .sig87 => 6
  | .sig89 => 6
  | .sigBad _ _ _ _ _ _ => 6
  | .lsd _ _ _ _ _ _ _ => 7
  | .palGlobal n _ => 3 * 2 ^ (n.toNat + 1)
  | .nextBlock _ => 1
  | .eofAtBoundary => 0
  | .extension _ => 2
  | .gce _ _ _ _ _ _ _ => 7
  | .extOther _ => 2
  | .sub _ => 1
  | .subTerm => 1
  | .img _ _ _ _ _ _ _ _ => 10
  | .palLocal n _ => 3 * 2 ^ (n.toNat + 1)
  | .lzwMin _ => 1
  | .trailer => 1
  | .blockInvalid _ => 1
  | .codeClear => (c.codeSize + 7) / 8
  | .codeEnd => (c.codeSize + 7) / 8
  | .codeFreshLiteral _ => (c.codeSize + 7) / 8
  | .codeFreshInvalid _ => (c.codeSize + 7) / 8
  | .codeLiteral _ => (c.codeSize + 7) / 8
  | .codeTable _ => (c.codeSize + 7) / 8
  | .codeKwkwk => (c.codeSize + 7) / 8
  | .codeOutOfRange _ => (c.codeSize + 7) / 8
  | .dataEnd => 0
  | .dispose0 => 1
  | .dispose1 => 1
  | .dispose2 => 1
  | .dispose3 => 1
  | .dispose4 => 1
  | .dispose5 => 1
  | .dispose6 => 1
  | .dispose7 => 1
  | .blit => 0
  | .snapshot => 0
  | .store => 0

theorem leBytes_length (k v : Nat) : (leBytes k v).length = k := by
  induction k generalizing v with
  | zero => rfl
  | succ k ih => exact congrArg (· + 1) (ih (v / 256))

theorem tripleBytes_length (rgb : List Rgb) : (tripleBytes rgb).length = 3 * rgb.length := by
  induction rgb with
  | nil => rfl
  | cons c cs ih => simp only [tripleBytes, List.length_cons, ih]; omega

/-- A well-formed instruction's encoding has its record's length, whatever the code context. -/
def RecordLength.Statement (i : Instr) : Prop :=
  ∀ c : CodeCtx, i.wellFormed = true → (encode c i).length = recordLength c i

theorem RecordLength.sig87 : RecordLength.Statement .sig87 := fun _ _ => rfl

theorem RecordLength.sig89 : RecordLength.Statement .sig89 := fun _ _ => rfl

theorem RecordLength.sigBad (b0 b1 b2 b3 b4 b5 : Byte) : RecordLength.Statement (.sigBad b0 b1 b2 b3 b4 b5) :=
  fun _ _ => rfl

theorem RecordLength.lsd (w h : Half) (g : Bool) (ignored : BitVec 4) (n : BitVec 3) (bg aspect : Byte) :
    RecordLength.Statement (.lsd w h g ignored n bg aspect) := fun _ _ => rfl

theorem RecordLength.palGlobal (n : BitVec 3) (rgb : List Rgb) : RecordLength.Statement (.palGlobal n rgb) := fun _ h => by
  rw [encode, tripleBytes_length, eq_of_beq h, recordLength]

theorem RecordLength.nextBlock (t : Byte) : RecordLength.Statement (.nextBlock t) := fun _ _ => rfl

theorem RecordLength.eofAtBoundary : RecordLength.Statement .eofAtBoundary := fun _ _ => rfl

theorem RecordLength.extension (label : Byte) : RecordLength.Statement (.extension label) := fun _ _ => rfl

theorem RecordLength.gce (size : Byte) (hi d : BitVec 3) (lo t : Bool) (delay : Half) (k : Byte) :
    RecordLength.Statement (.gce size hi d lo t delay k) := fun _ _ => rfl

theorem RecordLength.extOther (label : Byte) : RecordLength.Statement (.extOther label) := fun _ _ => rfl

theorem RecordLength.sub (len : Byte) : RecordLength.Statement (.sub len) := fun _ _ => rfl

theorem RecordLength.subTerm : RecordLength.Statement .subTerm := fun _ _ => rfl

theorem RecordLength.img (x y w h : Half) (l il : Bool) (ignored n : BitVec 3) :
    RecordLength.Statement (.img x y w h l il ignored n) := fun _ _ => rfl

theorem RecordLength.palLocal (n : BitVec 3) (rgb : List Rgb) : RecordLength.Statement (.palLocal n rgb) := fun _ h => by
  rw [encode, tripleBytes_length, eq_of_beq h, recordLength]

theorem RecordLength.lzwMin (m : Byte) : RecordLength.Statement (.lzwMin m) := fun _ _ => rfl

theorem RecordLength.trailer : RecordLength.Statement .trailer := fun _ _ => rfl

theorem RecordLength.blockInvalid (t : Byte) : RecordLength.Statement (.blockInvalid t) := fun _ _ => rfl

theorem RecordLength.codeClear : RecordLength.Statement .codeClear := fun _ _ => leBytes_length _ _

theorem RecordLength.codeEnd : RecordLength.Statement .codeEnd := fun _ _ => leBytes_length _ _

theorem RecordLength.codeFreshLiteral (code : Nat) : RecordLength.Statement (.codeFreshLiteral code) :=
  fun _ _ => leBytes_length _ _

theorem RecordLength.codeFreshInvalid (code : Nat) : RecordLength.Statement (.codeFreshInvalid code) :=
  fun _ _ => leBytes_length _ _

theorem RecordLength.codeLiteral (code : Nat) : RecordLength.Statement (.codeLiteral code) :=
  fun _ _ => leBytes_length _ _

theorem RecordLength.codeTable (code : Nat) : RecordLength.Statement (.codeTable code) :=
  fun _ _ => leBytes_length _ _

theorem RecordLength.codeKwkwk : RecordLength.Statement .codeKwkwk := fun _ _ => leBytes_length _ _

theorem RecordLength.codeOutOfRange (code : Nat) : RecordLength.Statement (.codeOutOfRange code) :=
  fun _ _ => leBytes_length _ _

theorem RecordLength.dataEnd : RecordLength.Statement .dataEnd := fun _ _ => rfl

theorem RecordLength.dispose0 : RecordLength.Statement .dispose0 := fun _ _ => rfl

theorem RecordLength.dispose1 : RecordLength.Statement .dispose1 := fun _ _ => rfl

theorem RecordLength.dispose2 : RecordLength.Statement .dispose2 := fun _ _ => rfl

theorem RecordLength.dispose3 : RecordLength.Statement .dispose3 := fun _ _ => rfl

theorem RecordLength.dispose4 : RecordLength.Statement .dispose4 := fun _ _ => rfl

theorem RecordLength.dispose5 : RecordLength.Statement .dispose5 := fun _ _ => rfl

theorem RecordLength.dispose6 : RecordLength.Statement .dispose6 := fun _ _ => rfl

theorem RecordLength.dispose7 : RecordLength.Statement .dispose7 := fun _ _ => rfl

theorem RecordLength.blit : RecordLength.Statement .blit := fun _ _ => rfl

theorem RecordLength.snapshot : RecordLength.Statement .snapshot := fun _ _ => rfl

theorem RecordLength.store : RecordLength.Statement .store := fun _ _ => rfl

end Sys2Proof.Laws
end

