-- ==== Sys2Proof/Laws/Step.lean ====
section
/-! SUPPORT. What a step can do, place by place: the instruction the fetch finds there, and the meaning the step runs. -/

namespace Sys2Proof.Machine

@[simp] theorem window_length (s : State) (n : Nat) : (window s n).length = n := by simp [window]

theorem window_one (s : State) : window s 1 = [bufByte s s.cursor] := by simp [window]

/-- Enough bytes hold the triples of a palette. -/
theorem readTriples_isSome {k : Nat} {bs : List Byte} (h : 3 * k ≤ bs.length) :
    ∃ rgb, readTriples k bs = some rgb ∧ rgb.length = k := by
  induction k generalizing bs with
  | zero => exact ⟨[], rfl, rfl⟩
  | succ k ih =>
    match bs, h with
    | r :: g :: b :: rest, h =>
      obtain ⟨rgb, hr, hl⟩ := ih (bs := rest) (by simp only [List.length_cons] at h; omega)
      exact ⟨⟨r, g, b⟩ :: rgb, by simp [readTriples, hr], by simp [hl]⟩
    | [], h => simp at h
    | [_], h => simp at h; omega
    | [_, _], h => simp at h; omega

/-- Outside image data the step runs the record at the place. -/
theorem step_of_record {s : State} {f : Format} {bs : List Byte} {i : Instr} (h : recordAt s = some (f, bs))
    (hd : decode f bs = .ok i) : step s = exec i s := by
  have hs : s.site ≠ .imageData := by
    intro hs; simp [recordAt, hs] at h
  simp [step, fetch, hs, h, hd]

theorem step_at_header {s : State} (h : s.site = .header) :
    step s = execSig87 s ∨ step s = execSig89 s ∨ step s = execSigBad s := by
  have hr : recordAt s = some (.header, window s 6) := by simp [recordAt, h]
  match hw : window s 6, window_length s 6 with
  | [b0, b1, b2, b3, b4, b5], _ =>
    rw [hw] at hr
    by_cases h7 : [b0, b1, b2, b3, b4, b5] = [0x47, 0x49, 0x46, 0x38, 0x37, 0x61]
    · exact .inl (step_of_record hr (i := .sig87) (by simp only [decode, decodeHeader]; rw [if_pos h7]))
    · by_cases h9 : [b0, b1, b2, b3, b4, b5] = [0x47, 0x49, 0x46, 0x38, 0x39, 0x61]
      · exact .inr (.inl (step_of_record hr (i := .sig89)
          (by simp only [decode, decodeHeader]; rw [if_neg h7, if_pos h9])))
      · exact .inr (.inr (step_of_record hr (i := .sigBad b0 b1 b2 b3 b4 b5)
          (by simp only [decode, decodeHeader]; rw [if_neg h7, if_neg h9])))

theorem step_at_screen {s : State} (h : s.site = .screen) :
    ∃ w hh g n bg aspect, step s = execLsd w hh g n bg aspect s := by
  have hr : recordAt s = some (.screen, window s 7) := by simp [recordAt, h]
  match hw : window s 7, window_length s 7 with
  | [w0, w1, h0, h1, p, bg, aspect], _ =>
    rw [hw] at hr
    exact ⟨_, _, _, _, _, _, step_of_record hr rfl⟩

theorem step_at_globalPalette {s : State} {n : BitVec 3} (h : s.site = .globalPalette n) :
    ∃ rgb : List Rgb, rgb.length = paletteEntries n ∧ step s = execPalGlobal n rgb s := by
  have hr : recordAt s = some (.globalPalette n, window s (3 * paletteEntries n)) := by simp [recordAt, h]
  obtain ⟨rgb, hrgb, hl⟩ := readTriples_isSome (k := paletteEntries n) (bs := window s (3 * paletteEntries n)) (by simp)
  exact ⟨rgb, hl, step_of_record hr (i := .palGlobal n rgb) (by simp [decode, decodePalette, hrgb])⟩

theorem step_at_boundary {s : State} (h : s.site = .boundary) :
    (s.bufLen ≤ s.cursor ∧ step s = execEofAtBoundary s) ∨
    (s.cursor < s.bufLen ∧ step s = execNextBlock (bufByte s s.cursor) s) := by
  by_cases hc : s.bufLen ≤ s.cursor
  · exact .inl ⟨hc, step_of_record (f := .boundary) (bs := []) (by simp [recordAt, h, hc]) rfl⟩
  · refine .inr ⟨by omega, step_of_record (f := .boundary) (bs := [bufByte s s.cursor]) ?_ rfl⟩
    simp [recordAt, h, hc, window_one]

theorem step_at_introducer {s : State} {t : Byte} (h : s.site = .introducer t) :
    (t = 0x21 ∧ step s = execExtension (bufByte s s.cursor) s) ∨
    (t = 0x2C ∧ ∃ x y w hh l il n, step s = execImg x y w hh l il n s) ∨
    (t = 0x3B ∧ step s = execTrailer s) ∨
    (t ≠ 0x21 ∧ t ≠ 0x2C ∧ t ≠ 0x3B ∧ step s = execBlockInvalid t s) := by
  have hr : recordAt s = some (.introducer, t :: window s 9) := by simp [recordAt, h]
  have hw0 : window s 9 = bufByte s s.cursor :: (window s 9).tail := by simp [window]; rfl
  by_cases h21 : t = 0x21
  · left
    refine ⟨h21, step_of_record hr (i := .extension (bufByte s s.cursor)) ?_⟩
    rw [hw0]; simp [decode, decodeIntroducer, h21]
  · by_cases h2C : t = 0x2C
    · right; left
      refine ⟨h2C, ?_⟩
      match hw : window s 9, window_length s 9 with
      | [x0, x1, y0, y1, w0, w1, h0, h1, p], _ =>
        rw [hw] at hr
        exact ⟨_, _, _, _, _, _, _, step_of_record hr
          (i := .img (mkHalf x0 x1) (mkHalf y0 y1) (mkHalf w0 w1) (mkHalf h0 h1) (p.getLsbD 7) (p.getLsbD 6)
            (p.extractLsb' 3 3) (p.extractLsb' 0 3)) (by simp [decode, decodeIntroducer, h2C, decodeImage])⟩
    · by_cases h3B : t = 0x3B
      · right; right; left
        exact ⟨h3B, step_of_record hr (i := .trailer) (by simp [decode, decodeIntroducer, h3B])⟩
      · right; right; right
        exact ⟨h21, h2C, h3B, step_of_record hr (i := .blockInvalid t)
          (by simp only [decode, decodeIntroducer]; rw [if_neg h21, if_neg h2C, if_neg h3B])⟩

theorem step_at_extension {s : State} {label : Byte} (h : s.site = .extension label) :
    (label = graphicsControlLabel ∧ ∃ size d t delay k, step s = execGce size d t delay k s) ∨
    (label ≠ graphicsControlLabel ∧ step s = execExtOther label s) := by
  have hr : recordAt s = some (.extension, 0x21 :: label :: window s 5) := by simp [recordAt, h]
  by_cases hl : label = graphicsControlLabel
  · left
    refine ⟨hl, ?_⟩
    match hw : window s 5, window_length s 5 with
    | [size, p, d0, d1, k], _ =>
      rw [hw] at hr
      exact ⟨_, _, _, _, _, step_of_record hr
        (i := .gce size (p.extractLsb' 5 3) (p.extractLsb' 2 3) (p.getLsbD 1) (p.getLsbD 0) (mkHalf d0 d1) k)
        (by simp [decode, decodeExtension, hl, decodeGraphicsControl])⟩
  · exact .inr ⟨hl, step_of_record hr (i := .extOther label) (by simp [decode, decodeExtension, hl])⟩

theorem step_at_chain {s : State} {owner : ChainOwner} (h : s.site = .chain owner) :
    (bufByte s s.cursor = 0 ∧ step s = execSubTerm s) ∨
    (bufByte s s.cursor ≠ 0 ∧ step s = execSub (bufByte s s.cursor) s) := by
  have hr : recordAt s = some (.subBlock, [bufByte s s.cursor]) := by simp [recordAt, h, window_one]
  by_cases h0 : bufByte s s.cursor = 0
  · exact .inl ⟨h0, step_of_record hr (i := .subTerm) (by simp [decode, decodeSubBlock, h0])⟩
  · exact .inr ⟨h0, step_of_record hr (i := .sub (bufByte s s.cursor))
      (by simp only [decode, decodeSubBlock]; rw [if_neg h0])⟩

theorem step_at_localPalette {s : State} {n : BitVec 3} (h : s.site = .localPalette n) :
    ∃ rgb : List Rgb, rgb.length = paletteEntries n ∧ step s = execPalLocal n rgb s := by
  have hr : recordAt s = some (.localPalette n, window s (3 * paletteEntries n)) := by simp [recordAt, h]
  obtain ⟨rgb, hrgb, hl⟩ := readTriples_isSome (k := paletteEntries n) (bs := window s (3 * paletteEntries n)) (by simp)
  exact ⟨rgb, hl, step_of_record hr (i := .palLocal n rgb) (by simp [decode, decodePalette, hrgb])⟩

theorem step_at_minCodeSize {s : State} (h : s.site = .minCodeSize) :
    step s = execLzwMin (bufByte s s.cursor) s :=
  step_of_record (f := .minCodeSize) (bs := [bufByte s s.cursor]) (by simp [recordAt, h, window_one]) rfl

theorem step_at_imageData {s : State} (h : s.site = .imageData) :
    (∃ v s1, readCode s = .code v s1 ∧ step s = exec (classify (codeCtx s) v) s) ∨
    (∃ s1, readCode s = .dataEnd s1 ∧ step s = execDataEnd s) ∨
    (∃ s1, readCode s = .truncated s1 ∧ step s = .next (raise .truncatedStream .lzwData s1)) ∨
    (readCode s = .outside ∧ step s = .fault .outsideBuffer) := by
  cases hr : readCode s <;> simp [step, fetch, fetchCode, h, hr, exec]

/-- The classes of a code, each with the condition R104 gives it. -/
theorem classify_cases (c : CodeCtx) (v : Nat) :
    (v = c.clearCode ∧ classify c v = .codeClear) ∨
    (v ≠ c.clearCode ∧ v = c.endCode ∧ classify c v = .codeEnd) ∨
    (v ≠ c.clearCode ∧ v ≠ c.endCode ∧ c.fresh = true ∧
      ((v < c.clearCode ∧ classify c v = .codeFreshLiteral v) ∨
        (c.clearCode ≤ v ∧ classify c v = .codeFreshInvalid v))) ∨
    (v ≠ c.clearCode ∧ v ≠ c.endCode ∧ c.fresh = false ∧
      ((v < c.clearCode ∧ classify c v = .codeLiteral v) ∨
        (c.clearCode ≤ v ∧ v < c.avail ∧ classify c v = .codeTable v) ∨
        (c.clearCode ≤ v ∧ v = c.avail ∧ classify c v = .codeKwkwk) ∨
        (c.clearCode ≤ v ∧ c.avail < v ∧ classify c v = .codeOutOfRange v))) := by
  by_cases h1 : v = c.clearCode
  · simp [classify, h1]
  by_cases h2 : v = c.endCode
  · right; left
    exact ⟨h1, h2, by rw [classify, if_neg h1, if_pos h2]⟩
  cases hf : c.fresh
  · right; right; right
    refine ⟨h1, h2, rfl, ?_⟩
    by_cases h3 : v < c.clearCode
    · exact .inl ⟨h3, by simp [classify, h1, h2, hf, h3]⟩
    · rcases Nat.lt_trichotomy v c.avail with h | h | h
      · exact .inr (.inl ⟨by omega, h, by simp [classify, h1, h2, hf, h3, h]⟩)
      · exact .inr (.inr (.inl ⟨by omega, h, by
          rw [classify, if_neg h1, if_neg h2, hf, if_neg (by simp), if_neg h3, if_neg (by omega), if_pos h]⟩))
      · exact .inr (.inr (.inr ⟨by omega, h, by
          rw [classify, if_neg h1, if_neg h2, hf, if_neg (by simp), if_neg h3, if_neg (by omega), if_neg (by omega)]⟩))
  · right; right; left
    refine ⟨h1, h2, rfl, ?_⟩
    by_cases h3 : v < c.clearCode
    · exact .inl ⟨h3, by simp [classify, h1, h2, hf, h3]⟩
    · exact .inr ⟨by omega, by simp [classify, h1, h2, hf, h3]⟩

theorem step_at_dispose {s : State} (h : s.site = .dispose) :
    step s = disposeNone s ∨ step s = disposeBackground s ∨ step s = disposePrevious s := by
  have hr : recordAt s = some (.disposal, [disposalByte (priorOpcode s)]) := by simp [recordAt, h]
  have hstep : step s = exec (disposeInstr ((disposalByte (priorOpcode s)).extractLsb' 2 3)) s :=
    step_of_record hr rfl
  rw [hstep]
  generalize (disposalByte (priorOpcode s)).extractLsb' 2 3 = c
  unfold disposeInstr
  split
  all_goals first
    | exact .inl rfl
    | exact .inr (.inl rfl)
    | exact .inr (.inr rfl)

theorem step_at_blit {s : State} (h : s.site = .blit) : step s = execBlit s :=
  step_of_record (f := .blit) (bs := []) (by simp [recordAt, h]) rfl

theorem step_at_snapshot {s : State} (h : s.site = .snapshot) : step s = execSnapshot s :=
  step_of_record (f := .snapshot) (bs := []) (by simp [recordAt, h]) rfl

theorem step_at_store {s : State} (h : s.site = .store) : step s = execStore s :=
  step_of_record (f := .store) (bs := []) (by simp [recordAt, h]) rfl

theorem step_at_ended {s : State} (h : s.site = .ended) : step s = .next s := by
  simp [step, fetch, recordAt, h]

end Sys2Proof.Machine
end

