-- ==== Sys2Proof/Tests/Slice0.lean ====
section
/-! SUPPORT. The model's own tests: the well-formedness checks, every constructor's decoding by a word written out from
30_encoding.md, one step of every instruction with its result from the spec's examples and vectors (95_test_vectors.md),
and, for every statement with hypotheses, states and operands that meet them. -/

namespace Sys2Proof.Tests

open Sys2Proof Sys2Proof.Machine

/-! ### Well-formedness: each check refuses an ill-formed term and admits the nearest well-formed one -/

theorem test_wf_sigBad_refuses_gif87a : (Instr.sigBad 0x47 0x49 0x46 0x38 0x37 0x61).wellFormed = false := by decide

theorem test_wf_sigBad_refuses_gif89a : (Instr.sigBad 0x47 0x49 0x46 0x38 0x39 0x61).wellFormed = false := by decide

theorem test_wf_sigBad_admits_gif88a : (Instr.sigBad 0x47 0x49 0x46 0x38 0x38 0x61).wellFormed = true := by decide

theorem test_wf_palette_counts :
    (Instr.palGlobal 0 [⟨1, 2, 3⟩]).wellFormed = false ∧ (Instr.palLocal 1 [⟨1, 2, 3⟩, ⟨4, 5, 6⟩]).wellFormed = false ∧
    (Instr.palGlobal 0 [⟨1, 2, 3⟩, ⟨4, 5, 6⟩]).wellFormed = true := by decide

theorem test_wf_extOther_refuses_gce_label :
    (Instr.extOther 0xF9).wellFormed = false ∧ (Instr.extOther 0xFE).wellFormed = true := by decide

theorem test_wf_sub_refuses_zero : (Instr.sub 0).wellFormed = false ∧ (Instr.sub 255).wellFormed = true := by decide

theorem test_wf_blockInvalid_refuses_introducers :
    (Instr.blockInvalid 0x21).wellFormed = false ∧ (Instr.blockInvalid 0x2C).wellFormed = false ∧
    (Instr.blockInvalid 0x3B).wellFormed = false ∧ (Instr.blockInvalid 0).wellFormed = true := by decide

theorem test_wf_codes_are_bounded :
    (Instr.codeLiteral 8192).wellFormed = false ∧ (Instr.codeTable 8192).wellFormed = false ∧
    (Instr.codeFreshLiteral 8192).wellFormed = false ∧ (Instr.codeFreshInvalid 8192).wellFormed = false ∧
    (Instr.codeOutOfRange 8192).wellFormed = false ∧ (Instr.codeOutOfRange 8191).wellFormed = true := by decide

/-! ### Decoding: words written out bit by bit from 30_encoding.md -/

/-- R91: "GIF87a", "GIF89a", and CP-E2's "GIF88a". -/
theorem test_decode_header :
    decode .header [0x47, 0x49, 0x46, 0x38, 0x37, 0x61] = .ok .sig87 ∧
    decode .header [0x47, 0x49, 0x46, 0x38, 0x39, 0x61] = .ok .sig89 ∧
    decode .header [0x47, 0x49, 0x46, 0x38, 0x38, 0x61] = .ok (.sigBad 0x47 0x49 0x46 0x38 0x38 0x61) ∧
    decode .header [0x47, 0x49, 0x46, 0x38, 0x39] = .error .tooShort := by decide

/-- R92, R93: width 0x0201, height 3; packed 0x97 = 1 0010 111. -/
theorem test_decode_lsd :
    decode .screen [0x01, 0x02, 0x03, 0x00, 0x97, 0x05, 0x31] = .ok (.lsd 0x0201 3 true 2 7 5 0x31) := by decide

/-- CP-V11: packed 0x7F has bit 7 clear. -/
theorem test_decode_lsd_without_palette :
    decode .screen [0, 0, 0, 0, 0x7F, 0, 0] = .ok (.lsd 0 0 false 15 7 0 0) := by decide

/-- R94: PAL2 of 95_test_vectors.md, for depth field 0. -/
theorem test_decode_palettes :
    decode (.globalPalette 0) [0xFF, 0, 0, 0, 0, 0xFF] = .ok (.palGlobal 0 [⟨0xFF, 0, 0⟩, ⟨0, 0, 0xFF⟩]) ∧
    decode (.localPalette 0) [1, 2, 3, 4, 5, 6] = .ok (.palLocal 0 [⟨1, 2, 3⟩, ⟨4, 5, 6⟩]) ∧
    decode (.localPalette 0) [1, 2, 3, 4, 5] = .error .tooShort := by decide

/-- R95: the byte at a boundary, or none. -/
theorem test_decode_boundary :
    decode .boundary [0x2C, 9] = .ok (.nextBlock 0x2C) ∧ decode .boundary [] = .ok .eofAtBoundary := by decide

/-- R95, R96: the introducers; any other byte is invalid. -/
theorem test_decode_introducers :
    decode .introducer [0x21, 0xF9] = .ok (.extension 0xF9) ∧ decode .introducer [0x3B] = .ok .trailer ∧
    decode .introducer [0x00] = .ok (.blockInvalid 0) ∧ decode .introducer [0x2D] = .ok (.blockInvalid 0x2D) := by
  decide

/-- R100, R101: packed 0x62 = 0 1 100 010. -/
theorem test_decode_img :
    decode .introducer [0x2C, 1, 0, 2, 0, 3, 0, 4, 1, 0x62] = .ok (.img 1 2 3 0x0104 false true 4 2) := by decide

/-- R97, R98: the example of R129, packed 0x09 = 000 010 0 1; and 0xFE = 111 111 1 0. -/
theorem test_decode_gce :
    decode .extension [0x21, 0xF9, 0x04, 0x09, 0x0A, 0x00, 0x00] = .ok (.gce 4 0 2 false true 10 0) ∧
    decode .extension [0x21, 0xF9, 0x05, 0xFE, 0x00, 0x01, 0x07] = .ok (.gce 5 7 7 true false 0x0100 7) := by decide

theorem test_decode_extOther :
    decode .extension [0x21, 0xFE, 1, 2, 3, 4, 5] = .ok (.extOther 0xFE) ∧
    decode .extension [0x2C, 0xFE] = .error .wrongIntroducer := by decide

theorem test_decode_subBlock :
    decode .subBlock [0x03] = .ok (.sub 3) ∧ decode .subBlock [0x00] = .ok .subTerm := by decide

theorem test_decode_minCodeSize : decode .minCodeSize [0x08] = .ok (.lzwMin 8) := by decide

/-- R103, R104: `m = 2`, `avail = 7`, width 3, an old code present; the codes 4, 5, 3, 6, 7 in the low bits. -/
theorem test_decode_codes :
    decode (.code ⟨4, 5, 7, 3, false⟩) [0x4C] = .ok .codeClear ∧
    decode (.code ⟨4, 5, 7, 3, false⟩) [0x05] = .ok .codeEnd ∧
    decode (.code ⟨4, 5, 7, 3, false⟩) [0x5B] = .ok (.codeLiteral 3) ∧
    decode (.code ⟨4, 5, 7, 3, false⟩) [0xFE] = .ok (.codeTable 6) ∧
    decode (.code ⟨4, 5, 7, 3, false⟩) [0x07] = .ok .codeKwkwk ∧
    decode (.code ⟨4, 5, 6, 3, false⟩) [0x07] = .ok (.codeOutOfRange 7) := by decide

/-- R104 with no old code; LZ-V8's first code 4096 of 13 bits in the bytes 00 B0; the end of the data. -/
theorem test_decode_fresh_codes :
    decode (.code ⟨4, 5, 6, 3, true⟩) [0x01] = .ok (.codeFreshLiteral 1) ∧
    decode (.code ⟨4, 5, 6, 3, true⟩) [0x06] = .ok (.codeFreshInvalid 6) ∧
    decode (.code ⟨4096, 4097, 4098, 13, true⟩) [0x00, 0xB0] = .ok .codeClear ∧
    decode (.code ⟨4, 5, 6, 3, true⟩) [] = .ok .dataEnd := by decide

/-- R98, R106: the code in bits 4:2; CP-V10's 0x1C and 0x0C. -/
theorem test_decode_disposals :
    decode .disposal [0x00] = .ok .dispose0 ∧ decode .disposal [0x04] = .ok .dispose1 ∧
    decode .disposal [0x08] = .ok .dispose2 ∧ decode .disposal [0x0C] = .ok .dispose3 ∧
    decode .disposal [0x10] = .ok .dispose4 ∧ decode .disposal [0x14] = .ok .dispose5 ∧
    decode .disposal [0x18] = .ok .dispose6 ∧ decode .disposal [0x1C] = .ok .dispose7 ∧
    decode .disposal [0xE3] = .ok .dispose0 := by decide

theorem test_decode_compositor_steps :
    decode .blit [] = .ok .blit ∧ decode .snapshot [] = .ok .snapshot ∧ decode .store [] = .ok .store := by decide

/-- Words of the opcode table as it numbers them. -/
theorem test_table_words :
    decodeTableWord 48 0x474946383961 = some .sig89 ∧ decodeTableWord 16 0x21F9 = some (.gce 0 0 0 false false 0 0) ∧
    decodeTableWord 8 0x21 = some (.extension 0) ∧ decodeTableWord 8 0x2C = some (.img 0 0 0 0 false false 0 0) ∧
    decodeTableWord 8 0x3B = some .trailer ∧ decodeTableWord 8 0x00 = some .subTerm ∧
    decodeTableWord 8 0x1C = some .dispose7 := by decide

/-! ### One step at a time -/

/-- Reset with a buffer, at a place. -/
def placed (site : Site) (bytes : List Byte) : State :=
  goTo site { State.reset with buf := Memory.writeBytes [] 0 bytes, bufLen := bytes.length }

/-- Whether an outcome is a next state of which a check holds. -/
def andThen (o : Out) (p : State → Bool) : Bool :=
  match o with
  | .next t => p t
  | _ => false

/-- Whether an outcome ends the call with a failure of this kind under this tag. -/
def failsWith (k : ErrorKind) (g : StepTag) (o : Out) : Bool :=
  andThen o fun t => t.result == .failure k g && t.phase == .failed && t.frames == []

/-- The descriptor of an image of `w` by `h` at the origin. -/
def desc (w h : Half) : ImageDescriptor :=
  { x := 0, y := 0, width := w, height := h, localColors := none, interlace := false }

/-- An image's data being read, with the LZ registers just initialised for `m` and then changed. -/
def decoding (m : Nat) (d : ImageDescriptor) (bytes : List Byte) (change : LzRegs → LzRegs) : State :=
  { placed .imageData bytes with desc := d, lz := change (initLzw m d) }

/-- R121's example: `version = 89` and `cursor = 6`. -/
theorem test_sig89 :
    andThen (exec .sig89 (placed .header [0x47, 0x49, 0x46, 0x38, 0x39, 0x61]))
      (fun t => t.version == 89 && t.cursor == 6 && t.site == .screen) = true := by decide

/-- CP-V1's signature. -/
theorem test_sig87 :
    andThen (step (placed .header [0x47, 0x49, 0x46, 0x38, 0x37, 0x61]))
      (fun t => t.version == 87 && t.phase == .screen) = true := by decide

/-- CP-E3 and CP-E1: "gif89a" is malformed; five bytes of a signature are truncated first. -/
theorem test_sigBad :
    failsWith .malformedHeader .header (step (placed .header [0x67, 0x69, 0x66, 0x38, 0x39, 0x61])) = true ∧
    failsWith .truncatedStream .header (step (placed .header [0x47, 0x49, 0x46, 0x38, 0x39])) = true := by decide

/-- HDR1's screen descriptor: 1 by 1 with a global palette of depth 0. -/
theorem test_lsd :
    andThen (step (placed .screen [1, 0, 1, 0, 0x80, 0, 0]))
      (fun t => t.screen.width == 1 && t.screen.height == 1 && t.hasGlobal && t.site == .globalPalette 0) = true := by
  decide

/-- CP-E5: six of seven bytes. -/
theorem test_lsd_truncated :
    failsWith .truncatedStream .screenDescriptor (step (placed .screen [1, 0, 1, 0, 0x80, 0])) = true := by decide

/-- PAL2 = [(255,0,0,255), (0,0,255,255)]. -/
theorem test_palGlobal :
    andThen (step (placed (.globalPalette 0) [0xFF, 0, 0, 0, 0, 0xFF]))
      (fun t => t.screen.globalColors == some [⟨0xFF, 0, 0, 0xFF⟩, ⟨0, 0, 0xFF, 0xFF⟩] && t.cursor == 6) = true := by
  decide

/-- CP-E4: five of six bytes. -/
theorem test_palGlobal_truncated :
    failsWith .truncatedStream .globalPalette (step (placed (.globalPalette 0) [0xFF, 0, 0, 0, 0])) = true := by decide

theorem test_nextBlock :
    andThen (step (placed .boundary [0x2C])) (fun t => t.site == .introducer 0x2C && t.cursor == 1) = true := by decide

/-- CP-E6: the buffer ends at a block boundary. -/
theorem test_eofAtBoundary : failsWith .malformedStream .blockType (step (placed .boundary [])) = true := by decide

/-- R127, and CP-E8. -/
theorem test_extension :
    andThen (step (placed (.introducer 0x21) [0xFE])) (fun t => t.site == .extension 0xFE && t.cursor == 1) = true ∧
    failsWith .truncatedStream .extensionLabel (step (placed (.introducer 0x21) [])) = true := by decide

/-- R129's example: delay 10, transparent, index 0, BACKGROUND. -/
theorem test_gce :
    andThen (step (placed (.extension 0xF9) [0x04, 0x09, 0x0A, 0, 0, 0]))
      (fun t => t.site == .chain (.graphicsControl
        { delay := 10, isTransparent := true, transparencyIndex := 0, disposal := .background } 2)
        && t.cursor == 5 && t.pendingGC == none) = true := by decide

/-- CP-E11 and CP-E10: the size is checked before the body's length. -/
theorem test_gce_order :
    failsWith .malformedBlock .graphicsControl (step (placed (.extension 0xF9) [0x05])) = true ∧
    failsWith .truncatedStream .graphicsControl (step (placed (.extension 0xF9) [0x04, 0, 0])) = true := by decide

theorem test_extOther :
    andThen (step (placed (.extension 0xFE) [3])) (fun t => t.site == .chain .extension && t.cursor == 0) = true := by
  decide

/-- R126's example `03 61 62 63 00`: four bytes, then the terminator; and CP-E13. -/
theorem test_sub :
    andThen (step (placed (.chain .extension) [3, 0x61, 0x62, 0x63, 0]))
      (fun t => t.cursor == 4 && t.site == .chain .extension) = true ∧
    failsWith .truncatedStream .extensionSubblocks (step (placed (.chain .extension) [5, 1, 2])) = true := by decide

/-- R131: the terminator of a graphics control writes the pending slot; CP-E12's tag is GRAPHICS_CONTROL. -/
theorem test_subTerm :
    andThen (step (placed (.chain (.graphicsControl ⟨2, true, 3, .none⟩ 1)) [0]))
      (fun t => t.pendingGC == some ⟨2, true, 3, .none⟩ && t.site == .boundary) = true ∧
    failsWith .truncatedStream .graphicsControl (step (placed (.chain (.graphicsControl ⟨2, true, 3, .none⟩ 1)) []))
      = true := by decide

/-- CP-V14: packed 0xC1 is interlaced with a local palette of depth field 1. -/
theorem test_img :
    andThen (step (placed (.introducer 0x2C) [1, 0, 2, 0, 3, 0, 4, 0, 0xC1]))
      (fun t => t.desc == ⟨1, 2, 3, 4, none, true⟩ && t.hasLocal && t.site == .localPalette 1 && t.phase == .image)
      = true := by decide

/-- CP-E15: six of nine bytes. -/
theorem test_img_truncated :
    failsWith .truncatedStream .imageDescriptor (step (placed (.introducer 0x2C) [0, 0, 0, 0, 1, 0])) = true := by decide

/-- R133, and CP-E16: three of six bytes. -/
theorem test_palLocal :
    andThen (step (placed (.localPalette 0) [1, 2, 3, 4, 5, 6]))
      (fun t => t.desc.localColors == some [⟨1, 2, 3, 0xFF⟩, ⟨4, 5, 6, 0xFF⟩] && t.site == .minCodeSize) = true ∧
    failsWith .truncatedStream .localPalette (step (placed (.localPalette 0) [1, 2, 3])) = true := by decide

/-- R161: `m = 2` gives clear code 4, end code 5, width 3, fill pointer 6. -/
theorem test_lzwMin :
    andThen (step (placed .minCodeSize [2]))
      (fun t => t.lz.clearCode == 4 && t.lz.endCode == 5 && t.lz.codeSize == 3 && t.lz.avail == 6 && t.lz.oldCode == none
        && t.site == .imageData) = true := by decide

/-- CP-E18, CP-E19: 0 and 13 are corrupt. -/
theorem test_lzwMin_range :
    failsWith .corruptLzwStream .lzwMinCodeSize (step (placed .minCodeSize [0])) = true ∧
    failsWith .corruptLzwStream .lzwMinCodeSize (step (placed .minCodeSize [13])) = true := by decide

/-- CP-V1's end: a success with no frame. -/
theorem test_trailer :
    andThen (step (placed (.introducer 0x3B) []))
      (fun t => t.phase == .done && t.result == .success ⟨0, Screen.reset, []⟩) = true := by decide

/-- CP-E7: the introducer 00 is invalid. -/
theorem test_blockInvalid :
    failsWith .malformedStream .blockType (step (placed (.introducer 0) [])) = true := by decide

/-- R168's example: `avail = 7` and an old code; after code 4, `avail = 6`, width 3, no old code. -/
theorem test_codeClear :
    andThen (step (decoding 2 (desc 1 1) [1, 4] (fun z => { z with avail := 7, oldCode := some 1 })))
      (fun t => t.lz.avail == 6 && t.lz.codeSize == 3 && t.lz.oldCode == none && t.lz.accBits == 5) = true := by decide

/-- R169, LZ-V14: code 5 first; the chain is skipped next. -/
theorem test_codeEnd :
    andThen (step (decoding 2 (desc 2 1) [2, 5, 9, 0] id))
      (fun t => t.site == .chain .imageData && t.cursor == 3) = true := by decide

/-- R170's example: code 1 emits index 1 and sets the old code. -/
theorem test_codeFreshLiteral :
    andThen (step (decoding 2 (desc 1 1) [1, 1] id))
      (fun t => Elements.read t.lz.target 0 == 1 && t.lz.oldCode == some 1 && t.lz.firstChar == 1 && t.lz.avail == 6)
      = true := by decide

/-- R171's example, LZ-E1: code 6 right after a clear. -/
theorem test_codeFreshInvalid :
    failsWith .corruptLzwStream .lzwData (step (decoding 2 (desc 1 1) [1, 6] id)) = true := by decide

/-- LZ-V3's code 2: the append makes `avail = 8`, and the width grows to 4. -/
theorem test_codeLiteral :
    andThen (step (decoding 2 (desc 4 1) [1, 2]
        (fun z => { z with avail := 7, oldCode := some 1, firstChar := 1, outPos := 2 })))
      (fun t => t.lz.avail == 8 && t.lz.codeSize == 4 && Elements.read t.lz.target 2 == 2
        && Elements.read t.lz.prefixTab 7 == 1 && Elements.read t.lz.suffixTab 7 == 2) = true := by decide

/-- LZ-V4's code 6 = (1,0): "1 0" in order, and entry 7 = (0,1). -/
theorem test_codeTable :
    andThen (step (decoding 2 (desc 4 1) [1, 6]
        (fun z => { z with
          avail := 7, oldCode := some 0, firstChar := 0, outPos := 2, prefixTab := [(6, 1)] })))
      (fun t => Elements.read t.lz.target 2 == 1 && Elements.read t.lz.target 3 == 0 && t.lz.avail == 8
        && Elements.read t.lz.prefixTab 7 == 0 && Elements.read t.lz.suffixTab 7 == 1 && t.lz.oldCode == some 6)
      = true := by decide

/-- LZ-V2's code 6 = `avail`: "1 1", entry 6 = (1,1). -/
theorem test_codeKwkwk :
    andThen (step (decoding 2 (desc 3 1) [1, 6] (fun z => { z with oldCode := some 1, firstChar := 1, outPos := 1 })))
      (fun t => t.lz.target == [(1, 1), (2, 1)] && t.lz.avail == 7 && Elements.read t.lz.prefixTab 6 == 1
        && Elements.read t.lz.suffixTab 6 == 1 && t.lz.oldCode == some 6) = true := by decide

/-- R186: with `m = 12`, code 4098 after a literal finds no free slot (R177). -/
theorem test_codeKwkwk_full_table :
    failsWith .corruptLzwStream .lzwData (step (decoding 12 (desc 2 1) []
      (fun z => { z with acc := 4098, accBits := 13, oldCode := some 5, firstChar := 5 }))) = true := by decide

/-- R172's example, LZ-E2: code 7 above `avail = 6`. -/
theorem test_codeOutOfRange :
    failsWith .corruptLzwStream .lzwData
      (step (decoding 2 (desc 1 1) [1, 7] (fun z => { z with oldCode := some 1, firstChar := 1 }))) = true := by decide

/-- LZ-V13: an empty chain; the pixels keep 0 and the frame is appended. -/
theorem test_dataEnd :
    andThen (step (decoding 2 (desc 2 1) [0] id))
      (fun t => t.frames == [⟨desc 2 1, none, 2, [], none⟩] && t.cursor == 1 && t.site == .boundary) = true := by decide

/-- R136's example, its first image: the frame takes the pending control, and the slot is empty for the second. -/
theorem test_dataEnd_consumes_the_control :
    andThen (step { decoding 2 (desc 2 1) [0] id with pendingGC := some ⟨2, true, 3, .none⟩, pendingOpcode := 1 })
      (fun t => t.frames == [⟨desc 2 1, some ⟨2, true, 3, .none⟩, 2, [], none⟩] && t.pendingGC == none
        && t.opcodes == [1]) = true := by decide

/-- LZ-E3, LZ-E4: a sub-block past the buffer's end, and a missing length byte. -/
theorem test_truncated_data :
    failsWith .truncatedStream .lzwData (step (decoding 2 (desc 1 1) [5, 0x4C, 1] id)) = true ∧
    failsWith .truncatedStream .lzwData (step (decoding 2 (desc 1 1) [] id)) = true := by decide

/-- LZ-V18's rows for `h = 5`. -/
theorem test_interlace_rows : interlaceRows 5 = [0, 4, 2, 1, 3] := by decide

/-- R240's table. -/
theorem test_error_codes :
    [ErrorKind.truncatedStream, .malformedHeader, .malformedBlock, .malformedStream, .corruptLzwStream,
      .stackOverflow].map errorCode = [1, 2, 3, 4, 5, 6] := by decide

/-! ### The compositor: a screen of 2 by 1, PAL2 -/

/-- PAL2. -/
def pal2 : Palette := [⟨0xFF, 0, 0, 0xFF⟩, ⟨0, 0, 0xFF, 0xFF⟩]

/-- A frame of 1 by 1 at `x`, with index 1, PAL2 as its local palette, and a graphics control. -/
def frameAt (x : Half) (g : Option GraphicsControl) : Frame :=
  { desc := { x := x, y := 0, width := 1, height := 1, localColors := some pal2, interlace := false }, gc := g,
    minCodeSize := 2, indexData := [(0, 1)], rendered := none }

/-- A graphics control with a method. -/
def control (d : Disposal) (t : Bool) : GraphicsControl :=
  { delay := 0, isTransparent := t, transparencyIndex := 1, disposal := d }

/-- The compositor at a place: two frames, the second current, every canvas byte 7. -/
def composing (site : Site) (f g : Frame) (code : BitVec 3) (kept : Option Memory) : State :=
  { placed site [] with
    compositeEnable := true, screen := ⟨2, 1, none, 0, 0⟩, frames := [f, g], opcodes := [code, 0],
    fc := { canvas := Memory.writeBytes [] 0 (List.replicate 8 7), kept := kept, i := 1 } }

/-- R220: the pixel takes PAL2[1]; its neighbour stays. -/
theorem test_blit :
    andThen (step (composing .blit (frameAt 0 none) (frameAt 1 none) 0 none))
      (fun t => pixelRead t.fc.canvas 2 1 0 == ⟨0, 0, 0xFF, 0xFF⟩ && pixelRead t.fc.canvas 2 0 0 == ⟨7, 7, 7, 7⟩
        && t.site == .snapshot) = true := by decide

/-- X5: a transparent source pixel is left untouched. -/
theorem test_blit_transparent :
    andThen (step (composing .blit (frameAt 0 none) (frameAt 1 (some (control .background true))) 0 none))
      (fun t => pixelRead t.fc.canvas 2 1 0 == ⟨7, 7, 7, 7⟩ && t.site == .store) = true := by decide

/-- R214: codes 0, 1 and 4 to 7 carry the canvas forward. -/
theorem test_dispose_none (code : BitVec 3) (h : code ≠ 2 ∧ code ≠ 3) :
    andThen (step (composing .dispose (frameAt 0 (some (control (disposalOfCode code) false))) (frameAt 1 none) code none))
      (fun t => pixelRead t.fc.canvas 2 0 0 == ⟨7, 7, 7, 7⟩ && t.site == .blit) = true := by
  revert h; revert code; decide

/-- R215: the prior frame's pixel is cleared; its neighbour stays. -/
theorem test_dispose_background :
    andThen (step (composing .dispose (frameAt 0 (some (control .background false))) (frameAt 1 none) 2 none))
      (fun t => pixelRead t.fc.canvas 2 0 0 == ⟨0, 0, 0, 0⟩ && pixelRead t.fc.canvas 2 1 0 == ⟨7, 7, 7, 7⟩) = true := by
  decide

/-- R216: the prior frame's pixel comes back from the snapshot; with none it is cleared. -/
theorem test_dispose_previous :
    andThen (step (composing .dispose (frameAt 0 (some (control .previous false))) (frameAt 1 none) 3
        (some (Memory.writeBytes [] 0 (List.replicate 8 9)))))
      (fun t => pixelRead t.fc.canvas 2 0 0 == ⟨9, 9, 9, 9⟩ && pixelRead t.fc.canvas 2 1 0 == ⟨7, 7, 7, 7⟩) = true ∧
    andThen (step (composing .dispose (frameAt 0 (some (control .previous false))) (frameAt 1 none) 3 none))
      (fun t => pixelRead t.fc.canvas 2 0 0 == ⟨0, 0, 0, 0⟩) = true := by decide

/-- R221: kept for UNSPECIFIED, not for PREVIOUS. -/
theorem test_snapshot :
    andThen (step (composing .snapshot (frameAt 0 none) (frameAt 1 none) 0 none))
      (fun t => t.fc.kept == some t.fc.canvas && t.site == .store) = true ∧
    andThen (step (composing .snapshot (frameAt 0 none) (frameAt 1 (some (control .previous false))) 0 none))
      (fun t => t.fc.kept == none) = true := by decide

/-- R222: the last frame's rendered buffer is the canvas, and the call succeeds. -/
theorem test_store :
    andThen (step (composing .store (frameAt 0 none) (frameAt 1 none) 0 none))
      (fun t => t.phase == .done && match t.result with
        | .success im => im.frames.map (fun f => f.rendered) == [none, some (Memory.writeBytes [] 0 (List.replicate 8 7))]
        | _ => false) = true := by decide

/-! ### Table words as the first instruction after reset -/

theorem test_withFetchWord_sig89 : step (State.reset.withFetchWord 48 0x474946383961)
    = exec .sig89 (State.reset.withFetchWord 48 0x474946383961) := by rfl

theorem test_withFetchWord_runs :
    andThen (step (State.reset.withFetchWord 48 0x474946383961)) (fun t => t.version == 89) = true ∧
    failsWith .malformedBlock .graphicsControl (step (State.reset.withFetchWord 16 0x21F9)) = true ∧
    andThen (step (State.reset.withFetchWord 8 0x1C)) (fun t => t.site == .blit) = true ∧
    andThen (step (State.reset.withFetchWord 8 0x3B)) (fun t => t.phase == .done) = true := by decide

/-! ### Witnesses: states and operands that meet the hypotheses of each statement -/

theorem witness_DecodeOfEncode :
    let c : CodeCtx := ⟨4, 5, 7, 3, false⟩
    let fresh : CodeCtx := ⟨4096, 4097, 4098, 13, true⟩
    c.wellFormed = true ∧ (Instr.codeTable 6).wellFormed = true ∧ (Instr.codeTable 6).fits c = true ∧
    Instr.codeKwkwk.fits c = true ∧ (Instr.codeLiteral 3).fits c = true ∧
    (Instr.codeOutOfRange 7).fits ⟨4, 5, 6, 3, false⟩ = true ∧
    fresh.wellFormed = true ∧ (Instr.codeFreshLiteral 4095).fits fresh = true ∧
    (Instr.codeFreshInvalid 8191).wellFormed = true ∧ (Instr.codeFreshInvalid 8191).fits fresh = true := by decide

theorem witness_EncodeOfDecode :
    (∀ c', Format.subBlock ≠ .code c') ∧ Format.subBlock ≠ .disposal ∧ decode .subBlock [3, 9] = .ok (.sub 3) :=
  ⟨fun _ h => Format.noConfusion h, by decide, by decide⟩

theorem witness_CodeClassesFollowTheMap :
    let c : CodeCtx := ⟨4, 5, 6, 3, true⟩
    c.endCode = c.clearCode + 1 ∧ c.endCode < c.avail := by decide

theorem witness_MisplacedInstructionsStop :
    placedAt .trailer (.introducer 0x2C) = false ∧ placedAt .sig89 .header = true ∧
    placedAt .subTerm (.chain .extension) = true ∧ placedAt .codeClear .boundary = false := by decide

/-- The records, the codes, the end of the data, the truncated read, the byte outside the buffer, and the end. -/
theorem witness_StepRunsTheDecodedInstruction :
    (recordAt (placed .minCodeSize [2]) = some (.minCodeSize, [2]) ∧ decode .minCodeSize [2] = .ok (.lzwMin 2)) ∧
    (readCode (decoding 2 (desc 1 1) [1, 0x0C] id)
      = .code 4 { decoding 2 (desc 1 1) [1, 0x0C] id with
          cursor := 2, lz := { initLzw 2 (desc 1 1) with acc := 1, accBits := 5 } }) ∧
    (readCode (decoding 2 (desc 1 1) [0] id)
      = .dataEnd { decoding 2 (desc 1 1) [0] id with
          cursor := 1, lz := { initLzw 2 (desc 1 1) with dataDone := true } }) ∧
    readCode (decoding 2 (desc 1 1) [] id) = .truncated (decoding 2 (desc 1 1) [] id) ∧
    readCode (decoding 2 (desc 1 1) [] (fun z => { z with blockRemaining := 1 })) = .outside ∧
    (raise .malformedHeader .header State.reset).site = .ended := by decide

/-- R90, R111: the record at each place up to the block boundary, with the bytes from the cursor on, a byte beyond the
buffer as 0, and no byte at the end of the buffer. -/
theorem witness_StepRunsTheDecodedInstruction_before_blocks :
    recordAt (placed .header [0x47, 0x49, 0x46, 0x38, 0x39, 0x61, 9])
      = some (.header, [0x47, 0x49, 0x46, 0x38, 0x39, 0x61]) ∧
    recordAt { placed .screen [8, 1, 0, 2, 0, 0x80, 3, 4] with cursor := 1 }
      = some (.screen, [1, 0, 2, 0, 0x80, 3, 4]) ∧
    recordAt (placed (.globalPalette 0) [1, 2, 3, 4, 5]) = some (.globalPalette 0, [1, 2, 3, 4, 5, 0]) ∧
    recordAt { placed .boundary [8, 0x2C] with cursor := 1 } = some (.boundary, [0x2C]) ∧
    recordAt { placed .boundary [8] with cursor := 1 } = some (.boundary, []) := by decide

/-- R90, R111: the record at each place of a block and of the compositor; the introducer and the label stand before the
bytes at the cursor. -/
theorem witness_StepRunsTheDecodedInstruction_in_blocks :
    recordAt { placed (.introducer 0x2C) [0x2C, 1, 0, 2, 0, 3, 0, 4, 0, 0x40] with cursor := 1 }
      = some (.introducer, [0x2C, 1, 0, 2, 0, 3, 0, 4, 0, 0x40]) ∧
    recordAt { placed (.extension 0xF9) [0x21, 0xF9, 4, 9, 10, 0, 7] with cursor := 2 }
      = some (.extension, [0x21, 0xF9, 4, 9, 10, 0, 7]) ∧
    recordAt { placed (.chain .extension) [8, 2, 5, 6] with cursor := 1 } = some (.subBlock, [2]) ∧
    recordAt (placed (.localPalette 0) [1, 2, 3, 4, 5, 6, 7]) = some (.localPalette 0, [1, 2, 3, 4, 5, 6]) ∧
    recordAt { placed .minCodeSize [8, 12] with cursor := 1 } = some (.minCodeSize, [12]) ∧
    recordAt { placed .dispose [] with opcodes := [1, 2], fc := { FcRegs.reset with i := 2 } }
      = some (.disposal, [0x08]) ∧
    (placed .blit []).site = .blit ∧ (placed .snapshot []).site = .snapshot ∧ (placed .store []).site = .store := by
  decide

theorem witness_ResetMeetsTheInvariants : Memory.wf [(0, 0x47), (5, 0x61)] = true := by decide

theorem witness_FailureDiscardsEverything :
    let s := placed .header []
    s.result = .running ∧ step s = .next (raise .truncatedStream .header s) ∧
    (raise .truncatedStream .header s).result = .failure .truncatedStream .header := ⟨rfl, rfl, rfl⟩

/-- Both clauses of each record's length at its boundary: just enough bytes, and one too few. -/
theorem witness_record_lengths :
    (let s := placed .header [1, 2, 3, 4, 5, 6]; s.site = .header ∧ s.cursor + 6 ≤ s.bufLen) ∧
    (let s := placed .header [1, 2, 3, 4, 5]; s.site = .header ∧ s.bufLen < s.cursor + 6) ∧
    (let s := placed .screen [1, 2, 3, 4, 5, 6, 7]; s.site = .screen ∧ s.cursor + 7 ≤ s.bufLen) ∧
    (let s := placed .screen [1, 2, 3, 4, 5, 6]; s.site = .screen ∧ s.bufLen < s.cursor + 7) ∧
    (let s := placed (.introducer 0x2C) [1, 2, 3, 4, 5, 6, 7, 8, 9];
      s.site = .introducer 0x2C ∧ s.cursor + 9 ≤ s.bufLen) ∧
    (let s := placed (.introducer 0x2C) [1, 2, 3, 4, 5, 6, 7, 8];
      s.site = .introducer 0x2C ∧ s.bufLen < s.cursor + 9) := by decide

/-- The three outcomes of the header, each in a state of its own. -/
theorem witness_HeaderStepChecksTheSignature :
    (let s := placed .header [0x47, 0x49, 0x46, 0x38, 0x37, 0x61];
      s.cursor + 6 ≤ s.bufLen ∧ window s 6 = [0x47, 0x49, 0x46, 0x38, 0x37, 0x61]) ∧
    (let s := placed .header [0x47, 0x49, 0x46, 0x38, 0x39, 0x61];
      s.cursor + 6 ≤ s.bufLen ∧ window s 6 = [0x47, 0x49, 0x46, 0x38, 0x39, 0x61]) ∧
    (let s := placed .header [0x47, 0x49, 0x46, 0x38, 0x38, 0x61];
      s.cursor + 6 ≤ s.bufLen ∧ window s 6 ≠ [0x47, 0x49, 0x46, 0x38, 0x37, 0x61] ∧
        window s 6 ≠ [0x47, 0x49, 0x46, 0x38, 0x39, 0x61]) := by decide

theorem witness_PalettesAreRead :
    (let s := placed (.globalPalette 0) [1, 2, 3, 4, 5, 6];
      s.site = .globalPalette 0 ∧ s.cursor + 3 * 2 ^ ((0 : BitVec 3).toNat + 1) ≤ s.bufLen) ∧
    (let s := placed (.globalPalette 7) [1, 2, 3, 4, 5, 6];
      s.site = .globalPalette 7 ∧ s.bufLen < s.cursor + 3 * 2 ^ ((7 : BitVec 3).toNat + 1)) ∧
    (let s := placed (.localPalette 0) [1, 2, 3, 4, 5, 6];
      s.site = .localPalette 0 ∧ s.cursor + 3 * 2 ^ ((0 : BitVec 3).toNat + 1) ≤ s.bufLen) ∧
    (let s := placed (.localPalette 0) [1, 2, 3, 4, 5];
      s.site = .localPalette 0 ∧ s.bufLen < s.cursor + 3 * 2 ^ ((0 : BitVec 3).toNat + 1)) := by decide

theorem witness_NextBlockReadsTheIntroducer :
    (let s := placed .boundary [0]; s.site = .boundary ∧ s.cursor < s.bufLen) ∧
    (let s := placed .boundary []; s.site = .boundary ∧ s.cursor = s.bufLen) := by decide

theorem witness_InvalidIntroducerRaises :
    (placed (.introducer 0) []).site = .introducer 0 ∧ (0 : Byte) ≠ 0x21 ∧ (0 : Byte) ≠ 0x2C ∧ (0 : Byte) ≠ 0x3B := by
  decide

theorem witness_ExtensionReadsTheLabel :
    (let s := placed (.introducer 0x21) [0xFE]; s.site = .introducer 0x21 ∧ s.cursor + 1 ≤ s.bufLen) ∧
    (let s := placed (.introducer 0x21) []; s.site = .introducer 0x21 ∧ s.bufLen < s.cursor + 1) ∧
    (placed (.extension 0xFE) []).site = .extension 0xFE := by decide

/-- The four clauses: no size byte; a size other than 4; a size of 4 with three of its bytes; the whole body. -/
theorem witness_GraphicsControlIsRead :
    (let s := placed (.extension 0xF9) []; s.site = .extension 0xF9 ∧ s.bufLen < s.cursor + 1) ∧
    (let s := placed (.extension 0xF9) [5]; s.site = .extension 0xF9 ∧ s.cursor + 1 ≤ s.bufLen ∧ (5 : Byte) ≠ 4) ∧
    (let s := placed (.extension 0xF9) [4, 0, 0, 0];
      s.site = .extension 0xF9 ∧ s.cursor + 1 ≤ s.bufLen ∧ s.bufLen < s.cursor + 5) ∧
    (let s := placed (.extension 0xF9) [4, 0, 0, 0, 0]; s.site = .extension 0xF9 ∧ s.cursor + 5 ≤ s.bufLen) := by
  decide

/-- The data fits exactly; no length byte; one data byte short. -/
theorem witness_SubBlocksAreSkipped :
    (let s := placed (.chain .imageData) [2, 8, 8];
      s.site = .chain .imageData ∧ s.cursor + 1 + (2 : Byte).toNat ≤ s.bufLen) ∧
    (let s := placed (.chain .extension) []; s.site = .chain .extension ∧ s.bufLen < s.cursor + 1) ∧
    (let s := placed (.chain .extension) [2, 8];
      s.cursor + 1 ≤ s.bufLen ∧ s.bufLen < s.cursor + 1 + (2 : Byte).toNat) := by decide

theorem witness_TerminatorEndsTheChain :
    (let s := placed (.chain .extension) [0]; s.cursor + 1 ≤ s.bufLen ∧ s.site = .chain .extension) ∧
    (let s := placed (.chain (.graphicsControl ⟨0, false, 0, .none⟩ 1)) [0];
      s.cursor + 1 ≤ s.bufLen ∧ s.site = .chain (.graphicsControl ⟨0, false, 0, .none⟩ 1)) ∧
    (let s := placed (.chain .imageData) [0]; s.cursor + 1 ≤ s.bufLen ∧ s.site = .chain .imageData) := by decide

/-- The least and the greatest `minCodeSize`. -/
theorem witness_MinCodeSizeStartsTheDecode :
    let s := placed .minCodeSize [1]
    s.site = .minCodeSize ∧ s.cursor + 1 ≤ s.bufLen ∧ 1 ≤ (1 : Byte).toNat ∧ (12 : Byte).toNat ≤ 12 ∧
    allocated s + indexBytes s.desc ≤ s.maxAllocBytes := by decide

theorem witness_MinCodeSizeTurnedAway :
    (let s := placed .minCodeSize []; s.site = .minCodeSize ∧ s.bufLen < s.cursor + 1) ∧
    (let s := placed .minCodeSize [13]; s.cursor + 1 ≤ s.bufLen ∧ ((0 : Byte).toNat < 1 ∧ 12 < (13 : Byte).toNat)) ∧
    (let s := { placed .minCodeSize [12] with desc := desc 1 1, maxAllocBytes := 1 };
      s.site = .minCodeSize ∧ s.cursor + 1 ≤ s.bufLen ∧ (12 : Byte).toNat ≤ 12 ∧
        s.maxAllocBytes < allocated s + indexBytes s.desc) := by decide

theorem witness_TrailerEndsTheStream :
    (let s := placed (.introducer 0x3B) []; s.site = .introducer 0x3B ∧ s.compositeEnable = false) ∧
    (let s := { placed (.introducer 0x3B) [] with compositeEnable := true };
      s.site = .introducer 0x3B ∧ allocated s + canvasBytes s ≤ s.maxAllocBytes ∧ s.frames = []) ∧
    (let s := { placed (.introducer 0x3B) [] with compositeEnable := true, frames := [frameAt 0 none] };
      allocated s + canvasBytes s ≤ s.maxAllocBytes ∧ s.frames ≠ []) ∧
    (let s := { placed (.introducer 0x3B) [] with
        compositeEnable := true, maxAllocBytes := 0, screen := ⟨1, 1, none, 0, 0⟩ };
      s.maxAllocBytes < allocated s + canvasBytes s) := by decide

/-- A code from the bits already held, and one that pulls two bytes. -/
theorem witness_ReadCodeTakesTheLowBits :
    (let s := decoding 2 (desc 1 1) [] (fun z => { z with acc := 12, accBits := 5 });
      s.lz.acc < 2 ^ s.lz.accBits ∧ 0 ≤ s.lz.blockRemaining ∧ s.cursor + 0 ≤ s.bufLen ∧
        s.lz.codeSize ≤ s.lz.accBits + 8 * 0) ∧
    (let s := decoding 8 (desc 1 1) [1, 2] (fun z => { z with blockRemaining := 2 });
      s.lz.acc < 2 ^ s.lz.accBits ∧ 2 ≤ s.lz.blockRemaining ∧ s.cursor + 2 ≤ s.bufLen ∧
        s.lz.codeSize ≤ s.lz.accBits + 8 * 2 ∧ s.lz.accBits + 8 * (2 - 1) < s.lz.codeSize) := by decide

/-- Data left in the sub-block; no length byte; the terminator; a length past the buffer; a length that just fits. -/
theorem witness_ReadCodeCrossesSubBlocks :
    (let s := decoding 2 (desc 1 1) [9] (fun z => { z with blockRemaining := 1, acc := 3, accBits := 2 });
      s.lz.accBits < s.lz.codeSize ∧ 0 < s.lz.blockRemaining ∧ s.lz.acc < 2 ^ s.lz.accBits ∧
        s.cursor < s.bufLen) ∧
    (let s := decoding 2 (desc 1 1) [] id;
      s.lz.accBits < s.lz.codeSize ∧ s.lz.blockRemaining = 0 ∧ s.bufLen < s.cursor + 1) ∧
    (let s := decoding 2 (desc 1 1) [0] id;
      s.cursor + 1 ≤ s.bufLen ∧ (Memory.read s.buf s.cursor).toNat = 0) ∧
    (let s := decoding 2 (desc 1 1) [2, 9] id;
      (Memory.read s.buf s.cursor).toNat ≠ 0 ∧ s.bufLen < s.cursor + 1 + (Memory.read s.buf s.cursor).toNat) ∧
    (let s := decoding 2 (desc 1 1) [1, 9] id;
      (Memory.read s.buf s.cursor).toNat ≠ 0 ∧
        s.cursor + 1 + (Memory.read s.buf s.cursor).toNat ≤ s.bufLen) := by decide

/-- R164, R166: a code of 9 bits that begins with the last byte 0x05 of a sub-block and takes its ninth bit from
the next one; and the same beginning where the terminator follows, where no byte follows, and where the next sub-block is
cut. -/
theorem test_readCode_spans_sub_blocks :
    let one (z : LzRegs) : LzRegs := { z with codeSize := 9, blockRemaining := 1 }
    let held (z : LzRegs) : LzRegs := { z with codeSize := 9, blockRemaining := 0, acc := 5, accBits := 8 }
    readCode (decoding 2 (desc 1 1) [5, 1, 3] one)
      = .code 0x105
          { decoding 2 (desc 1 1) [5, 1, 3] (fun z => { z with codeSize := 9, acc := 1, accBits := 7 }) with
            cursor := 3 } ∧
    readCode (decoding 2 (desc 1 1) [5, 0] one)
      = .dataEnd { decoding 2 (desc 1 1) [5, 0] (fun z => { held z with dataDone := true }) with cursor := 2 } ∧
    readCode (decoding 2 (desc 1 1) [5] one)
      = .truncated { decoding 2 (desc 1 1) [5] held with cursor := 1 } ∧
    readCode (decoding 2 (desc 1 1) [5, 2, 3] one)
      = .truncated { decoding 2 (desc 1 1) [5, 2, 3] held with cursor := 2 } := by decide

/-- A state after which a code 4 is read: the hypotheses of CODE_CLEAR, CODE_END, CODE_FRESH_LITERAL and the two invalid
classes. -/
theorem witness_code_read :
    let s := decoding 2 (desc 1 1) [] (fun z => { z with acc := 12, accBits := 5 })
    s.site = .imageData ∧
    readCode s = .code 4 { s with lz := { s.lz with acc := 1, accBits := 2 } } := by decide

/-- An old code, an empty stack, and a table code 6 spelling "1 0". -/
def withEntry (acc avail : Nat) : State :=
  decoding 2 (desc 4 1) [] (fun z => { z with
    acc := acc, accBits := 3, avail := avail, oldCode := some 0, prefixTab := [(6, 1)] })

theorem spells_entry (acc avail : Nat) : Spells { (withEntry acc avail).lz with acc := 0, accBits := 0 } 6 [1, 0] := by
  have h1 : Spells { (withEntry acc avail).lz with acc := 0, accBits := 0 } 1 [1] :=
    .root 1 (show 1 < 4 by decide)
  exact .entry (lz := { (withEntry acc avail).lz with acc := 0, accBits := 0 }) 6 [1] (show 4 ≤ 6 by decide) h1

theorem witness_KnownCodeEmitsItsString :
    let s := withEntry 6 7
    let s1 : State := { s with lz := { s.lz with acc := 0, accBits := 0 } }
    s.site = .imageData ∧ readCode s = .code 6 s1 ∧ s1.lz.oldCode = some 0 ∧ s1.lz.stack = [] ∧ 6 ≠ s1.lz.avail ∧
    Spells s1.lz 6 [1, 0] ∧ [1, 0].length ≤ 4097 ∧ s1.lz.avail < 4096 :=
  ⟨by decide, by decide, by decide, by decide, by decide, spells_entry 6 7, by decide, by decide⟩

theorem witness_KwkwkEmitsTheOldString :
    let s : State := { withEntry 7 7 with lz := { (withEntry 7 7).lz with oldCode := some 6 } }
    let s1 : State := { s with lz := { s.lz with acc := 0, accBits := 0 } }
    s.site = .imageData ∧ readCode s = .code 7 s1 ∧ s1.lz.oldCode = some 6 ∧ s1.lz.stack = [] ∧
    Spells s1.lz 6 [1, 0] ∧ [1, 0].length + 1 ≤ 4097 ∧ s1.lz.avail < 4096 := by
  refine ⟨by decide, by decide, by decide, by decide, ?_, by decide, by decide⟩
  exact .entry (lz := { (withEntry 7 7).lz with oldCode := some 6, acc := 0, accBits := 0 }) 6 [1]
    (show 4 ≤ 6 by decide) (.root 1 (show 1 < 4 by decide))

/-- The second clause: the full table. -/
theorem witness_DataCodeAborts_full_table :
    let s := withEntry 6 4096
    let s1 : State := { s with lz := { s.lz with acc := 0, accBits := 0 } }
    s.site = .imageData ∧ readCode s = .code 6 s1 ∧ s1.lz.oldCode = some 0 ∧ s1.lz.stack = [] ∧ 6 ≠ s1.lz.avail ∧
    Spells s1.lz 6 [1, 0] ∧ [1, 0].length ≤ 4097 ∧ 4096 ≤ s1.lz.avail :=
  ⟨by decide, by decide, by decide, by decide, by decide, spells_entry 6 4096, by decide, by decide⟩

/-- A table in which entry `k + 2` has prefix `k + 1`, and code 0 is the only root: code `k` spells `k + 1`
characters. -/
def longChain (n : Nat) : LzRegs :=
  { LzRegs.reset with
    codeSize := 2, accBits := 2, avail := n + 5, oldCode := some 0, clearCode := 1,
    prefixTab := (List.range' 2 n).map (fun k => (k, k - 1)) }

theorem longChain_prefix (n a k : Nat) (h : a ≤ k) (hk : k < a + n) :
    cellRead 0 ((List.range' a n).map (fun k => (k, k - 1))) k = k - 1 := by
  induction n generalizing a with
  | zero => omega
  | succ n ih =>
    simp only [List.range'_succ, List.map_cons, cellRead]
    by_cases e : k = a
    · rw [if_pos e, e]
    · rw [if_neg e]; exact ih (a + 1) (by omega) (by omega)

theorem longChain_spells (n k : Nat) (h : k < n + 2) : ∃ l, Spells (longChain n) k l ∧ l.length = k + 1 := by
  induction k with
  | zero => exact ⟨[0], .root 0 (Nat.zero_lt_one), rfl⟩
  | succ k ih =>
    obtain ⟨l, hl, hn⟩ := ih (by omega)
    refine ⟨l ++ [Elements.read (longChain n).suffixTab (k + 1)], .entry (k + 1) l (Nat.le_add_left 1 k) ?_, by simp [hn]⟩
    have : Elements.read (longChain n).prefixTab (k + 1) = k := by
      cases k with
      | zero => exact cellRead_of_forall_lt (by simp [longChain]; omega)
      | succ k => exact longChain_prefix n 2 (k + 2) (by omega) (by omega)
    rw [this]; exact hl

/-- The first clause: a chain longer than the stack bound (which no run reaches, 41_lzw_decoder.md R185). -/
theorem witness_DataCodeAborts_long_chain :
    let s : State := { placed .imageData [] with lz := longChain 4097 }
    let s1 : State := { s with lz := { longChain 4097 with accBits := 0 } }
    s.site = .imageData ∧ readCode s = .code 0 s1 ∧ s1.lz.oldCode = some 0 ∧ s1.lz.stack = [] ∧
    4097 ≠ s1.lz.avail ∧ ∃ l, Spells s1.lz 4097 l ∧ 4097 < l.length := by
  refine ⟨rfl, rfl, rfl, rfl, by decide, ?_⟩
  obtain ⟨l, hl, hn⟩ := longChain_spells 4097 4097 (by omega)
  exact ⟨l, hl.congr rfl rfl rfl, by omega⟩

/-- The third clause: CODE_KWKWK with an old code one character short of passing the bound. -/
theorem witness_DataCodeAborts_kwkwk_long_chain :
    let s : State := { placed .imageData [] with lz := { longChain 4096 with oldCode := some 4096 } }
    let s1 : State := { s with lz := { s.lz with accBits := 0 } }
    s.site = .imageData ∧ readCode s = .code 0 s1 ∧ s1.lz.oldCode = some 4096 ∧ s1.lz.stack = [] ∧
    ∃ l, Spells s1.lz 4096 l ∧ l.length ≤ 4097 ∧ 4097 < l.length + 1 := by
  refine ⟨rfl, rfl, rfl, rfl, ?_⟩
  obtain ⟨l, hl, hn⟩ := longChain_spells 4096 4096 (by omega)
  exact ⟨l, hl.congr rfl rfl rfl, by omega, by omega⟩

/-- A decode with `m = 12` after the literal 5, whose next code is 4098 = `avail` (41_lzw_decoder.md R186). -/
def fullTable : State :=
  decoding 12 (desc 2 1) [] (fun z => { z with acc := 4098, accBits := 13, oldCode := some 5, firstChar := 5 })

/-- The fourth clause: CODE_KWKWK on the full table of `m = 12`. -/
theorem witness_DataCodeAborts_kwkwk_full_table :
    let s1 : State := { fullTable with lz := { fullTable.lz with acc := 0, accBits := 0 } }
    fullTable.site = .imageData ∧ readCode fullTable = .code 4098 s1 ∧ s1.lz.oldCode = some 5 ∧ s1.lz.stack = [] ∧
    Spells s1.lz 5 [5] ∧ [5].length + 1 ≤ 4097 ∧ 4096 ≤ s1.lz.avail :=
  ⟨rfl, rfl, rfl, rfl, .root 5 (show 5 < 4096 by decide), by decide, by decide⟩

/-- Growth at the boundary, none below it, none at 12 bits. -/
theorem witness_WidthGrowsAtThePowerOfTwo :
    (let z := { LzRegs.reset with codeSize := 3, avail := 8 }; 2 ^ z.codeSize ≤ z.avail ∧ z.codeSize < 12) ∧
    (let z := { LzRegs.reset with codeSize := 3, avail := 7 }; z.avail < 2 ^ z.codeSize) ∧
    (let z := { LzRegs.reset with codeSize := 12, avail := 4096 }; 12 ≤ z.codeSize ∧ z.avail < 4097) := by decide

/-- The last character that fits, the first that does not, an interlaced one. -/
theorem witness_EmitPlacesTheCharacter :
    (let z := { LzRegs.reset with width := 2, height := 1, outPos := 1 };
      Elements.wf z.target = true ∧ z.width ≠ 0 ∧ z.height ≠ 0 ∧ z.outPos < z.width * z.height) ∧
    (let z := { LzRegs.reset with width := 2, height := 1, outPos := 2 }; z.width * z.height ≤ z.outPos) ∧
    (let z := { LzRegs.reset with width := 1, height := 5, outPos := 4, interlace := true };
      z.interlace = true ∧ z.outPos < z.width * z.height) := by decide

theorem witness_DataEndCompletesTheImage :
    let s := decoding 2 (desc 2 1) [0] id
    s.site = .imageData ∧
    readCode s = .dataEnd { s with cursor := 1, lz := { s.lz with dataDone := true } } := by decide

/-- A frame with and one without a control; the blit's own hypotheses. -/
theorem witness_BlitDrawsTheFrame :
    (frameAt 0 none).gc = none ∧ (frameAt 1 (some (control .background true))).gc = some (control .background true) ∧
    let s := composing .blit (frameAt 0 none) (frameAt 1 none) 0 none
    s.site = .blit ∧ s.frames[s.fc.i]? = some (frameAt 1 none) ∧ Memory.wf s.fc.canvas = true ∧
    1 < s.screen.width.toNat ∧ 0 < s.screen.height.toNat := by decide

/-- The four disposal statements. -/
theorem witness_disposals :
    let f := frameAt 0 (some (control .background false))
    let s := composing .dispose f (frameAt 1 none) 2 none
    s.site = .dispose ∧ s.fc.i ≠ 0 ∧ s.frames[s.fc.i - 1]? = some f ∧ Memory.wf s.fc.canvas = true := by decide

theorem witness_DisposalIsThePriorFrames :
    let f := frameAt 0 (some (control .background false))
    OpcodesFit (composing .dispose f (frameAt 1 none) 2 none) := by
  refine ⟨rfl, fun i f c hf hc => ?_, nofun, nofun⟩
  match i with
  | 0 => cases hf; cases hc; rfl
  | 1 => cases hf; cases hc; rfl
  | i + 2 => simp [composing] at hf

theorem witness_SnapshotKeepsTheCanvas :
    (let s := composing .snapshot (frameAt 0 none) (frameAt 1 none) 0 none;
      s.site = .snapshot ∧ s.frames[s.fc.i]? = some (frameAt 1 none) ∧ disposalOf (frameAt 1 none) = .unspecified ∧
        allocated s + (if s.fc.kept.isSome then 0 else canvasBytes s) ≤ s.maxAllocBytes) ∧
    (let s := { composing .snapshot (frameAt 0 none) (frameAt 1 none) 0 none with maxAllocBytes := 19 };
      s.maxAllocBytes < allocated s + (if s.fc.kept.isSome then 0 else canvasBytes s)) ∧
    disposalOf (frameAt 1 (some (control .previous false))) = .previous := by decide

theorem witness_StoreRendersTheFrame :
    (let s := composing .store (frameAt 0 none) (frameAt 1 none) 0 none;
      s.site = .store ∧ allocated s + canvasBytes s ≤ s.maxAllocBytes ∧ s.fc.i + 1 = s.frames.length) ∧
    (let s := { composing .store (frameAt 0 none) (frameAt 1 none) 0 none with fc := FcRegs.reset };
      s.frames[s.fc.i]? = some (frameAt 0 none) ∧ s.fc.i + 1 < s.frames.length) ∧
    (let s := { composing .store (frameAt 0 none) (frameAt 1 none) 0 none with maxAllocBytes := 19 };
      s.maxAllocBytes < allocated s + canvasBytes s) := by decide

theorem witness_CompositorRaisesNothing :
    let s := composing .dispose (frameAt 0 none) (frameAt 1 none) 0 none
    Composing s ∧ FrameDue s ∧ PhaseFits s :=
  ⟨.inl rfl, ⟨fun _ => by decide, fun _ => by decide⟩, .inl ⟨by decide, rfl, rfl⟩⟩

/-- A step that appends a frame, for the second clause of the pending control's statement. -/
theorem witness_PendingControlIsConsumedOnce :
    let s : State := { decoding 2 (desc 2 1) [0] id with pendingGC := some (control .background true) }
    ∃ t f, step s = .next t ∧ t.frames = s.frames ++ [f] ∧ t.site ≠ .ended :=
  ⟨_, _, rfl, rfl, nofun⟩

/-! The invariants, in the middle of an image's data (where the LZ registers matter) and in the compositor. -/

/-- The state in the middle of an image's data: a step emits code 1. -/
def midImage : State := decoding 2 (desc 1 1) [1, 1] id

/-- The step of every invariant and whole-machine statement. -/
theorem witness_midImage_steps : ∃ t, step midImage = .next t ∧ t.site ≠ .ended := by
  have h : andThen (step midImage) (fun t => t.site != .ended) = true := by decide
  revert h
  cases step midImage <;> simp [andThen]

theorem witness_midImage_lz : LzFits midImage.lz where
  m_lo := by decide
  m_hi := by decide
  clear := by decide
  endc := by decide
  size_lo := by decide
  size_hi := by decide
  avail_lo := by decide
  avail_hi := .inl (by decide)
  old := nofun
  roots := by
    have h : ∀ i, i < 4 → Elements.read midImage.lz.suffixTab i = i := by decide
    exact h
  table := fun k h h' => absurd (show k < 6 from h') (Nat.not_lt.2 h)
  prefixWf := by decide
  suffixWf := by decide
  stack := rfl
  accBits := by decide
  acc := by decide
  block := by decide
  data := rfl

theorem witness_SoundRunsNeverFault : Sound midImage :=
  ⟨⟨by decide, fun _ => by unfold BlockInBuffer; decide⟩, .inl ⟨by decide, rfl, rfl⟩, fun _ => witness_midImage_lz,
    ⟨fun h => (by rcases h with h | h | h | h <;> cases h), nofun⟩⟩

/-- The hypotheses of the invariants that `Sound` does not hold, and of the budget. -/
theorem witness_invariants :
    midImage.canonical = true ∧ FailureLegal midImage ∧ PalettesFit midImage ∧ RenderedFits midImage ∧
    OpcodesFit midImage ∧ midImage.site ≠ .ended ∧ midImage.result = .running := by
  refine ⟨by decide, nofun, ⟨nofun, nofun, nofun, nofun⟩, ⟨fun _ _ => nofun, fun h => ?_, nofun⟩,
    ⟨rfl, fun i f c h => (by simp [midImage, decoding, placed, goTo, State.reset] at h), nofun, nofun⟩,
    by decide, rfl⟩
  rcases h with h | h | h | h <;> cases h

theorem witness_BuffersKeepTheirSizes : BuffersFit midImage := by
  refine ⟨nofun, fun _ => ⟨by decide, by decide, rfl, rfl, nofun⟩, fun h => ?_, fun h => ?_, nofun⟩ <;> rcases h with h | h | h | h <;> cases h

end Sys2Proof.Tests
end

section
/-! PROOF. What one step can do, once and in full, from the laws of each place: the relation `StepsTo` and its inversion
`stepsTo_of_step`. Every invariant of 10_state.md is proved by cases on it. -/

namespace Sys2Proof.Machine

/-! ### Where a step can abort -/

/-- Whether the stream is still being parsed at a place: neither the composite phase nor the end of the call. -/
def Site.parsing : Site → Bool
  | .dispose => false
  | .blit => false
  | .snapshot => false
  | .store => false
  | .ended => false
  | _ => true

theorem Site.ne_ended_of_parsing {p : Site} (h : p.parsing = true) : p ≠ .ended := by
  rintro rfl; cases h

theorem not_composing_of_parsing {s : State} (h : s.site.parsing = true) : ¬ Composing s := by
  rintro (hs | hs | hs | hs) <;> rw [hs] at h <;> cases h

/-- A state that a parsing step may abort in: only the cursor and the bit reader have moved, and a cursor inside the
buffer has moved forward inside it. -/
structure AbortsFrom (s u : State) : Prop where
  parsing : s.site.parsing = true
  reader : SameButReader s u
  cursor : CursorInBuffer s → s.cursor ≤ u.cursor ∧ u.cursor ≤ s.bufLen

theorem AbortsFrom.refl {s : State} (h : s.site.parsing = true) : AbortsFrom s s :=
  ⟨h, .refl s, fun hc => ⟨le_refl _, hc.1⟩⟩

theorem AbortsFrom.advance {s : State} {n : Nat} (h : s.site.parsing = true) (hn : s.cursor + n ≤ s.bufLen) :
    AbortsFrom s (advance n s) :=
  ⟨h, ⟨rfl, rfl⟩, fun _ => ⟨Nat.le_add_right _ _, hn⟩⟩

theorem SameButReader.bufLen_eq {s u : State} (h : SameButReader s u) : u.bufLen = s.bufLen := by rw [h.rest]

theorem sameButReader_of_code {s u : State} {v : Nat} (hr : readCode s = .code v u) : SameButReader s u :=
  readCode_sameButReader (by rw [hr]; rfl)

theorem sameButReader_of_dataEnd {s u : State} (hr : readCode s = .dataEnd u) : SameButReader s u :=
  readCode_sameButReader (by rw [hr]; rfl)

/-- A step may abort after the read of a code. -/
theorem AbortsFrom.code {s u : State} {v : Nat} (hs : s.site = .imageData) (hr : readCode s = .code v u) :
    AbortsFrom s u := by
  have hu := sameButReader_of_code hr
  refine ⟨by rw [hs]; rfl, hu, fun ⟨hc, hb⟩ => ?_⟩
  have h := readCode_inBuffer (hb hs) hc
  rw [hr] at h
  obtain ⟨-, hle, hmono⟩ := h
  exact ⟨hmono, hu.bufLen_eq ▸ hle⟩

/-- A step aborts where the read of a code runs out of bytes. -/
theorem AbortsFrom.truncated {s u : State} (hs : s.site = .imageData) (hr : readCode s = .truncated u) :
    AbortsFrom s u := by
  have hu : SameButReader s u := readCode_sameButReader (by rw [hr]; rfl)
  refine ⟨by rw [hs]; rfl, hu, fun ⟨hc, hb⟩ => ?_⟩
  have h := readCode_inBuffer (hb hs) hc
  rw [hr] at h
  obtain ⟨hle, hmono⟩ := h
  exact ⟨hmono, hu.bufLen_eq ▸ hle⟩

/-! ### What a code does to the LZ registers -/

/-- The LZ registers after the data code `v` that resolves to the root `c0` and the string `st` (41_lzw_decoder.md R173
to R179): the entry `(old, c0)` is appended, the width grows, `v` is the old code, and the string is emitted. -/
def LzRegs.afterData (lz : LzRegs) (old v c0 : Nat) (st : List Nat) : LzRegs :=
  emitStack { growCodeSize
    { lz with
      stack := st,
      prefixTab := Elements.write lz.prefixTab lz.avail old,
      suffixTab := Elements.write lz.suffixTab lz.avail c0,
      avail := lz.avail + 1 } with oldCode := some v, firstChar := c0 }

/-- What a code that neither ends the data nor aborts does to the LZ registers the read leaves (30_encoding.md R104). -/
inductive CodeTo (lz : LzRegs) (v : Nat) : LzRegs → Prop where
  | clear (hv : v = lz.clearCode) : CodeTo lz v (resetTable lz)
  | freshLiteral (ho : lz.oldCode = none) (hv : v < lz.clearCode) :
      CodeTo lz v { emit v lz with oldCode := some v, firstChar := v }
  | data (old c0 : Nat) (st : List Nat) (ho : lz.oldCode = some old)
      (hv : v < lz.clearCode ∨ v ≤ lz.avail) (hclear : v ≠ lz.clearCode) (hend : v ≠ lz.endCode)
      (hr : resolveCode lz v old = some (c0, st)) (hroom : lz.avail < 4096) :
      CodeTo lz v (lz.afterData old v c0 st)

/-! ### What a step does to the state -/

/-- The pending control dropped, as the trailer does (40_container_parser.md R125). -/
def dropPending (s : State) : State := { s with pendingGC := none, pendingOpcode := 0 }

/-- The states a step can go to, one constructor per outcome of a record, a code or a turn of the compositor, each with
its guards. A raise reports a pair of 60_exceptions.md R242, and StackOverflow only where a data code's string passes
the stack bound. -/
inductive StepsTo (s : State) : State → Prop where
  | ended (h : s.site = .ended) : StepsTo s s
  | raised (u : State) (k : ErrorKind) (g : StepTag) (hu : AbortsFrom s u) (hk : (k, g) ∈ legalFailures)
      (hstack : k = .stackOverflow → ∃ v old, s.site = .imageData ∧ readCode s = .code v u ∧
        u.lz.oldCode = some old ∧ (v < u.lz.clearCode ∨ v ≤ u.lz.avail) ∧ v ≠ u.lz.clearCode ∧ v ≠ u.lz.endCode ∧
        resolveCode u.lz v old = none) :
      StepsTo s (raise k g u)
  | header (version : Nat) (h : s.site = .header) (hn : s.cursor + 6 ≤ s.bufLen) :
      StepsTo s (goTo .screen { advance 6 s with version := version })
  | screen (scr : Screen) (g : Bool) (n : BitVec 3) (h : s.site = .screen) (hn : s.cursor + 7 ≤ s.bufLen)
      (hp : scr.globalColors = none) :
      StepsTo s (goTo (if g then .globalPalette n else .boundary) { advance 7 s with screen := scr, hasGlobal := g })
  | globalPalette (n : BitVec 3) (rgb : List Rgb) (h : s.site = .globalPalette n)
      (hl : rgb.length = paletteEntries n) (hn : s.cursor + 3 * paletteEntries n ≤ s.bufLen) :
      StepsTo s (goTo .boundary
        { advance (3 * paletteEntries n) s with screen := { s.screen with globalColors := some (paletteOf rgb) } })
  | nextBlock (h : s.site = .boundary) (hn : s.cursor + 1 ≤ s.bufLen) :
      StepsTo s (goTo (.introducer (bufByte s s.cursor)) (advance 1 s))
  | extension (h : s.site = .introducer 0x21) (hn : s.cursor + 1 ≤ s.bufLen) :
      StepsTo s (goTo (.extension (bufByte s s.cursor)) (advance 1 s))
  | graphicsControl (g : GraphicsControl) (opcode : BitVec 3) (h : s.site = .extension graphicsControlLabel)
      (hg : g.disposal = disposalOfCode opcode) (hn : s.cursor + 5 ≤ s.bufLen) :
      StepsTo s (goTo (.chain (.graphicsControl g opcode)) (advance 5 s))
  | extOther (label : Byte) (h : s.site = .extension label) : StepsTo s (goTo (.chain .extension) s)
  | sub (owner : ChainOwner) (n : Nat) (h : s.site = .chain owner) (hpos : 0 < n) (hn : s.cursor + n ≤ s.bufLen) :
      StepsTo s (advance n s)
  | endExtension (h : s.site = .chain .extension) (hn : s.cursor + 1 ≤ s.bufLen) :
      StepsTo s (goTo .boundary (advance 1 s))
  | endControl (g : GraphicsControl) (opcode : BitVec 3) (h : s.site = .chain (.graphicsControl g opcode))
      (hn : s.cursor + 1 ≤ s.bufLen) :
      StepsTo s (goTo .boundary { advance 1 s with pendingGC := some g, pendingOpcode := opcode })
  | endImage (h : s.site = .chain .imageData) (hn : s.cursor + 1 ≤ s.bufLen) :
      StepsTo s (completeImage (advance 1 s))
  | img (d : ImageDescriptor) (l : Bool) (n : BitVec 3) (h : s.site = .introducer 0x2C)
      (hn : s.cursor + 9 ≤ s.bufLen) (hp : d.localColors = none) :
      StepsTo s (goTo (if l then .localPalette n else .minCodeSize) { advance 9 s with desc := d, hasLocal := l })
  | localPalette (n : BitVec 3) (rgb : List Rgb) (h : s.site = .localPalette n)
      (hl : rgb.length = paletteEntries n) (hn : s.cursor + 3 * paletteEntries n ≤ s.bufLen) :
      StepsTo s (goTo .minCodeSize
        { advance (3 * paletteEntries n) s with desc := { s.desc with localColors := some (paletteOf rgb) } })
  | minCodeSize (m : Nat) (h : s.site = .minCodeSize) (hn : s.cursor + 1 ≤ s.bufLen) (hlo : 1 ≤ m) (hhi : m ≤ 12) :
      StepsTo s (goTo .imageData { advance 1 s with lz := initLzw m s.desc })
  | trailer (h : s.site = .introducer 0x3B) (hf : s.compositeEnable = true → s.frames = []) :
      StepsTo s (succeed (dropPending s))
  | compose (h : s.site = .introducer 0x3B) (he : s.compositeEnable = true) (hf : s.frames ≠ []) :
      StepsTo s (goTo .blit { dropPending s with fc := FcRegs.reset })
  | code (v : Nat) (u : State) (lz : LzRegs) (h : s.site = .imageData) (hr : readCode s = .code v u)
      (hc : CodeTo u.lz v lz) : StepsTo s { u with lz := lz }
  | codeEnd (v : Nat) (u : State) (h : s.site = .imageData) (hr : readCode s = .code v u) (hv : v = u.lz.endCode) :
      StepsTo s (goTo (.chain .imageData)
        { advance u.lz.blockRemaining u with lz := { u.lz with blockRemaining := 0 } })
  | dataEnd (u : State) (h : s.site = .imageData) (hr : readCode s = .dataEnd u) : StepsTo s (completeImage u)
  | dispose (p : Frame) (cv : Memory) (h : s.site = .dispose) (hf : priorFrame s = some p)
      (hcv : cv = s.fc.canvas ∨ ∃ pixel, cv = paintRect p.desc (screenW s) (screenH s) pixel s.fc.canvas) :
      StepsTo s (goTo .blit (withCanvas cv s))
  | blit (f : Frame) (h : s.site = .blit) (hf : currentFrame s = some f) :
      StepsTo s (goTo (if keepsSnapshot f then .snapshot else .store)
        (withCanvas (paintRect f.desc (screenW s) (screenH s) (blitPixel s.screen f) s.fc.canvas) s))
  | snapshot (f : Frame) (h : s.site = .snapshot) (hf : currentFrame s = some f) (hk : keepsSnapshot f = true) :
      StepsTo s (goTo .store { s with fc := { s.fc with kept := some s.fc.canvas } })
  | noSnapshot (f : Frame) (h : s.site = .snapshot) (hf : currentFrame s = some f) (hk : keepsSnapshot f = false) :
      StepsTo s (goTo .store s)
  | store (f : Frame) (h : s.site = .store) (hf : currentFrame s = some f) (hi : s.fc.i + 1 < s.frames.length) :
      StepsTo s (goTo .dispose
        { s with
          frames := s.frames.set s.fc.i { f with rendered := some s.fc.canvas },
          fc := { s.fc with i := s.fc.i + 1 } })
  | storeLast (f : Frame) (h : s.site = .store) (hf : currentFrame s = some f) (hi : s.frames.length ≤ s.fc.i + 1) :
      StepsTo s (succeed { s with frames := s.frames.set s.fc.i { f with rendered := some s.fc.canvas } })

/-! ### The inversion, place by place -/

variable {s t : State}

/-- A raise of a kind other than StackOverflow. -/
theorem StepsTo.of_raise {u : State} {k : ErrorKind} {g : StepTag} (hu : AbortsFrom s u)
    (hk : (k, g) ∈ legalFailures) (hne : k ≠ .stackOverflow) (h : Host.Outcome.next (raise k g u) = (.next t : Out)) :
    StepsTo s t := by
  cases h
  exact .raised u k g hu hk fun he => absurd he hne

/-- A length check fails and raises TruncatedStream, or the rest of the operation decides. -/
theorem StepsTo.of_need {u : State} {n : Nat} {g : StepTag} {rest : Out} (hu : AbortsFrom s u)
    (hk : (.truncatedStream, g) ∈ legalFailures) (h : need n g u rest = .next t)
    (hrest : u.cursor + n ≤ u.bufLen → rest = .next t → StepsTo s t) : StepsTo s t := by
  rcases need_eq_next.1 h with ⟨-, rfl⟩ | ⟨hn, hr⟩
  · exact .of_raise hu hk (by decide) rfl
  · exact hrest hn hr

theorem stepsTo_at_header (h : s.site = .header) (ht : step s = .next t) : StepsTo s t := by
  have hp : s.site.parsing = true := by rw [h]; rfl
  rcases step_at_header h with e | e | e
  · rw [e, execSig87, readHeader, if_pos h] at ht
    refine .of_need (.refl hp) (by decide) ht fun hn hr => ?_
    cases hr; exact .header 87 h hn
  · rw [e, execSig89, readHeader, if_pos h] at ht
    refine .of_need (.refl hp) (by decide) ht fun hn hr => ?_
    cases hr; exact .header 89 h hn
  · rw [e, execSigBad, if_pos h] at ht
    exact .of_need (.refl hp) (by decide) ht fun hn hr => .of_raise (.advance hp hn) (by decide) (by decide) hr

theorem stepsTo_at_screen (h : s.site = .screen) (ht : step s = .next t) : StepsTo s t := by
  obtain ⟨w, hh, g, n, bg, aspect, e⟩ := step_at_screen h
  rw [e, execLsd, if_pos h] at ht
  refine .of_need (.refl (by rw [h]; rfl)) (by decide) ht fun hn hr => ?_
  cases hr
  exact .screen { width := w, height := hh, globalColors := none, backgroundIndex := bg, aspect := aspect } g n h hn rfl

theorem stepsTo_at_globalPalette {n : BitVec 3} (h : s.site = .globalPalette n) (ht : step s = .next t) :
    StepsTo s t := by
  obtain ⟨rgb, hl, e⟩ := step_at_globalPalette h
  rw [e, execPalGlobal, if_pos h] at ht
  refine .of_need (.refl (by rw [h]; rfl)) (by decide) ht fun hn hr => ?_
  cases hr; exact .globalPalette n rgb h hl hn

theorem stepsTo_at_boundary (h : s.site = .boundary) (ht : step s = .next t) : StepsTo s t := by
  have hp : s.site.parsing = true := by rw [h]; rfl
  rcases step_at_boundary h with ⟨-, e⟩ | ⟨hc, e⟩
  · rw [e, execEofAtBoundary, if_pos h] at ht
    exact .of_raise (.refl hp) (by decide) (by decide) ht
  · rw [e, execNextBlock, if_pos h, if_neg (by omega)] at ht
    cases ht; exact .nextBlock h hc

theorem stepsTo_of_trailer (h : s.site = .introducer 0x3B) (ht : execTrailer s = .next t) : StepsTo s t := by
  rw [execTrailer, if_pos h] at ht
  split at ht
  · rename_i he
    obtain ⟨-, hr⟩ := allocate_eq_next.1 ht
    cases hr
    rcases beginComposite_cases (dropPending s) with ⟨hf, e⟩ | ⟨hf, e⟩
    · exact e ▸ .trailer h fun _ => hf
    · exact e ▸ .compose h he hf
  · rename_i he
    cases ht
    exact .trailer h fun he' => absurd he' he

theorem stepsTo_at_introducer {b : Byte} (h : s.site = .introducer b) (ht : step s = .next t) : StepsTo s t := by
  have hp : s.site.parsing = true := by rw [h]; rfl
  rcases step_at_introducer h with ⟨rfl, e⟩ | ⟨rfl, x, y, w, hh, l, il, n, e⟩ | ⟨rfl, e⟩ | ⟨-, -, -, e⟩
  · rw [e, execExtension, if_pos h] at ht
    refine .of_need (.refl hp) (by decide) ht fun hn hr => ?_
    cases hr; exact .extension h hn
  · rw [e, execImg, if_pos h] at ht
    refine .of_need (.refl hp) (by decide) ht fun hn hr => ?_
    cases hr
    exact .img { x := x, y := y, width := w, height := hh, localColors := none, interlace := il } l n h hn rfl
  · exact stepsTo_of_trailer h (e ▸ ht)
  · rw [e, execBlockInvalid, if_pos h] at ht
    exact .of_raise (.refl hp) (by decide) (by decide) ht

theorem stepsTo_at_extension {label : Byte} (h : s.site = .extension label) (ht : step s = .next t) :
    StepsTo s t := by
  have hp : s.site.parsing = true := by rw [h]; rfl
  rcases step_at_extension h with ⟨rfl, size, d, tr, delay, k, e⟩ | ⟨-, e⟩
  · rw [e, execGce, if_pos h] at ht
    refine .of_need (.refl hp) (by decide) ht fun hn hr => ?_
    split at hr
    · exact .of_raise (.advance hp hn) (by decide) (by decide) hr
    · refine .of_need (.advance hp hn) (by decide) hr fun hn4 hr => ?_
      cases hr
      exact .graphicsControl _ d h rfl (by simpa [Nat.add_assoc] using hn4)
  · rw [e, execExtOther, if_pos h] at ht
    cases ht; exact .extOther label h

theorem chainTag_legal (owner : ChainOwner) : (.truncatedStream, chainTag owner) ∈ legalFailures := by
  cases owner <;> simp [chainTag, legalFailures]

theorem stepsTo_at_chain {owner : ChainOwner} (h : s.site = .chain owner) (ht : step s = .next t) : StepsTo s t := by
  have hp : s.site.parsing = true := by rw [h]; rfl
  rcases step_at_chain h with ⟨-, e⟩ | ⟨-, e⟩
  · simp only [e, execSubTerm, h] at ht
    refine .of_need (.refl hp) (chainTag_legal owner) ht fun hn hr => ?_
    cases hr
    rcases endChain_cases owner (advance 1 s) with ⟨rfl, e⟩ | ⟨g, op, rfl, e⟩ | ⟨rfl, e⟩
    · exact e ▸ .endExtension h hn
    · exact e ▸ .endControl g op h hn
    · exact e ▸ .endImage h hn
  · simp only [e, execSub, h] at ht
    refine .of_need (.refl hp) (chainTag_legal owner) ht fun hn hr => ?_
    refine .of_need (.advance hp hn) (chainTag_legal owner) hr fun hn' hr => ?_
    cases hr
    exact .sub owner _ h (by omega) (by simpa [Nat.add_assoc] using hn')

theorem stepsTo_at_localPalette {n : BitVec 3} (h : s.site = .localPalette n) (ht : step s = .next t) :
    StepsTo s t := by
  obtain ⟨rgb, hl, e⟩ := step_at_localPalette h
  rw [e, execPalLocal, if_pos h] at ht
  refine .of_need (.refl (by rw [h]; rfl)) (by decide) ht fun hn hr => ?_
  cases hr; exact .localPalette n rgb h hl hn

theorem stepsTo_at_minCodeSize (h : s.site = .minCodeSize) (ht : step s = .next t) : StepsTo s t := by
  have hp : s.site.parsing = true := by rw [h]; rfl
  rw [step_at_minCodeSize h, execLzwMin, if_pos h] at ht
  refine .of_need (.refl hp) (by decide) ht fun hn hr => ?_
  split at hr
  · exact .of_raise (.advance hp hn) (by decide) (by decide) hr
  · rename_i hm
    obtain ⟨-, hr⟩ := allocate_eq_next.1 hr
    cases hr
    simp only [Config.minCodeSizeLo, Config.minCodeSizeHi] at hm
    exact .minCodeSize _ h hn (by omega) (by omega)

/-- The class of the code that was read depends on registers that the read leaves alone. -/
theorem SameButReader.codeCtx_eq {s u : State} (h : SameButReader s u) : codeCtx u = codeCtx s := by
  unfold codeCtx; rw [h.lz]

/-- A data code aborts or appends and emits (41_lzw_decoder.md R173 to R179). -/
theorem stepsTo_of_dataCode {v old : Nat} {u : State} (h : s.site = .imageData) (hr : readCode s = .code v u)
    (ho : u.lz.oldCode = some old) (hv : v < u.lz.clearCode ∨ v ≤ u.lz.avail) (hclear : v ≠ u.lz.clearCode)
    (hend : v ≠ u.lz.endCode) (ht : dataCode v u = .next t) : StepsTo s t := by
  have hu := AbortsFrom.code h hr
  rcases dataCode_cases (c := v) ho with ⟨hn, e⟩ | ⟨c0, st, hres, ⟨-, e⟩ | ⟨hroom, e⟩⟩ <;> rw [e] at ht
  · cases ht
    exact .raised u _ _ hu (by decide) fun _ => ⟨v, old, h, hr, ho, hv, hclear, hend, hn⟩
  · exact .of_raise hu (by decide) (by decide) ht
  · cases ht
    exact .code v u _ h hr (.data old c0 st ho hv hclear hend hres hroom)

theorem stepsTo_of_code {v : Nat} {u : State} (h : s.site = .imageData) (hr : readCode s = .code v u)
    (ht : exec (classify (codeCtx s) v) s = .next t) : StepsTo s t := by
  have hu := AbortsFrom.code h hr
  rw [← hu.reader.codeCtx_eq] at ht
  rcases classify_cases (codeCtx u) v with ⟨hv, e⟩ | ⟨-, hv, e⟩ | ⟨-, -, hf, ⟨hv, e⟩ | ⟨-, e⟩⟩ |
    ⟨hclear, hend, hf, hcase⟩
  · rw [e, exec, execCodeClear, onCode_of_code h hr] at ht
    cases ht; exact .code v u _ h hr (.clear hv)
  · rw [e, exec, execCodeEnd, onCode_of_code h hr] at ht
    cases ht; exact .codeEnd v u h hr hv
  · rw [e, exec, execCodeFreshLiteral, onCode_of_code h hr] at ht
    cases ht; exact .code v u _ h hr (.freshLiteral (by simpa [codeCtx] using hf) hv)
  · rw [e, exec, execCodeFreshInvalid, onCode_of_code h hr] at ht
    exact .of_raise hu (by decide) (by decide) ht
  · obtain ⟨old, ho⟩ : ∃ old, u.lz.oldCode = some old := by
      simpa [codeCtx, Option.isNone_eq_false_iff, Option.isSome_iff_exists] using hf
    rcases hcase with ⟨hv, e⟩ | ⟨-, hv, e⟩ | ⟨-, hv, e⟩ | ⟨-, -, e⟩
    · rw [e, exec, execCodeLiteral, onCode_of_code h hr] at ht
      exact stepsTo_of_dataCode h hr ho (.inl hv) hclear hend ht
    · rw [e, exec, execCodeTable, onCode_of_code h hr] at ht
      exact stepsTo_of_dataCode h hr ho (.inr (Nat.le_of_lt hv)) hclear hend ht
    · rw [e, exec, execCodeKwkwk, onCode_of_code h hr] at ht
      exact stepsTo_of_dataCode h hr ho (.inr (Nat.le_of_eq hv)) hclear hend (by subst hv; exact ht)
    · rw [e, exec, execCodeOutOfRange, onCode_of_code h hr] at ht
      exact .of_raise hu (by decide) (by decide) ht

theorem stepsTo_at_imageData (h : s.site = .imageData) (ht : step s = .next t) : StepsTo s t := by
  rcases step_at_imageData h with ⟨v, u, hr, e⟩ | ⟨u, hr, e⟩ | ⟨u, hr, e⟩ | ⟨-, e⟩ <;> rw [e] at ht
  · exact stepsTo_of_code h hr ht
  · simp only [execDataEnd, h, hr, if_true] at ht
    cases ht; exact .dataEnd u h hr
  · exact .of_raise (.truncated h hr) (by decide) (by decide) ht
  · cases ht

theorem stepsTo_at_dispose (h : s.site = .dispose) (ht : step s = .next t) : StepsTo s t := by
  rcases step_at_dispose h with e | e | e <;> rw [e] at ht
  · obtain ⟨-, p, hp, rfl⟩ := disposeBy_eq_next.1 ht
    exact .dispose p _ h hp (.inl rfl)
  · obtain ⟨-, p, hp, rfl⟩ := disposeBy_eq_next.1 ht
    exact .dispose p _ h hp (.inr ⟨_, rfl⟩)
  · obtain ⟨-, p, hp, rfl⟩ := disposeBy_eq_next.1 ht
    exact .dispose p _ h hp (.inr ⟨_, rfl⟩)

theorem stepsTo_at_blit (h : s.site = .blit) (ht : step s = .next t) : StepsTo s t := by
  rw [step_at_blit h, execBlit, if_pos h] at ht
  cases hf : currentFrame s <;> rw [hf] at ht <;> cases ht
  exact .blit _ h hf

theorem stepsTo_at_snapshot (h : s.site = .snapshot) (ht : step s = .next t) : StepsTo s t := by
  rw [step_at_snapshot h, execSnapshot, if_pos h] at ht
  cases hf : currentFrame s with
  | none => rw [hf] at ht; cases ht
  | some f =>
    simp only [hf] at ht
    split at ht
    · obtain ⟨-, hr⟩ := allocate_eq_next.1 ht
      cases hr; exact .snapshot f h hf ‹_›
    · rename_i hk
      cases ht; exact .noSnapshot f h hf (by simpa using hk)

theorem stepsTo_at_store (h : s.site = .store) (ht : step s = .next t) : StepsTo s t := by
  rw [step_at_store h, execStore, if_pos h] at ht
  cases hf : currentFrame s with
  | none => rw [hf] at ht; cases ht
  | some f =>
    simp only [hf] at ht
    obtain ⟨-, hr⟩ := allocate_eq_next.1 ht
    cases hr
    rcases nextFrame_cases { s with frames := s.frames.set s.fc.i { f with rendered := some s.fc.canvas } } with
      ⟨hi, e⟩ | ⟨hi, e⟩ <;> rw [e]
    · exact .store f h hf (by simpa using hi)
    · exact .storeLast f h hf (by simpa using hi)

/-- Every next state of a step is one of `StepsTo`. -/
theorem stepsTo_of_step (ht : step s = .next t) : StepsTo s t := by
  cases h : s.site with
  | header => exact stepsTo_at_header h ht
  | screen => exact stepsTo_at_screen h ht
  | globalPalette n => exact stepsTo_at_globalPalette h ht
  | boundary => exact stepsTo_at_boundary h ht
  | introducer b => exact stepsTo_at_introducer h ht
  | extension label => exact stepsTo_at_extension h ht
  | chain owner => exact stepsTo_at_chain h ht
  | localPalette n => exact stepsTo_at_localPalette h ht
  | minCodeSize => exact stepsTo_at_minCodeSize h ht
  | imageData => exact stepsTo_at_imageData h ht
  | dispose => exact stepsTo_at_dispose h ht
  | blit => exact stepsTo_at_blit h ht
  | snapshot => exact stepsTo_at_snapshot h ht
  | store => exact stepsTo_at_store h ht
  | ended => rw [step_at_ended h] at ht; cases ht; exact .ended h

end Sys2Proof.Machine
end

section
/-! PROOF. The cursor and the phase (10_state.md R23, R24), and that a sound run never faults. -/

namespace Sys2Proof.Machine

variable {s t : State}

/-! ### The cursor -/

theorem cursorInBuffer_of_ne {s : State} (hs : s.site ≠ .imageData) (hc : s.cursor ≤ s.bufLen) : CursorInBuffer s :=
  ⟨hc, fun h => absurd h hs⟩

/-- A code leaves the bit reader alone. -/
theorem CodeTo.blockRemaining_eq {lz lz' : LzRegs} {v : Nat} (h : CodeTo lz v lz') :
    lz'.blockRemaining = lz.blockRemaining := by
  cases h with
  | clear => rfl
  | freshLiteral => rw [emit_frame]
  | data => rw [LzRegs.afterData, emitStack_frame, growCodeSize_frame]

theorem StepsTo.cursorInBuffer (ht : StepsTo s t) (hs : CursorInBuffer s) :
    CursorInBuffer t ∧ s.cursor ≤ t.cursor := by
  obtain ⟨hc, hb⟩ := hs
  cases ht with
  | ended => exact ⟨⟨hc, hb⟩, le_refl _⟩
  | raised u k g hu =>
    obtain ⟨h1, h2⟩ := hu.cursor ⟨hc, hb⟩
    exact ⟨cursorInBuffer_of_ne nofun (hu.reader.bufLen_eq ▸ h2), h1⟩
  | screen scr g n h hn => exact ⟨cursorInBuffer_of_ne (by cases g <;> simp) hn, by simp⟩
  | img d l n h hn => exact ⟨cursorInBuffer_of_ne (by cases l <;> simp) hn, by simp⟩
  | sub owner n h hpos hn => exact ⟨cursorInBuffer_of_ne (by simp [h]) hn, by simp⟩
  | minCodeSize m h hn => exact ⟨⟨hn, fun _ => hn⟩, by simp⟩
  | code v u lz h hr hcode =>
    have hu := readCode_inBuffer (hb h) hc
    rw [hr] at hu
    obtain ⟨hblock, hle, hmono⟩ := hu
    refine ⟨⟨hle, fun _ => ?_⟩, hmono⟩
    simpa [BlockInBuffer, hcode.blockRemaining_eq] using hblock
  | codeEnd v u h hr =>
    have hu := readCode_inBuffer (hb h) hc
    rw [hr] at hu
    obtain ⟨hblock, hle, hmono⟩ := hu
    exact ⟨cursorInBuffer_of_ne (by simp) hblock, by simp; omega⟩
  | dataEnd u h hr =>
    have hu := readCode_inBuffer (hb h) hc
    rw [hr] at hu
    obtain ⟨hle, hlt⟩ := hu
    exact ⟨cursorInBuffer_of_ne (by simp) hle, Nat.le_of_lt hlt⟩
  | blit f => exact ⟨cursorInBuffer_of_ne (by cases keepsSnapshot f <;> simp) hc, le_refl _⟩
  | extOther | trailer | compose | dispose | snapshot | noSnapshot | store | storeLast =>
    exact ⟨cursorInBuffer_of_ne (by simp) hc, le_refl _⟩
  | header | globalPalette | nextBlock | extension | graphicsControl | endExtension | endControl | endImage
    | localPalette =>
    exact ⟨cursorInBuffer_of_ne (by simp) (by assumption), by simp⟩

/-- Settles O47: a raise and the bit reader keep the cursor inside the buffer, and every other move is behind a length
check. -/
theorem cursorStaysInTheBuffer : Obligations.CursorStaysInTheBuffer :=
  fun _ _ hs ht => (stepsTo_of_step ht).cursorInBuffer hs

/-! ### The phase -/

theorem PhaseFits.running (hs : PhaseFits s) (h : s.site ≠ .ended) :
    s.phase = phaseOf s.site ∧ s.result = .running := by
  rcases hs with ⟨-, hp, hr⟩ | ⟨he, -⟩ | ⟨he, -⟩
  · exact ⟨hp, hr⟩
  · exact absurd he h
  · exact absurd he h

/-- The edges of the phase graph (40_container_parser.md R120, R139). -/
def phaseEdges : List (Phase × Phase) :=
  [(Phase.header, Phase.screen), (.header, .failed), (.screen, .screen), (.screen, .blocks), (.screen, .failed),
    (.blocks, .blocks), (.blocks, .image), (.blocks, .composite), (.blocks, .done), (.blocks, .failed),
    (.image, .image), (.image, .blocks), (.image, .failed), (.composite, .composite), (.composite, .done),
    (.done, .done), (.failed, .failed)]

/-- Going on at a place keeps `PhaseFits`, and follows an edge when the two places' phases do. -/
theorem phaseFits_goTo {p q : Site} {u : State} (hs : PhaseFits s) (h : s.site = p) (hu : u.result = s.result)
    (hp : p ≠ .ended) (hq : q ≠ .ended) (he : (phaseOf p, phaseOf q) ∈ phaseEdges) :
    PhaseFits (goTo q u) ∧ (s.phase, (goTo q u).phase) ∈ phaseEdges := by
  obtain ⟨hph, hr⟩ := hs.running (h ▸ hp)
  exact ⟨.inl ⟨hq, rfl, hu.trans hr⟩, by rw [hph, h]; exact he⟩

/-- Staying at a place keeps `PhaseFits`. -/
theorem phaseFits_stay {p : Site} {u : State} (hs : PhaseFits s) (h : s.site = p) (hp : p ≠ .ended)
    (hsite : u.site = s.site) (hph : u.phase = s.phase) (hr : u.result = s.result)
    (he : (phaseOf p, phaseOf p) ∈ phaseEdges) :
    PhaseFits u ∧ (s.phase, u.phase) ∈ phaseEdges := by
  obtain ⟨hs1, hs2⟩ := hs.running (h ▸ hp)
  refine ⟨.inl ⟨?_, ?_, hr.trans hs2⟩, ?_⟩
  · rw [hsite, h]; exact hp
  · rw [hph, hsite, hs1]
  · rw [hph, hs1, h]; exact he

theorem phaseFits_succeed {p : Site} {u : State} (hs : PhaseFits s) (h : s.site = p) (hp : p ≠ .ended)
    (he : (phaseOf p, .done) ∈ phaseEdges) :
    PhaseFits (succeed u) ∧ (s.phase, (succeed u).phase) ∈ phaseEdges := by
  obtain ⟨hph, -⟩ := hs.running (h ▸ hp)
  exact ⟨.inr (.inl ⟨rfl, rfl, _, rfl⟩), by rw [hph, h]; exact he⟩

theorem phaseFits_raise {u : State} {k : ErrorKind} {g : StepTag} (hs : PhaseFits s) (hp : s.site.parsing = true) :
    PhaseFits (raise k g u) ∧ (s.phase, (raise k g u).phase) ∈ phaseEdges := by
  obtain ⟨hph, -⟩ := hs.running (Site.ne_ended_of_parsing hp)
  refine ⟨.inr (.inr ⟨rfl, rfl, k, g, rfl⟩), ?_⟩
  rw [hph, raise_phase]
  cases hsite : s.site with
  | chain owner => cases owner <;> simp [phaseOf, phaseEdges]
  | dispose | blit | snapshot | store | ended => rw [hsite] at hp; cases hp
  | _ => simp [phaseOf, phaseEdges]

theorem StepsTo.phaseFits (ht : StepsTo s t) (hs : PhaseFits s) :
    PhaseFits t ∧ (s.phase, t.phase) ∈ phaseEdges := by
  cases ht with
  | ended h =>
    refine ⟨hs, ?_⟩
    rcases hs with ⟨hne, -⟩ | ⟨-, hp, -⟩ | ⟨-, hp, -⟩
    · exact absurd h hne
    · rw [hp]; decide
    · rw [hp]; decide
  | raised u k g hu => exact phaseFits_raise hs hu.parsing
  | trailer h => exact phaseFits_succeed hs h nofun (by decide)
  | storeLast f h => exact phaseFits_succeed hs h nofun (by decide)
  | sub owner n h => exact phaseFits_stay hs h nofun rfl rfl rfl (by cases owner <;> simp [phaseOf, phaseEdges])
  | code v u lz h hr =>
    have hu := (sameButReader_of_code hr).rest
    exact phaseFits_stay hs h nofun (by rw [hu]) (by rw [hu]) (by rw [hu]) (by decide)
  | codeEnd v u h hr =>
    have hu := (sameButReader_of_code hr).rest
    exact phaseFits_goTo hs h (by rw [hu]; rfl) nofun nofun (by decide)
  | dataEnd u h hr =>
    have hu := (sameButReader_of_dataEnd hr).rest
    exact phaseFits_goTo hs h (by rw [hu]) nofun nofun (by decide)
  | screen scr g n h => cases g <;> exact phaseFits_goTo hs h rfl nofun nofun (by simp [phaseOf, phaseEdges])
  | img d l n h => cases l <;> exact phaseFits_goTo hs h rfl nofun nofun (by simp [phaseOf, phaseEdges])
  | blit f h =>
    refine phaseFits_goTo hs h rfl nofun (by split <;> nofun) ?_
    split <;> decide
  | header _ h | globalPalette _ _ h | nextBlock h | extension h | graphicsControl _ _ h | extOther _ h
    | endExtension h | endControl _ _ h | endImage h | localPalette _ _ h | minCodeSize _ h | compose h
    | dispose _ _ h | snapshot _ h | noSnapshot _ h | store _ h =>
    exact phaseFits_goTo hs h rfl nofun nofun (by simp [phaseOf, phaseEdges])

/-- Settles O50: each outcome of a step goes along one edge of the phase graph. -/
theorem phasesFollowThePseudocode : Obligations.PhasesFollowThePseudocode :=
  fun _ _ hs ht => (stepsTo_of_step ht).phaseFits hs

end Sys2Proof.Machine
end

section
/-! PROOF. The LZ registers stay in their ranges (10_state.md R40 to R43; 41_lzw_decoder.md R162, R176). -/

namespace Sys2Proof.Machine

/-! ### The bit reader -/

/-- The bit-reader registers hold what R43 allows: no byte more than a code asked for, no bit above those counted, a
sub-block's length, and data left. -/
structure ReaderFits (lz : LzRegs) : Prop where
  accBits : lz.accBits < lz.codeSize + 8
  acc : lz.acc < 2 ^ lz.accBits
  block : lz.blockRemaining ≤ 255
  data : lz.dataDone = false

/-- Opening a sub-block keeps the bit-reader registers in their ranges: a length is one byte. -/
theorem openSubBlock_readerFits {s s1 : State} (hf : ReaderFits s.lz) (h : openSubBlock s = .ok s1) :
    ReaderFits s1.lz := by
  rcases openSubBlock_cases s with ⟨-, e⟩ | ⟨-, -, e⟩ | ⟨-, -, -, e⟩ | ⟨-, -, -, -, e⟩ | ⟨-, -, -, e⟩
  all_goals rw [e] at h; cases h
  · exact hf
  · exact ⟨hf.accBits, hf.acc, by have := (bufByte s s.cursor).isLt; dsimp only; omega, hf.data⟩

/-- A byte put above the bits held does not reach past 8 more bits. -/
theorem pullByte_readerFits {s : State} (hf : ReaderFits s.lz) (hlt : s.lz.accBits < s.lz.codeSize) :
    ReaderFits (pullByte s).lz := by
  refine ⟨by simp only [pullByte]; omega, ?_, ?_, hf.data⟩
  · have hb : (bufByte s s.cursor).toNat <<< s.lz.accBits < 2 ^ (s.lz.accBits + 8) := by
      rw [Nat.shiftLeft_eq, Nat.pow_add, Nat.mul_comm]
      exact Nat.mul_lt_mul_of_pos_left (bufByte s s.cursor).isLt (Nat.two_pow_pos _)
    have ha : s.lz.acc < 2 ^ (s.lz.accBits + 8) :=
      hf.acc.trans_le (Nat.pow_le_pow_right (by decide) (Nat.le_add_right _ _))
    exact Nat.or_lt_two_pow ha hb
  · have := hf.block
    simp only [pullByte]; omega

/-- A read of a code leaves fewer than 8 bits and the bit-reader registers in their ranges. -/
theorem readCode_readerFits {s u : State} {v : Nat} (hf : ReaderFits s.lz) (hr : readCode s = .code v u) :
    ReaderFits u.lz ∧ u.lz.accBits < 8 := by
  refine gatherCode_induction
    (P := fun n t => ReaderFits t.lz ∧ t.lz.codeSize ≤ t.lz.accBits + n)
    (Q := fun r => ∀ v u, r = .code v u → ReaderFits u.lz ∧ u.lz.accBits < 8) ?_ ?_ ?_ ?_
    ⟨hf, Nat.le_add_left _ _⟩ v u hr
  · rintro n t t1 ⟨ht, hn⟩ hlt ho -
    have hsize : t1.lz.codeSize = t.lz.codeSize := by rw [(openSubBlock_sameButReader ho).lz]
    have hbits := openSubBlock_accBits ho
    refine ⟨pullByte_readerFits (openSubBlock_readerFits ht ho) (by omega), ?_⟩
    simp only [pullByte]; omega
  · rintro n t r - - ho v u rfl
    rcases openSubBlock_cases t with ⟨-, e⟩ | ⟨-, -, e⟩ | ⟨-, -, -, e⟩ | ⟨-, -, -, -, e⟩ | ⟨-, -, -, e⟩
    all_goals rw [e] at ho; cases ho
  · rintro n t t1 - - - v u h
    cases h
  · rintro n t ⟨ht, hn⟩ hend v u h
    cases h
    have hle : t.lz.codeSize ≤ t.lz.accBits := by omega
    have hbits := ht.accBits
    refine ⟨⟨by dsimp only; omega, ?_, ht.block, ht.data⟩, by dsimp only; omega⟩
    rw [Nat.shiftRight_eq_div_pow, Nat.div_lt_iff_lt_mul (Nat.two_pow_pos _), ← Nat.pow_add,
      Nat.sub_add_cancel hle]
    exact ht.acc

theorem LzFits.readerFits {lz : LzRegs} (h : LzFits lz) : ReaderFits lz := ⟨h.accBits, h.acc, h.block, h.data⟩

/-- A read of a code keeps every LZ register in its range. -/
theorem LzFits.of_readCode {s u : State} {v : Nat} (h : LzFits s.lz) (hr : readCode s = .code v u) :
    LzFits u.lz ∧ u.lz.accBits < 8 := by
  obtain ⟨hf, h8⟩ := readCode_readerFits h.readerFits hr
  have hu := sameButReader_of_code hr
  refine ⟨?_, h8⟩
  obtain ⟨hbits, hacc, hblock, hdata⟩ := hf
  rw [hu.lz] at hbits ⊢
  exact { h with accBits := hbits, acc := hacc, block := hblock, data := hdata }

/-! ### The start of a decode and the clear code -/

/-- The cells `k+1` to `k+n`, each listed with its own number. -/
theorem rootCells_read (n k j : Nat) :
    cellRead 0 ((List.range' k n).map fun i => (i + 1, i + 1)) j = if k < j ∧ j ≤ k + n then j else 0 := by
  induction n generalizing k with
  | zero => rw [if_neg (by omega)]; rfl
  | succ n ih =>
    simp only [List.range'_succ, List.map_cons, cellRead, ih]
    by_cases hj : j = k + 1
    · rw [if_pos hj, if_pos (by omega), hj]
    · rw [if_neg hj]
      by_cases h : k < j ∧ j ≤ k + (n + 1)
      · rw [if_pos h, if_pos (by omega)]
      · rw [if_neg h, if_neg (by omega)]

theorem rootCells_wf (n k : Nat) : cellsWf 0 ((List.range' k n).map fun i => (i + 1, i + 1)) = true := by
  induction n generalizing k with
  | zero => rfl
  | succ n ih =>
    rw [List.range'_succ, List.map_cons, cellsWf_cons]
    refine ⟨Nat.succ_ne_zero k, fun c hc => ?_, ih (k + 1)⟩
    obtain ⟨i, hi, rfl⟩ := List.mem_map.1 hc
    have := (List.mem_range'_1.1 hi).1
    omega

/-- Every root below 4096 is seeded with itself (41_lzw_decoder.md R161). -/
theorem rootSuffixes_read {clearCode i : Nat} (hc : clearCode ≤ 4096) (hi : i < clearCode) :
    Elements.read (rootSuffixes clearCode) i = i := by
  have hslots : Config.tableSlots = 4096 := rfl
  rw [rootSuffixes, Elements.read, List.range_eq_range', rootCells_read]
  split <;> omega

theorem rootSuffixes_wf (clearCode : Nat) : Elements.wf (rootSuffixes clearCode) = true := by
  rw [rootSuffixes, List.range_eq_range']; exact rootCells_wf _ _

/-- `Init` leaves the LZ registers in their ranges for every legal `minCodeSize`. -/
theorem initLzw_fits {m : Nat} (d : ImageDescriptor) (hlo : 1 ≤ m) (hhi : m ≤ 12) : LzFits (initLzw m d) := by
  have hclear : 1 <<< m = 2 ^ m := Nat.one_shiftLeft m
  have hpow : 2 ^ m ≤ 2 ^ 12 := Nat.pow_le_pow_right (by decide) hhi
  have havail : 1 <<< m + 2 ≤ 4096 ∨ m = 12 := by
    rcases Nat.lt_or_ge m 12 with h | h
    · have : 2 ^ m ≤ 2 ^ 11 := Nat.pow_le_pow_right (by decide) (by omega)
      omega
    · exact .inr (by omega)
  exact
    { m_lo := hlo
      m_hi := hhi
      clear := hclear
      endc := by simp only [initLzw, resetTable]; omega
      size_lo := le_refl _
      size_hi := le_max_left _ _
      avail_lo := le_refl _
      avail_hi := havail.imp id fun h => ⟨h, rfl⟩
      old := nofun
      roots := fun i hi => rootSuffixes_read (by omega) hi
      table := fun k h h' => absurd h' (Nat.not_lt.2 h)
      prefixWf := rfl
      suffixWf := rootSuffixes_wf _
      stack := rfl
      accBits := Nat.add_pos_right _ (by decide)
      acc := Nat.one_pos
      block := Nat.zero_le _
      data := rfl }

/-- The clear code keeps the ranges: the tables keep their roots, and no entry is left above them. -/
theorem LzFits.resetTable {lz : LzRegs} (h : LzFits lz) (h8 : lz.accBits < 8) : LzFits (resetTable lz) :=
  { h with
    size_lo := le_refl _
    size_hi := le_max_left _ _
    avail_lo := le_refl _
    avail_hi := by
      have := h.avail_lo
      exact h.avail_hi.imp (fun h => by simp only [Machine.resetTable]; omega) fun h => ⟨h.1, rfl⟩
    old := nofun
    table := fun k hk hk' => absurd hk' (Nat.not_lt.2 hk)
    accBits := Nat.lt_of_lt_of_le h8 (Nat.le_add_left 8 _) }

/-! ### Codes and their strings -/

/-- A code with a string: a root or a table entry. -/
def LzRegs.HasString (lz : LzRegs) (c : Nat) : Prop := c < lz.avail ∧ c ≠ lz.clearCode ∧ c ≠ lz.endCode

theorem LzFits.endc_eq {lz : LzRegs} (h : LzFits lz) : lz.endCode = lz.clearCode + 1 := by rw [h.endc, h.clear]

theorem LzFits.hasString_root {lz : LzRegs} (h : LzFits lz) {c : Nat} (hc : c < lz.clearCode) : lz.HasString c := by
  have h1 := h.avail_lo
  have h2 := h.endc_eq
  exact ⟨by omega, by omega, by omega⟩

/-- Above the roots, a code with a string is a table entry: the chain goes on at a code with a string, and the
character is a root. -/
theorem LzFits.hasString_entry {lz : LzRegs} (h : LzFits lz) {c : Nat} (hc : lz.HasString c)
    (hge : ¬ c < lz.clearCode) :
    lz.HasString (Elements.read lz.prefixTab c) ∧ Elements.read lz.suffixTab c < lz.clearCode := by
  obtain ⟨hlt, hne, hne'⟩ := hc
  have hend := h.endc_eq
  obtain ⟨hp, hpc, hpe, hs⟩ := h.table c (by omega) hlt
  exact ⟨⟨by omega, hpc, hpe⟩, hs⟩

theorem push_eq_some {v : Nat} {st st' : List Nat} (h : push v st = some st') : st' = v :: st := by
  rcases Nat.lt_or_ge st.length 4097 with hl | hl
  · rw [push_of_lt hl] at h; exact (Option.some.inj h).symm
  · rw [push_of_le hl] at h; cases h

/-- The walk of a chain ends at a root and pushes roots only. -/
theorem walkChain_roots {lz : LzRegs} (h : LzFits lz) {k c : Nat} {st : List Nat} {r : Nat × List Nat}
    (hc : lz.HasString c) (hst : ∀ x ∈ st, x < lz.clearCode) (hw : walkChain lz k c st = some r) :
    r.1 < lz.clearCode ∧ ∀ x ∈ r.2, x < lz.clearCode := by
  induction k generalizing c st with
  | zero => cases hw
  | succ k ih =>
    rw [walkChain] at hw
    split at hw
    · rename_i hroot
      obtain ⟨st', hp, rfl⟩ := Option.map_eq_some_iff.1 hw
      rw [push_eq_some hp]
      exact ⟨hroot, List.forall_mem_cons.2 ⟨hroot, hst⟩⟩
    · rename_i hge
      obtain ⟨hpre, hsuf⟩ := h.hasString_entry hc hge
      cases hp : push (Elements.read lz.suffixTab c) st with
      | none => rw [hp] at hw; cases hw
      | some st' =>
        rw [hp] at hw
        exact ih hpre (push_eq_some hp ▸ List.forall_mem_cons.2 ⟨hsuf, hst⟩) hw

/-- A resolved data code gives a root and a string of roots (R173, R174). -/
theorem resolveCode_roots {lz : LzRegs} (h : LzFits lz) {v old c0 : Nat} {st : List Nat}
    (ho : lz.oldCode = some old) (hv : v = lz.avail ∨ lz.HasString v) (hr : resolveCode lz v old = some (c0, st)) :
    c0 < lz.clearCode ∧ ∀ x ∈ st, x < lz.clearCode := by
  obtain ⟨hlt, hclear, hend, hfirst⟩ := h.old old ho
  rw [resolveCode] at hr
  split at hr
  · cases hp : push lz.firstChar lz.stack with
    | none => rw [hp] at hr; cases hr
    | some st' =>
      rw [hp] at hr
      refine walkChain_roots h ⟨hlt, hclear, hend⟩ ?_ hr
      rw [push_eq_some hp, h.stack]
      simpa using hfirst
  · rename_i hne
    exact walkChain_roots h (hv.resolve_left hne) (by rw [h.stack]; nofun) hr

/-- The code of a data code is `avail`, or has a string (30_encoding.md R104). -/
theorem LzFits.avail_or_hasString {lz : LzRegs} (h : LzFits lz) {v : Nat} (hv : v < lz.clearCode ∨ v ≤ lz.avail)
    (hclear : v ≠ lz.clearCode) (hend : v ≠ lz.endCode) : v = lz.avail ∨ lz.HasString v := by
  rcases hv with hv | hv
  · exact .inr (h.hasString_root hv)
  · exact (Nat.eq_or_lt_of_le hv).imp id fun hlt => ⟨hlt, hclear, hend⟩

/-! ### The codes that go on -/

theorem LzFits.freshLiteral {lz : LzRegs} (h : LzFits lz) {v : Nat} (hv : v < lz.clearCode) :
    LzFits { emit v lz with oldCode := some v, firstChar := v } := by
  obtain ⟨h1, h2, h3⟩ := h.hasString_root hv
  rw [emit_frame]
  exact { h with old := fun c hc => by cases hc; exact ⟨h1, h2, h3, hv⟩ }

/-- Growth adds at most one bit, and none at 12 bits (R178). -/
theorem growCodeSize_bounds (lz : LzRegs) :
    lz.codeSize ≤ (growCodeSize lz).codeSize ∧ (growCodeSize lz).codeSize ≤ max lz.codeSize 12 := by
  rw [growCodeSize_codeSize, Config.maxCodeBits]
  split <;> omega

/-- Appending the entry `(old, c0)` and emitting keep the ranges: the new entry's chain descends to a root. -/
theorem LzFits.afterData {lz : LzRegs} (h : LzFits lz) {old v c0 : Nat} {st : List Nat} (ho : lz.oldCode = some old)
    (hv : v = lz.avail ∨ lz.HasString v) (hr : resolveCode lz v old = some (c0, st)) (hroom : lz.avail < 4096) :
    LzFits (lz.afterData old v c0 st) := by
  have hroot : c0 < lz.clearCode := (resolveCode_roots h ho hv hr).1
  obtain ⟨hlt, hclear, hend, -⟩ := h.old old ho
  have hlo := h.avail_lo
  have hendc := h.endc_eq
  have hsize := growCodeSize_bounds { lz with
    stack := st, prefixTab := Elements.write lz.prefixTab lz.avail old,
    suffixTab := Elements.write lz.suffixTab lz.avail c0, avail := lz.avail + 1 }
  have hsize_lo := h.size_lo
  have hsize_hi := h.size_hi
  have hbits := h.accBits
  rw [LzRegs.afterData, emitStack_frame, growCodeSize_frame]
  exact
    { h with
      size_lo := by simp only at hsize ⊢; omega
      size_hi := by simp only at hsize ⊢; omega
      avail_lo := by simp only; omega
      avail_hi := .inl hroom
      old := by
        rintro c ⟨⟩
        refine ⟨?_, ?_, ?_, hroot⟩ <;> rcases hv with rfl | ⟨h1, h2, h3⟩ <;> simp only <;> omega
      roots := fun i hi => by
        simp only at hi ⊢
        rw [Elements.read_write_of_ne _ _ (by omega)]
        exact h.roots i hi
      table := fun k hk hk' => by
        simp only at hk hk' ⊢
        by_cases hka : k = lz.avail
        · subst hka
          rw [Elements.read_write_self h.prefixWf, Elements.read_write_self h.suffixWf]
          exact ⟨hlt, hclear, hend, hroot⟩
        · rw [Elements.read_write_of_ne _ _ hka, Elements.read_write_of_ne _ _ hka]
          exact h.table k hk (by omega)
      prefixWf := Elements.write_wf h.prefixWf _ _
      suffixWf := Elements.write_wf h.suffixWf _ _
      stack := rfl
      accBits := by simp only at hsize ⊢; omega }

theorem CodeTo.lzFits {lz lz' : LzRegs} {v : Nat} (hc : CodeTo lz v lz') (h : LzFits lz) (h8 : lz.accBits < 8) :
    LzFits lz' := by
  cases hc with
  | clear => exact h.resetTable h8
  | freshLiteral ho hv => exact h.freshLiteral hv
  | data old c0 st ho hv hclear hend hr hroom => exact h.afterData ho (h.avail_or_hasString hv hclear hend) hr hroom

/-! ### The step -/

variable {s t : State}

theorem StepsTo.lzInRange (ht : StepsTo s t) (hs : LzInRange s) : LzInRange t := by
  cases ht with
  | ended => exact hs
  | minCodeSize m h hn hlo hhi => exact fun _ => initLzw_fits s.desc hlo hhi
  | code v u lz h hr hc =>
    obtain ⟨hf, h8⟩ := (hs h).of_readCode hr
    exact fun _ => hc.lzFits hf h8
  | screen scr g => cases g <;> exact nofun
  | img d l => cases l <;> exact nofun
  | blit f => cases keepsSnapshot f <;> exact nofun
  | sub owner n h => exact fun hd => absurd (h.symm.trans hd) nofun
  | _ => exact nofun

/-- Settles O51: `Init` starts the ranges, and the clear code, a literal and an appended entry keep them. -/
theorem lzRegistersStayInRange : Obligations.LzRegistersStayInRange :=
  fun _ _ hs ht => (stepsTo_of_step ht).lzInRange hs

end Sys2Proof.Machine
end

section
/-! PROOF. A sound run never stops with a fault: every step answers, and keeps what makes it answer. -/

namespace Sys2Proof.Machine

variable {s t : State}

/-! ### The compositor's place -/

theorem frameDue_of_not_composing {u : State} (h : ¬ Composing u) : FrameDue u :=
  ⟨fun hc => absurd hc h, fun hd => absurd (.inl hd) h⟩

theorem composing_dispose (h : s.site = .dispose) : Composing s := .inl h
theorem composing_blit (h : s.site = .blit) : Composing s := .inr (.inl h)
theorem composing_snapshot (h : s.site = .snapshot) : Composing s := .inr (.inr (.inl h))
theorem composing_store (h : s.site = .store) : Composing s := .inr (.inr (.inr h))

theorem not_composing_of_ended (h : s.site = .ended) : ¬ Composing s := by
  rintro (hs | hs | hs | hs) <;> rw [h] at hs <;> cases hs

/-- Only a disposal asks for a prior frame. -/
theorem frameDue_of_lt (hi : s.fc.i < s.frames.length) (hne : s.site ≠ .dispose) : FrameDue s :=
  ⟨fun _ => hi, fun hd => absurd hd hne⟩

theorem StepsTo.frameDue (ht : StepsTo s t) (hs : FrameDue s) : FrameDue t := by
  cases ht with
  | ended => exact hs
  | compose h he hf => exact frameDue_of_lt (List.length_pos_iff.2 hf) nofun
  | dispose p cv h => exact frameDue_of_lt (hs.1 (composing_dispose h)) nofun
  | blit f h => exact frameDue_of_lt (hs.1 (composing_blit h)) (by cases keepsSnapshot f <;> exact nofun)
  | snapshot f h => exact frameDue_of_lt (hs.1 (composing_snapshot h)) nofun
  | noSnapshot f h => exact frameDue_of_lt (hs.1 (composing_snapshot h)) nofun
  | store f h hf hi => exact ⟨fun _ => by simpa using hi, fun _ => Nat.succ_pos _⟩
  | raised | trailer | storeLast => exact frameDue_of_not_composing (not_composing_of_ended rfl)
  | screen scr g => cases g <;> exact frameDue_of_not_composing (not_composing_of_parsing rfl)
  | img d l => cases l <;> exact frameDue_of_not_composing (not_composing_of_parsing rfl)
  | sub owner n h => exact frameDue_of_not_composing (not_composing_of_parsing (by simp [h, Site.parsing]))
  | code v u lz h hr =>
    have hu := (sameButReader_of_code hr).rest
    exact frameDue_of_not_composing (not_composing_of_parsing (by rw [hu]; simp [h, Site.parsing]))
  | _ => exact frameDue_of_not_composing (not_composing_of_parsing rfl)

/-! ### Progress -/

/-- An outcome that is no fault: a next state, or the refusal of the allocation limit. -/
def Answers (o : Out) : Prop := o = .refused .allocLimit ∨ ∃ t, o = .next t

theorem Answers.next (t : State) : Answers (.next t) := .inr ⟨t, rfl⟩

theorem Answers.need {n : Nat} {g : StepTag} {u : State} {rest : Out} (h : Answers rest) :
    Answers (need n g u rest) := by
  rw [Machine.need]; split
  · exact .next _
  · exact h

theorem Answers.allocate {n : Nat} {u : State} {rest : Out} (h : Answers rest) : Answers (allocate n u rest) := by
  rw [Machine.allocate]; split
  · exact .inl rfl
  · exact h

theorem Answers.dataCode {v old : Nat} {u : State} (ho : u.lz.oldCode = some old) : Answers (dataCode v u) := by
  rcases dataCode_cases (c := v) ho with ⟨-, e⟩ | ⟨c0, st, -, ⟨-, e⟩ | ⟨-, e⟩⟩ <;> rw [e] <;> exact .next _

/-- A code of every class answers: the classes that need an old code have one (30_encoding.md R104). -/
theorem answers_code {v : Nat} {u : State} (h : s.site = .imageData) (hr : readCode s = .code v u) :
    Answers (exec (classify (codeCtx s) v) s) := by
  rw [← (sameButReader_of_code hr).codeCtx_eq]
  rcases classify_cases (codeCtx u) v with ⟨-, e⟩ | ⟨-, -, e⟩ | ⟨-, -, -, ⟨-, e⟩ | ⟨-, e⟩⟩ | ⟨-, -, hf, hcase⟩
  · rw [e, exec, execCodeClear, onCode_of_code h hr]; exact .next _
  · rw [e, exec, execCodeEnd, onCode_of_code h hr]; exact .next _
  · rw [e, exec, execCodeFreshLiteral, onCode_of_code h hr]; exact .next _
  · rw [e, exec, execCodeFreshInvalid, onCode_of_code h hr]; exact .next _
  · obtain ⟨old, ho⟩ : ∃ old, u.lz.oldCode = some old := by
      simpa [codeCtx, Option.isNone_eq_false_iff, Option.isSome_iff_exists] using hf
    rcases hcase with ⟨-, e⟩ | ⟨-, -, e⟩ | ⟨-, -, e⟩ | ⟨-, -, e⟩
    · rw [e, exec, execCodeLiteral, onCode_of_code h hr]; exact .dataCode ho
    · rw [e, exec, execCodeTable, onCode_of_code h hr]; exact .dataCode ho
    · rw [e, exec, execCodeKwkwk, onCode_of_code h hr]; exact .dataCode ho
    · rw [e, exec, execCodeOutOfRange, onCode_of_code h hr]; exact .next _

/-- Image data answers: every data byte of an opened sub-block lies in the buffer (41_lzw_decoder.md R165). -/
theorem answers_at_imageData (hs : CursorInBuffer s) (h : s.site = .imageData) : Answers (step s) := by
  rcases step_at_imageData h with ⟨v, u, hr, e⟩ | ⟨u, hr, e⟩ | ⟨u, -, e⟩ | ⟨hr, -⟩
  · exact e ▸ answers_code h hr
  · rw [e, execDataEnd, if_pos h, hr]; exact .next _
  · exact e ▸ .next _
  · have hin := readCode_inBuffer (hs.2 h) hs.1
    rw [hr] at hin
    exact hin.elim

theorem answers_at_introducer {b : Byte} (h : s.site = .introducer b) : Answers (step s) := by
  rcases step_at_introducer h with ⟨rfl, e⟩ | ⟨rfl, x, y, w, hh, l, il, n, e⟩ | ⟨rfl, e⟩ | ⟨-, -, -, e⟩
  · rw [e, execExtension, if_pos h]; exact .need (.next _)
  · rw [e, execImg, if_pos h]; exact .need (.next _)
  · rw [e, execTrailer, if_pos h]
    split
    · exact .allocate (.next _)
    · exact .next _
  · rw [e, execBlockInvalid, if_pos h]; exact .next _

theorem answers_disposeBy {m : Frame → Memory} (hs : FrameDue s) (h : s.site = .dispose) :
    Answers (disposeBy m s) := by
  have hpos := hs.2 h
  have hlt := hs.1 (composing_dispose h)
  have hp : priorFrame s = some s.frames[s.fc.i - 1] := by
    rw [priorFrame, if_neg (by omega), List.getElem?_eq_getElem]
  exact .inr ⟨_, disposeBy_eq_next.2 ⟨h, _, hp, rfl⟩⟩

theorem FrameDue.currentFrame (hs : FrameDue s) (hc : Composing s) : ∃ f, currentFrame s = some f :=
  ⟨_, List.getElem?_eq_getElem (hs.1 hc)⟩

theorem answers_at_store (hs : FrameDue s) (h : s.site = .store) : Answers (step s) := by
  obtain ⟨f, hf⟩ := hs.currentFrame (composing_store h)
  rw [step_at_store h, execStore, if_pos h, hf]
  exact .allocate (.next _)

theorem answers_at_snapshot (hs : FrameDue s) (h : s.site = .snapshot) : Answers (step s) := by
  obtain ⟨f, hf⟩ := hs.currentFrame (composing_snapshot h)
  rw [step_at_snapshot h, execSnapshot, if_pos h, hf]
  dsimp only
  split
  · exact .allocate (.next _)
  · exact .next _

/-- With the data in the buffer and the compositor's frames there, a step answers. -/
theorem step_answers (hcur : CursorInBuffer s) (hfr : FrameDue s) : Answers (step s) := by
  cases h : s.site with
  | header =>
    rcases step_at_header h with e | e | e
    · rw [e, execSig87, readHeader, if_pos h]; exact .need (.next _)
    · rw [e, execSig89, readHeader, if_pos h]; exact .need (.next _)
    · rw [e, execSigBad, if_pos h]; exact .need (.next _)
  | screen =>
    obtain ⟨w, hh, g, n, bg, aspect, e⟩ := step_at_screen h
    rw [e, execLsd, if_pos h]; exact .need (.next _)
  | globalPalette n =>
    obtain ⟨rgb, -, e⟩ := step_at_globalPalette h
    rw [e, execPalGlobal, if_pos h]; exact .need (.next _)
  | boundary =>
    rcases step_at_boundary h with ⟨-, e⟩ | ⟨hc, e⟩
    · rw [e, execEofAtBoundary, if_pos h]; exact .next _
    · rw [e, execNextBlock, if_pos h, if_neg (by omega)]; exact .next _
  | introducer b => exact answers_at_introducer h
  | extension label =>
    rcases step_at_extension h with ⟨rfl, size, d, tr, delay, k, e⟩ | ⟨-, e⟩
    · rw [e, execGce, if_pos h]
      refine .need ?_
      split
      · exact .next _
      · exact .need (.next _)
    · rw [e, execExtOther, if_pos h]; exact .next _
  | chain owner =>
    rcases step_at_chain h with ⟨-, e⟩ | ⟨-, e⟩
    · simp only [e, execSubTerm, h]; exact .need (.next _)
    · simp only [e, execSub, h]; exact .need (.need (.next _))
  | localPalette n =>
    obtain ⟨rgb, -, e⟩ := step_at_localPalette h
    rw [e, execPalLocal, if_pos h]; exact .need (.next _)
  | minCodeSize =>
    rw [step_at_minCodeSize h, execLzwMin, if_pos h]
    refine .need ?_
    split
    · exact .next _
    · exact .allocate (.next _)
  | imageData => exact answers_at_imageData hcur h
  | dispose => rcases step_at_dispose h with e | e | e <;> rw [e] <;> exact answers_disposeBy hfr h
  | blit =>
    obtain ⟨f, hf⟩ := hfr.currentFrame (composing_blit h)
    rw [step_at_blit h, execBlit, if_pos h, hf]; exact .next _
  | snapshot => exact answers_at_snapshot hfr h
  | store => exact answers_at_store hfr h
  | ended => rw [step_at_ended h]; exact .next _

/-! ### Soundness -/

theorem Sound.step (hs : Sound s) (ht : step s = .next t) : Sound t :=
  have h := stepsTo_of_step ht
  ⟨(h.cursorInBuffer hs.cursor).1, (h.phaseFits hs.phase).1, h.lzInRange hs.lz, h.frameDue hs.frame⟩

/-- Settles O59: a step in a sound state answers, and each part of `Sound` is kept. -/
theorem soundRunsNeverFault : Obligations.SoundRunsNeverFault := by
  intro s hs
  exact (step_answers hs.cursor hs.frame).imp id fun ⟨t, ht⟩ => ⟨t, ht, hs.step ht⟩

end Sys2Proof.Machine
end

section
/-! PROOF. The palettes, the frames in stream order, the pending control (10_state.md R27, R29, R32), and reset. -/

namespace Sys2Proof.Machine

variable {s t : State}

/-! ### Palettes -/

/-- The palette of a record with depth field `n` (40_container_parser.md R123). -/
theorem paletteOf_fits {n : BitVec 3} {rgb : List Rgb} (hl : rgb.length = paletteEntries n) :
    OptPaletteFits (some (paletteOf rgb)) := by
  rintro p ⟨⟩
  refine ⟨⟨n, (List.length_map _).trans hl⟩, fun c hc => ?_⟩
  obtain ⟨x, -, rfl⟩ := List.mem_map.1 hc
  rfl

theorem palettesFit_raise (k : ErrorKind) (g : StepTag) (u : State) : PalettesFit (raise k g u) :=
  ⟨nofun, nofun, nofun, nofun⟩

theorem palettesFit_succeed {u : State} (hg : OptPaletteFits u.screen.globalColors)
    (hf : ∀ f ∈ u.frames, OptPaletteFits f.desc.localColors) : PalettesFit (succeed u) :=
  ⟨nofun, nofun, nofun, by rintro im ⟨⟩; exact ⟨hg, hf⟩⟩

/-- A finished image's local palette is its frame's. -/
theorem PalettesFit.completeImage (hs : PalettesFit s) : PalettesFit (completeImage s) := by
  obtain ⟨hg, hd, hf, hr⟩ := hs
  refine ⟨hg, nofun, ?_, hr⟩
  rw [completeImage_frames, List.forall_mem_append, List.forall_mem_singleton]
  exact ⟨hf, hd⟩

/-- What the read of a code leaves alone. -/
theorem SameButReader.palettesFit {u : State} (h : SameButReader s u) (hs : PalettesFit s) : PalettesFit u := by
  rw [h.rest]; exact hs

/-- Every frame after the current one is rendered is a frame from before, with or without its rendered buffer. -/
theorem forall_mem_setRendered {P : Frame → Prop} {f : Frame} {m : Memory} (hf : currentFrame s = some f)
    (hs : ∀ f ∈ s.frames, P f) (hP : P f → P { f with rendered := some m }) :
    ∀ f' ∈ s.frames.set s.fc.i { f with rendered := some m }, P f' := by
  intro f' hf'
  rcases List.mem_or_eq_of_mem_set hf' with h | rfl
  · exact hs f' h
  · exact hP (hs f (List.mem_of_getElem? hf))

theorem StepsTo.palettesFit (ht : StepsTo s t) (hs : PalettesFit s) : PalettesFit t := by
  have ⟨hg, hd, hf, hr⟩ := hs
  cases ht with
  | raised u k g => exact palettesFit_raise k g u
  | screen scr g n h hn hp => exact ⟨fun q hq => absurd (hp.symm.trans hq) nofun, hd, hf, hr⟩
  | globalPalette n rgb h hl => exact ⟨paletteOf_fits hl, hd, hf, hr⟩
  | endImage => exact PalettesFit.completeImage (s := advance 1 s) hs
  | img d l n h hn hp => exact ⟨hg, fun q hq => absurd (hp.symm.trans hq) nofun, hf, hr⟩
  | localPalette n rgb h hl => exact ⟨hg, paletteOf_fits hl, hf, hr⟩
  | trailer => exact palettesFit_succeed hg hf
  | code v u lz h hrd => exact (sameButReader_of_code hrd).palettesFit hs
  | codeEnd v u h hrd => exact (sameButReader_of_code hrd).palettesFit hs
  | dataEnd u h hrd =>
    exact ((sameButReader_of_dataEnd hrd).palettesFit hs).completeImage
  | store f h hc => exact ⟨hg, hd, forall_mem_setRendered hc hf id, hr⟩
  | storeLast f h hc => exact palettesFit_succeed hg (forall_mem_setRendered hc hf id)
  | _ => exact hs

/-- Settles O53: a palette record gives its `2^(n+1)` opaque entries, and every other palette is copied. -/
theorem palettesKeepTheirForm : Obligations.PalettesKeepTheirForm :=
  fun _ _ hs ht => (stepsTo_of_step ht).palettesFit hs

/-! ### Frames -/

/-- What a step does to the frames: nothing, dropped at the end of the call, an image completed, or the current frame
rendered. -/
theorem StepsTo.frames_cases (ht : StepsTo s t) :
    t.frames = s.frames ∨ (t.site = .ended ∧ t.frames = []) ∨ (∃ u, SameButReader s u ∧ t = completeImage u) ∨
      (s.site = .store ∧ ∃ f, s.frames[s.fc.i]? = some f ∧
        t.frames = s.frames.set s.fc.i { f with rendered := some s.fc.canvas }) := by
  cases ht with
  | raised | trailer | storeLast => exact .inr (.inl ⟨rfl, rfl⟩)
  | endImage => exact .inr (.inr (.inl ⟨advance 1 s, ⟨rfl, rfl⟩, rfl⟩))
  | dataEnd u h hr => exact .inr (.inr (.inl ⟨u, sameButReader_of_dataEnd hr, rfl⟩))
  | store f h hf => exact .inr (.inr (.inr ⟨h, f, hf, rfl⟩))
  | code v u lz h hr => exact .inl (by rw [(sameButReader_of_code hr).rest])
  | codeEnd v u h hr => exact .inl (by rw [(sameButReader_of_code hr).rest]; rfl)
  | _ => exact .inl rfl

/-- The frame of a completed image: it takes the pending control and is not rendered. -/
theorem completeImage_appends {u : State} (hu : SameButReader s u) :
    ∃ f, (completeImage u).frames = s.frames ++ [f] ∧ f.gc = s.pendingGC ∧ f.rendered = none := by
  rw [hu.rest]; exact ⟨_, rfl, rfl, rfl⟩

/-- Settles O57: the end of an image appends its frame, STORE renders the current one, and no other step that goes on
writes the frames. -/
theorem framesOnlyGrowInStreamOrder : Obligations.FramesOnlyGrowInStreamOrder := by
  intro s t ht hne
  rcases (stepsTo_of_step ht).frames_cases with h | ⟨he, -⟩ | ⟨u, hu, rfl⟩ | h
  · exact .inl h
  · exact absurd he hne
  · obtain ⟨f, hf, -, hr⟩ := completeImage_appends hu
    exact .inr (.inl ⟨f, hf, hr⟩)
  · exact .inr (.inr h)

/-! ### The pending control -/

/-- Only the end of an image appends a frame, and that frame takes the pending control. -/
theorem StepsTo.appended_takes_pending (ht : StepsTo s t) {f : Frame} (hf : t.frames = s.frames ++ [f]) :
    f.gc = s.pendingGC ∧ t.pendingGC = none := by
  have hlen := congrArg List.length hf
  rw [List.length_append, List.length_singleton] at hlen
  rcases ht.frames_cases with h | ⟨-, h⟩ | ⟨u, hu, rfl⟩ | ⟨-, g, -, h⟩
  · rw [h] at hlen; omega
  · rw [h, List.length_nil] at hlen; omega
  · obtain ⟨f', hf', hgc, -⟩ := completeImage_appends hu
    obtain rfl : f = f' := by simpa using hf.symm.trans hf'
    exact ⟨hgc, rfl⟩
  · rw [h, List.length_set] at hlen; omega

/-- What a step that goes on does to the pending control. -/
theorem StepsTo.pending_cases (ht : StepsTo s t) (hne : t.site ≠ .ended) :
    t.pendingGC = s.pendingGC ∨
    (∃ g c, s.site = .chain (.graphicsControl g c) ∧ t.pendingGC = some g) ∨
    (t.pendingGC = none ∧ ∃ f, t.frames = s.frames ++ [f] ∧ f.gc = s.pendingGC) ∨
    (t.pendingGC = none ∧ s.site = .introducer 0x3B) := by
  have hcomplete {u : State} (hu : SameButReader s u) : ∃ f, (completeImage u).frames = s.frames ++ [f] ∧
      f.gc = s.pendingGC := (completeImage_appends hu).imp fun _ h => ⟨h.1, h.2.1⟩
  cases ht with
  | raised | trailer | storeLast => exact absurd rfl hne
  | endControl g opcode h => exact .inr (.inl ⟨g, opcode, h, rfl⟩)
  | endImage => exact .inr (.inr (.inl ⟨rfl, hcomplete ⟨rfl, rfl⟩⟩))
  | dataEnd u h hr => exact .inr (.inr (.inl ⟨rfl, hcomplete (sameButReader_of_dataEnd hr)⟩))
  | compose h => exact .inr (.inr (.inr ⟨rfl, h⟩))
  | code v u lz h hr => exact .inl (by rw [(sameButReader_of_code hr).rest])
  | codeEnd v u h hr => exact .inl (by rw [(sameButReader_of_code hr).rest]; rfl)
  | _ => exact .inl rfl

/-- Settles O58: only the end of a graphics control writes the slot, and only the end of an image, which takes the
control, and the trailer clear it. -/
theorem pendingControlIsConsumedOnce : Obligations.PendingControlIsConsumedOnce :=
  fun _ _ ht => ⟨(stepsTo_of_step ht).pending_cases, fun _ => (stepsTo_of_step ht).appended_takes_pending⟩

/-! ### Reset -/

/-- Settles O7: the values are those of `State.reset`. -/
theorem resetValues : Obligations.ResetValues := ⟨rfl, rfl, rfl, rfl, rfl⟩

/-- Settles O8: at reset the cursor is 0, the call runs at HEADER, and there is no frame, palette or control. -/
theorem resetMeetsTheInvariants : Obligations.ResetMeetsTheInvariants := by
  intro buf n composite limit hbuf s
  have hp : s.site.parsing = true := rfl
  have hc : ¬ Composing s := not_composing_of_parsing hp
  have hwf : s.canonical = true := by
    simpa [State.canonical, Result.canonical, Elements.wf, Memory.wf, s, State.reset, LzRegs.reset, FcRegs.reset]
      using hbuf
  have hsound : Sound s :=
    ⟨cursorInBuffer_of_ne nofun (Nat.zero_le n), .inl ⟨nofun, rfl, rfl⟩, nofun, frameDue_of_not_composing hc⟩
  have hbuffers : BuffersFit s :=
    ⟨nofun, fun h => (h.elim nofun nofun), fun h => absurd h hc, fun h => absurd h hc, nofun⟩
  exact ⟨hwf, hsound, nofun, ⟨nofun, nofun, nofun, nofun⟩, hbuffers, ⟨rfl, nofun, nofun, nofun⟩,
    ⟨fun _ _ => nofun, fun h => absurd h hc, nofun⟩⟩

end Sys2Proof.Machine
end

section
/-! PROOF. Every buffer keeps the size the spec gives it (10_state.md R31; 20_memory.md R72, R74). -/

namespace Sys2Proof.Machine

/-! ### Cells below a bound -/

theorem Memory.within_write {n a : Nat} {m : Memory} {v : Byte} (hm : Memory.within n m) (ha : a < n) :
    Memory.within n (Memory.write m a v) := by
  intro c hc
  rcases mem_cellWrite hc with h | h
  · rw [h]; exact ha
  · exact hm c h

theorem Memory.within_writeBytes {n a : Nat} {m : Memory} {bs : List Byte} (hm : Memory.within n m)
    (ha : a + bs.length ≤ n) : Memory.within n (Memory.writeBytes m a bs) := by
  induction bs generalizing m a with
  | nil => exact hm
  | cons b bs ih =>
    rw [List.length_cons] at ha
    exact ih (Memory.within_write hm (by omega)) (by omega)

/-- The pixels of a canvas occupy its `4·w·h` bytes (20_memory.md R76). -/
theorem Memory.within_pixelWrite {w h x y : Nat} {m : Memory} {p : Rgba} (hm : Memory.within (4 * (w * h)) m)
    (hx : x < w) (hy : y < h) : Memory.within (4 * (w * h)) (pixelWrite m w x y p) := by
  refine Memory.within_writeBytes hm ?_
  have hrow : (y + 1) * w ≤ h * w := Nat.mul_le_mul_right w hy
  rw [Nat.add_mul, Nat.one_mul, Nat.mul_comm h w] at hrow
  simp only [pixelOffset, List.length_cons, List.length_nil]
  omega

theorem Memory.within_paintRect {d : ImageDescriptor} {w h : Nat} {pixel : Nat → Nat → Option Rgba} {m : Memory}
    (hm : Memory.within (4 * (w * h)) m) : Memory.within (4 * (w * h)) (paintRect d w h pixel m) := by
  rw [paintRect]
  refine List.foldlRecOn (motive := Memory.within (4 * (w * h))) _ _ hm fun cv hcv p hp => ?_
  obtain ⟨-, -, -, -, hx, hy⟩ := mem_rect.1 (show (p.1, p.2) ∈ rect d w h from hp)
  split
  · exact hcv
  · exact Memory.within_pixelWrite hcv hx hy

/-- Every cell a write lists is the written one or was listed before. -/
theorem eq_or_mem_of_mem_cellWrite {α : Type} {d : α} [DecidableEq α] {m : List (Nat × α)} {k : Nat} {v : α}
    {c : Nat × α} (h : c ∈ cellWrite d m k v) : c = (k, v) ∨ c ∈ m := by
  induction m with
  | nil =>
    rw [cellWrite] at h
    split at h
    · cases h
    · exact .inl (List.mem_singleton.1 h)
  | cons e m ih =>
    rw [cellWrite] at h
    split at h
    · split at h
      · exact .inr h
      · exact List.mem_cons.1 h
    · split at h
      · split at h
        · exact .inr (List.mem_cons_of_mem _ h)
        · exact (List.mem_cons.1 h).imp id (List.mem_cons_of_mem _)
      · rcases List.mem_cons.1 h with rfl | h
        · exact .inr (List.mem_cons_self ..)
        · exact (ih h).imp id (List.mem_cons_of_mem _)

theorem Elements.within_write {n bound k v : Nat} {m : Elements} (hm : Elements.within n bound m) (hk : k < n)
    (hv : v < bound) : Elements.within n bound (Elements.write m k v) := by
  intro c hc
  rcases eq_or_mem_of_mem_cellWrite hc with rfl | h
  · exact ⟨hk, hv⟩
  · exact hm c h

/-! ### The characters of a frame -/

/-- Every row of an interlaced image is one of its rows (41_lzw_decoder.md R182). -/
theorem lt_of_mem_passRows {start stride h r : Nat} (hs : 0 < stride) (hr : r ∈ passRows start stride h) : r < h := by
  obtain ⟨i, hi, rfl⟩ := List.mem_range'.1 hr
  have hle : (i + 1) * stride ≤ h - start + (stride - 1) := (Nat.le_div_iff_mul_le hs).1 hi
  rw [Nat.add_mul, Nat.one_mul, Nat.mul_comm] at hle
  omega

theorem interlaceRow_lt {j h : Nat} (hh : 0 < h) : interlaceRow j h < h := by
  rw [interlaceRow, List.getD_eq_getElem?_getD]
  cases hj : (interlaceRows h)[j]? with
  | none => exact hh
  | some r =>
    have hm := List.mem_of_getElem? hj
    simp only [interlaceRows, List.mem_append] at hm
    rcases hm with ((hm | hm) | hm) | hm <;> exact lt_of_mem_passRows (by decide) hm

/-- A character that is not dropped goes to an element of the index buffer (41_lzw_decoder.md R181, R183). -/
theorem outputElement_lt {lz : LzRegs} {k : Nat} (hk : k < lz.width * lz.height) :
    outputElement lz k < lz.width * lz.height := by
  have hw : 0 < lz.width := Nat.pos_of_mul_pos_right (Nat.zero_lt_of_lt hk)
  have hh : 0 < lz.height := Nat.pos_of_mul_pos_left (Nat.zero_lt_of_lt hk)
  have hrow : (if lz.interlace then interlaceRow (k / lz.width) lz.height else k / lz.width) < lz.height := by
    split
    · exact interlaceRow_lt hh
    · exact (Nat.div_lt_iff_lt_mul hw).2 (by rwa [Nat.mul_comm])
  rw [outputElement]
  generalize (if lz.interlace then interlaceRow (k / lz.width) lz.height else k / lz.width) = row at hrow ⊢
  have hcol : k % lz.width < lz.width := Nat.mod_lt k hw
  calc row * lz.width + k % lz.width < row * lz.width + lz.width := Nat.add_lt_add_left hcol _
    _ = (row + 1) * lz.width := (Nat.succ_mul ..).symm
    _ ≤ lz.height * lz.width := Nat.mul_le_mul_right _ hrow
    _ = lz.width * lz.height := Nat.mul_comm ..

/-- The index buffer of the frame being decoded has the frame's size, and its elements are below 4096. -/
def TargetFits (lz : LzRegs) : Prop := Elements.within (lz.width * lz.height) 4096 lz.target

theorem TargetFits.emit {lz : LzRegs} {v : Nat} (h : TargetFits lz) (hv : v < 4096) : TargetFits (emit v lz) := by
  rw [emit_frame, TargetFits, emit_target]
  dsimp only
  split
  · exact h
  · exact Elements.within_write h (outputElement_lt (by omega)) hv

theorem TargetFits.emitStack {lz : LzRegs} (h : TargetFits lz) (hst : ∀ v ∈ lz.stack, v < 4096) :
    TargetFits (emitStack lz) :=
  List.foldlRecOn (motive := TargetFits) _ _ h fun _ hz v hv => hz.emit (hst v hv)

theorem LzFits.clearCode_le {lz : LzRegs} (h : LzFits lz) : lz.clearCode ≤ 4096 := by
  rw [h.clear]
  exact (Nat.pow_le_pow_right (by decide) h.m_hi : 2 ^ lz.m ≤ 2 ^ 12)

/-- A code emits roots only, and a root is below 4096. -/
theorem CodeTo.targetFits {lz lz' : LzRegs} {v : Nat} (hc : CodeTo lz v lz') (h : LzFits lz) (ht : TargetFits lz) :
    TargetFits lz' := by
  have hroot {x : Nat} (hx : x < lz.clearCode) : x < 4096 := hx.trans_le h.clearCode_le
  cases hc with
  | clear => exact ht
  | freshLiteral ho hv => exact ht.emit (hroot hv)
  | data old c0 st ho hv hclear hend hr =>
    obtain ⟨-, hst⟩ := resolveCode_roots h ho (h.avail_or_hasString hv hclear hend) hr
    rw [LzRegs.afterData, growCodeSize_frame]
    exact TargetFits.emitStack ht fun x hx => hroot (hst x hx)

/-- A code leaves `m` and the frame's size alone. -/
theorem CodeTo.size_eq {lz lz' : LzRegs} {v : Nat} (hc : CodeTo lz v lz') :
    lz'.m = lz.m ∧ lz'.width = lz.width ∧ lz'.height = lz.height := by
  cases hc with
  | clear => exact ⟨rfl, rfl, rfl⟩
  | freshLiteral => rw [emit_frame]; exact ⟨rfl, rfl, rfl⟩
  | data => rw [LzRegs.afterData, emitStack_frame, growCodeSize_frame]; exact ⟨rfl, rfl, rfl⟩

/-! ### The state's buffers -/

variable {s t u : State}

/-- Every frame, and every frame of a result, has buffers of its size. -/
def FramesFit (s : State) : Prop :=
  (∀ f ∈ s.frames, FrameFits s.screen f) ∧
    ∀ im, s.result = .success im → ∀ f ∈ im.frames, FrameFits im.screen f

/-- The index buffer in the making has the size of the image in the making. -/
def ImageFits (s : State) : Prop :=
  1 ≤ s.lz.m ∧ s.lz.m ≤ 12 ∧ s.lz.width = s.desc.width.toNat ∧ s.lz.height = s.desc.height.toNat ∧ TargetFits s.lz

/-- The canvas and the snapshot have the screen's size. -/
def CanvasFits (s : State) : Prop :=
  Memory.within (4 * (screenW s * screenH s)) s.fc.canvas ∧
    ∀ k, s.fc.kept = some k → Memory.within (4 * (screenW s * screenH s)) k

theorem buffersFit_iff :
    BuffersFit s ↔ FramesFit s ∧ (LzLive s → ImageFits s) ∧ (Composing s → CanvasFits s) := by
  have htarget (hw : s.lz.width = s.desc.width.toNat) (hh : s.lz.height = s.desc.height.toNat) :
      TargetFits s.lz ↔ Elements.within (s.desc.width.toNat * s.desc.height.toNat) 4096 s.lz.target := by
    rw [TargetFits, hw, hh]
  constructor
  · rintro ⟨hf, ht, hc, hk, hi⟩
    refine ⟨⟨hf, hi⟩, fun h => ?_, fun h => ⟨hc h, hk h⟩⟩
    obtain ⟨hlo, hhi, hw, hh, hin⟩ := ht h
    exact ⟨hlo, hhi, hw, hh, (htarget hw hh).2 hin⟩
  · rintro ⟨⟨hf, hi⟩, ht, hc⟩
    refine ⟨hf, fun h => ?_, fun h => (hc h).1, fun h => (hc h).2, hi⟩
    obtain ⟨hlo, hhi, hw, hh, hin⟩ := ht h
    exact ⟨hlo, hhi, hw, hh, (htarget hw hh).1 hin⟩

/-- A place at which neither an image's data nor a canvas is live. -/
def Site.idle (p : Site) : Bool :=
  match p with
  | .imageData => false
  | .chain .imageData => false
  | .dispose => false
  | .blit => false
  | .snapshot => false
  | .store => false
  | _ => true

theorem buffersFit_idle (hf : FramesFit t) (hp : t.site.idle = true) : BuffersFit t := by
  refine buffersFit_iff.2 ⟨hf, fun h => ?_, fun h => ?_⟩
  · rcases h with h | h <;> rw [h] at hp <;> cases hp
  · rcases h with h | h | h | h <;> rw [h] at hp <;> cases hp

theorem buffersFit_live (hf : FramesFit t) (hi : ImageFits t) (hl : LzLive t) : BuffersFit t := by
  refine buffersFit_iff.2 ⟨hf, fun _ => hi, fun h => ?_⟩
  rcases hl with h' | h' <;> rcases h with h | h | h | h <;> rw [h'] at h <;> cases h

theorem buffersFit_composing (hf : FramesFit t) (hcv : CanvasFits t) (hc : Composing t) : BuffersFit t := by
  refine buffersFit_iff.2 ⟨hf, fun h => ?_, fun _ => hcv⟩
  rcases hc with h' | h' | h' | h' <;> rcases h with h | h <;> rw [h'] at h <;> cases h

theorem framesFit_succeed (h : ∀ f ∈ u.frames, FrameFits u.screen f) : FramesFit (succeed u) :=
  ⟨nofun, by rintro im ⟨⟩; exact h⟩

/-- A frame with no rendered buffer fits any screen. -/
theorem FrameFits.of_not_rendered {scr scr' : Screen} {f : Frame} (h : FrameFits scr f) (hr : f.rendered = none) :
    FrameFits scr' f := by
  obtain ⟨hin, hlo, hhi, -⟩ := h
  exact ⟨hin, hlo, hhi, fun m hm => absurd (hr.symm.trans hm) nofun⟩

/-- A copy of the canvas is a rendered buffer of the screen's size. -/
theorem FrameFits.render {scr : Screen} {f : Frame} {m : Memory} (h : FrameFits scr f)
    (hm : Memory.within (4 * (scr.width.toNat * scr.height.toNat)) m) :
    FrameFits scr { f with rendered := some m } := by
  obtain ⟨hin, hlo, hhi, -⟩ := h
  exact ⟨hin, hlo, hhi, by rintro _ ⟨⟩; exact hm⟩

/-- A completed image's frame has an index buffer of its size. -/
theorem FramesFit.completeImage (hf : FramesFit s) (hi : ImageFits s) : FramesFit (completeImage s) := by
  obtain ⟨hlo, hhi, hw, hh, ht⟩ := hi
  refine ⟨?_, hf.2⟩
  rw [completeImage_frames, List.forall_mem_append, List.forall_mem_singleton]
  exact ⟨hf.1, by rw [TargetFits, hw, hh] at ht; exact ht, hlo, hhi, nofun⟩

theorem SameButReader.framesFit (h : SameButReader s u) (hf : FramesFit s) : FramesFit u := by
  rw [h.rest]; exact hf

theorem SameButReader.imageFits (h : SameButReader s u) (hi : ImageFits s) : ImageFits u := by
  rw [ImageFits, h.lz, h.rest]; exact hi

/-- Disposing of the prior frame keeps the canvas's size, whatever it paints. -/
theorem CanvasFits.withCanvas {cv : Memory} (h : CanvasFits s) (hcv : cv = s.fc.canvas ∨
    ∃ d pixel, cv = paintRect d (screenW s) (screenH s) pixel s.fc.canvas) : CanvasFits (withCanvas cv s) := by
  refine ⟨?_, h.2⟩
  rcases hcv with rfl | ⟨d, pixel, rfl⟩
  · exact h.1
  · exact Memory.within_paintRect h.1

theorem StepsTo.buffersFit (ht : StepsTo s t) (hlz : LzInRange s) (hr : RenderedFits s) (hs : BuffersFit s) :
    BuffersFit t := by
  have ⟨hf, hlive, hcomp⟩ := buffersFit_iff.1 hs
  cases ht with
  | ended => exact hs
  | raised => exact buffersFit_idle ⟨nofun, nofun⟩ rfl
  | screen scr g n h =>
    have hp : s.site.parsing = true := by rw [h]; rfl
    refine buffersFit_idle ⟨fun f hm => ?_, hf.2⟩ (by cases g <;> rfl)
    exact (hf.1 f hm).of_not_rendered
      (hr.parsing (Site.ne_ended_of_parsing hp) (not_composing_of_parsing hp) f hm)
  | sub owner n h => exact buffersFit_iff.2 ⟨hf, hlive, hcomp⟩
  | endImage h =>
    exact buffersFit_idle (FramesFit.completeImage (s := advance 1 s) hf (hlive (.inr h))) rfl
  | img d l => exact buffersFit_idle hf (by cases l <;> rfl)
  | minCodeSize m h hn hlo hhi => exact buffersFit_live hf ⟨hlo, hhi, rfl, rfl, nofun⟩ (.inl rfl)
  | trailer => exact buffersFit_idle (framesFit_succeed hf.1) rfl
  | compose => exact buffersFit_composing hf ⟨nofun, nofun⟩ (composing_blit rfl)
  | code v u lz h hrd hc =>
    have hu := sameButReader_of_code hrd
    obtain ⟨hlo, hhi, hw, hh, htgt⟩ := hu.imageFits (hlive (.inl h))
    obtain ⟨em, ew, eh⟩ := hc.size_eq
    have hlz' := hc.targetFits ((hlz h).of_readCode hrd).1 htgt
    refine buffersFit_live (hu.framesFit hf) ⟨em ▸ hlo, em ▸ hhi, ew.trans hw, eh.trans hh, hlz'⟩ (.inl ?_)
    rw [hu.rest]; exact h
  | codeEnd v u h hrd =>
    have hu := sameButReader_of_code hrd
    exact buffersFit_live (hu.framesFit hf) (hu.imageFits (hlive (.inl h))) (.inr rfl)
  | dataEnd u h hrd =>
    have hu := sameButReader_of_dataEnd hrd
    exact buffersFit_idle ((hu.framesFit hf).completeImage (hu.imageFits (hlive (.inl h)))) rfl
  | dispose p cv h hp hcv =>
    have hfit := (hcomp (composing_dispose h)).withCanvas (hcv.imp id fun ⟨px, e⟩ => ⟨p.desc, px, e⟩)
    exact buffersFit_composing hf hfit (composing_blit rfl)
  | blit f h =>
    have hfit := (hcomp (composing_blit h)).withCanvas (.inr ⟨f.desc, blitPixel s.screen f, rfl⟩)
    refine buffersFit_composing hf hfit ?_
    cases keepsSnapshot f
    · exact composing_store rfl
    · exact composing_snapshot rfl
  | snapshot f h =>
    have hcv := hcomp (composing_snapshot h)
    exact buffersFit_composing hf ⟨hcv.1, by rintro _ ⟨⟩; exact hcv.1⟩ (composing_store rfl)
  | noSnapshot f h => exact buffersFit_composing hf (hcomp (composing_snapshot h)) (composing_store rfl)
  | store f h hc =>
    have hcv := hcomp (composing_store h)
    exact buffersFit_composing ⟨forall_mem_setRendered hc hf.1 fun hfit => hfit.render hcv.1, hf.2⟩ hcv
      (composing_dispose rfl)
  | storeLast f h hc =>
    have hcv := hcomp (composing_store h)
    exact buffersFit_idle (framesFit_succeed (forall_mem_setRendered hc hf.1 fun hfit => hfit.render hcv.1)) rfl
  | header | globalPalette | nextBlock | extension | graphicsControl | extOther | endExtension | endControl
    | localPalette => exact buffersFit_idle hf rfl

/-- Settles O54: what is emitted lies in the index buffer and is a root, what is painted lies on the canvas, and a new
screen meets no rendered frame. -/
theorem buffersKeepTheirSizes : Obligations.BuffersKeepTheirSizes :=
  fun _ _ hlz hr hs ht => (stepsTo_of_step ht).buffersFit hlz hr hs

end Sys2Proof.Machine
end

section
/-! PROOF. Memory (20_memory.md): no step writes an input (R84), and every memory keeps its canonical form (log entries 7
and 8). -/

namespace Sys2Proof.Machine

variable {s t u : State}

/-! ### The inputs -/

/-- The read of a code moves the cursor and the bit reader only, so it writes no input. -/
theorem SameButReader.sameInputs (h : SameButReader s u) : SameInputs s u := by
  rw [h.rest]; exact ⟨rfl, rfl, rfl, rfl⟩

theorem StepsTo.sameInputs (ht : StepsTo s t) : SameInputs s t := by
  cases ht with
  | raised u k g hu => exact hu.reader.sameInputs
  | code v u lz h hr => exact (sameButReader_of_code hr).sameInputs
  | codeEnd v u h hr => exact (sameButReader_of_code hr).sameInputs
  | dataEnd u h hr => exact (sameButReader_of_dataEnd hr).sameInputs
  | _ => exact ⟨rfl, rfl, rfl, rfl⟩

/-- Settles O48: a record, the end of a call and a turn of the compositor write other registers, and the read of a code
moves the cursor and the bit reader only. -/
theorem inputsAreNeverWritten : Obligations.InputsAreNeverWritten :=
  fun _ _ ht => (stepsTo_of_step ht).sameInputs

/-! ### The canonical form, register by register -/

/-- The tables and the index buffer in the making are in canonical form. -/
structure LzRegs.Canonical (lz : LzRegs) : Prop where
  prefixTab : Elements.wf lz.prefixTab = true
  suffixTab : Elements.wf lz.suffixTab = true
  target : Elements.wf lz.target = true

/-- The canvas and the kept snapshot are in canonical form. -/
structure FcRegs.Canonical (fc : FcRegs) : Prop where
  canvas : Memory.wf fc.canvas = true
  kept : ∀ k, fc.kept = some k → Memory.wf k = true

theorem Frame.canonical_iff {f : Frame} :
    f.canonical = true ↔ Elements.wf f.indexData = true ∧ ∀ m, f.rendered = some m → Memory.wf m = true := by
  rw [Frame.canonical, Bool.and_eq_true, Option.all_eq_true]

theorem State.canonical_iff :
    s.canonical = true ↔ Memory.wf s.buf = true ∧ (∀ f ∈ s.frames, f.canonical = true) ∧ s.fc.Canonical ∧
      s.lz.Canonical ∧ s.result.canonical = true := by
  simp only [State.canonical, Bool.and_eq_true, List.all_eq_true, Option.all_eq_true]
  constructor
  · rintro ⟨⟨⟨⟨⟨⟨⟨hb, hf⟩, hc⟩, hk⟩, hp⟩, hs⟩, ht⟩, hr⟩
    exact ⟨hb, hf, ⟨hc, hk⟩, ⟨hp, hs, ht⟩, hr⟩
  · rintro ⟨hb, hf, ⟨hc, hk⟩, ⟨hp, hs, ht⟩, hr⟩
    exact ⟨⟨⟨⟨⟨⟨⟨hb, hf⟩, hc⟩, hk⟩, hp⟩, hs⟩, ht⟩, hr⟩

/-! ### The registers at rest -/

theorem LzRegs.reset_canonical : LzRegs.reset.Canonical := ⟨rfl, rfl, rfl⟩

theorem FcRegs.reset_canonical : FcRegs.reset.Canonical := ⟨rfl, nofun⟩

/-- `Init` lists the roots in order, and starts the other table and the index buffer empty. -/
theorem initLzw_canonical (m : Nat) (d : ImageDescriptor) : (initLzw m d).Canonical :=
  ⟨rfl, rootSuffixes_wf _, rfl⟩

/-! ### The decoder -/

/-- Emitting a character writes one element of the index buffer, and the tables stay. -/
theorem LzRegs.Canonical.emit {lz : LzRegs} (h : lz.Canonical) (v : Nat) : (emit v lz).Canonical := by
  have ht := emit_target_wf h.target v
  rw [emit_frame]
  exact ⟨h.prefixTab, h.suffixTab, ht⟩

theorem LzRegs.Canonical.emitStack {lz : LzRegs} (h : lz.Canonical) : (emitStack lz).Canonical :=
  List.foldlRecOn (motive := LzRegs.Canonical) _ _ ⟨h.prefixTab, h.suffixTab, h.target⟩ fun _ hz v _ => hz.emit v

/-- A data code writes one entry of each table and emits its string. -/
theorem LzRegs.Canonical.afterData {lz : LzRegs} (h : lz.Canonical) (old v c0 : Nat) (st : List Nat) :
    (lz.afterData old v c0 st).Canonical := by
  refine LzRegs.Canonical.emitStack ?_
  rw [growCodeSize_frame]
  exact ⟨Elements.write_wf h.prefixTab _ _, Elements.write_wf h.suffixTab _ _, h.target⟩

theorem CodeTo.canonical {lz lz' : LzRegs} {v : Nat} (hc : CodeTo lz v lz') (h : lz.Canonical) : lz'.Canonical := by
  cases hc with
  | clear => exact ⟨h.prefixTab, h.suffixTab, h.target⟩
  | freshLiteral =>
    have he := h.emit v
    exact ⟨he.prefixTab, he.suffixTab, he.target⟩
  | data old c0 st => exact h.afterData old v c0 st

/-! ### The step -/

/-- The read of a code writes no memory. -/
theorem SameButReader.canonical (h : SameButReader s u) (hs : s.canonical = true) : u.canonical = true := by
  rw [h.rest, h.lz]; exact hs

/-- The end of a call drops every memory but the buffer and those of its result. -/
theorem endCall_canonical (p : Phase) {r : Result} (hb : Memory.wf s.buf = true) (hr : r.canonical = true) :
    (endCall p r s).canonical = true :=
  State.canonical_iff.2 ⟨hb, nofun, FcRegs.reset_canonical, LzRegs.reset_canonical, hr⟩

theorem succeed_canonical (hb : Memory.wf s.buf = true) (hf : ∀ f ∈ s.frames, f.canonical = true) :
    (succeed s).canonical = true :=
  endCall_canonical .done hb (List.all_eq_true.2 hf)

/-- A completed image's index buffer becomes its frame's, which has no rendered buffer yet. -/
theorem completeImage_canonical (hs : s.canonical = true) : (completeImage s).canonical = true := by
  obtain ⟨hb, hf, hfc, hlz, hr⟩ := State.canonical_iff.1 hs
  refine State.canonical_iff.2 ⟨hb, ?_, hfc, LzRegs.reset_canonical, hr⟩
  rw [completeImage_frames, List.forall_mem_append, List.forall_mem_singleton]
  exact ⟨hf, Frame.canonical_iff.2 ⟨hlz.target, nofun⟩⟩

/-- A frame that keeps a copy of the canvas as its rendered buffer. -/
theorem Frame.render_canonical {f : Frame} {m : Memory} (hm : Memory.wf m = true) (h : f.canonical = true) :
    { f with rendered := some m }.canonical = true :=
  Frame.canonical_iff.2 ⟨(Frame.canonical_iff.1 h).1, by rintro _ ⟨⟩; exact hm⟩

theorem StepsTo.canonical (ht : StepsTo s t) (hs : s.canonical = true) : t.canonical = true := by
  have ⟨hb, hf, hfc, hlz, hr⟩ := State.canonical_iff.1 hs
  cases ht with
  | raised u k g hu => exact endCall_canonical .failed (State.canonical_iff.1 (hu.reader.canonical hs)).1 rfl
  | endImage => exact completeImage_canonical (s := advance 1 s) hs
  | minCodeSize m => exact State.canonical_iff.2 ⟨hb, hf, hfc, initLzw_canonical m s.desc, hr⟩
  | trailer => exact succeed_canonical hb hf
  | compose => exact State.canonical_iff.2 ⟨hb, hf, FcRegs.reset_canonical, hlz, hr⟩
  | code v u lz h hrd hc =>
    obtain ⟨hb, hf, hfc, hlz, hr⟩ := State.canonical_iff.1 ((sameButReader_of_code hrd).canonical hs)
    exact State.canonical_iff.2 ⟨hb, hf, hfc, hc.canonical hlz, hr⟩
  | codeEnd v u h hrd => exact (sameButReader_of_code hrd).canonical hs
  | dataEnd u h hrd => exact completeImage_canonical ((sameButReader_of_dataEnd hrd).canonical hs)
  | dispose p cv h hp hcv =>
    rcases hcv with rfl | ⟨pixel, rfl⟩
    · exact hs
    · exact State.canonical_iff.2 ⟨hb, hf, ⟨paintRect_wf _ _ _ _ hfc.canvas, hfc.kept⟩, hlz, hr⟩
  | blit => exact State.canonical_iff.2 ⟨hb, hf, ⟨paintRect_wf _ _ _ _ hfc.canvas, hfc.kept⟩, hlz, hr⟩
  | snapshot =>
    exact State.canonical_iff.2 ⟨hb, hf, ⟨hfc.canvas, by rintro _ ⟨⟩; exact hfc.canvas⟩, hlz, hr⟩
  | store f h hc =>
    have hf' := forall_mem_setRendered hc hf (Frame.render_canonical hfc.canvas)
    exact State.canonical_iff.2 ⟨hb, hf', ⟨hfc.canvas, hfc.kept⟩, hlz, hr⟩
  | storeLast f h hc =>
    exact succeed_canonical hb (forall_mem_setRendered hc hf (Frame.render_canonical hfc.canvas))
  | ended | header | screen | globalPalette | nextBlock | extension | graphicsControl | extOther | sub
    | endExtension | endControl | img | localPalette | noSnapshot => exact hs

/-- Settles O46: a step writes a memory by single writes, each of which keeps the form, or copies one, or starts it empty
or with the roots. -/
theorem stepKeepsMemoriesCanonical : Obligations.StepKeepsMemoriesCanonical :=
  fun _ _ hs ht => (stepsTo_of_step ht).canonical hs

end Sys2Proof.Machine
end

section
/-! PROOF. The fields of a record and its bytes (30_encoding.md R93, R94, R98, R101, R103, R105): reading gives back what
was written, and writing gives back the bytes read. -/

namespace Sys2Proof

/-! ### Two-byte fields -/

@[simp] theorem mkHalf_loByte_hiByte (h : Half) : mkHalf (loByte h) (hiByte h) = h :=
  BitVec.extractLsb'_append_extractLsb' (w := 8) (len := 8) (x := h)

@[simp] theorem loByte_mkHalf (lo hi : Byte) : loByte (mkHalf lo hi) = lo := BitVec.extractLsb'_append_eq_right

@[simp] theorem hiByte_mkHalf (lo hi : Byte) : hiByte (mkHalf lo hi) = hi := BitVec.extractLsb'_append_eq_left

/-! ### Packed bytes -/

section
open BitVec

/-- A flag is a field of one bit. -/
theorem ofBool_getLsbD {w : Nat} (x : BitVec w) (k : Nat) : ofBool (x.getLsbD k) = x.extractLsb' k 1 := by
  ext i hi
  obtain rfl : i = 0 := by omega
  simp

/-- A field of one bit holds its flag. -/
theorem getLsbD_eq_of_extractLsb' {w k : Nat} {x : BitVec w} {b : Bool} (h : x.extractLsb' k 1 = ofBool b) :
    x.getLsbD k = b :=
  ofBool_eq_iff_eq.1 ((ofBool_getLsbD x k).trans h)

@[simp] theorem lsdPacked_extract_n (g : Bool) (ignored : BitVec 4) (n : BitVec 3) :
    (lsdPacked g ignored n).extractLsb' 0 3 = n := extractLsb'_append_eq_right

@[simp] theorem lsdPacked_extract_ignored (g : Bool) (ignored : BitVec 4) (n : BitVec 3) :
    (lsdPacked g ignored n).extractLsb' 3 4 = ignored :=
  (extractLsb'_append_eq_of_le (xlo := n) (le_refl 3)).trans extractLsb'_append_eq_right

theorem lsdPacked_getLsbD_g (g : Bool) (ignored : BitVec 4) (n : BitVec 3) :
    (lsdPacked g ignored n).getLsbD 7 = g :=
  getLsbD_eq_of_extractLsb'
    ((extractLsb'_append_eq_of_le (xlo := n) (by decide : 3 ≤ 7)).trans extractLsb'_append_eq_left)

theorem lsdPacked_fields (p : Byte) :
    lsdPacked (p.getLsbD 7) (p.extractLsb' 3 4) (p.extractLsb' 0 3) = p := by
  rw [lsdPacked, ofBool_getLsbD, extractLsb'_append_extractLsb'_eq_extractLsb' (start₁ := 3) (len₁ := 4) rfl,
    extractLsb'_append_extractLsb'_eq_extractLsb' (start₁ := 0) (len₁ := 3) rfl]
  exact extractLsb'_eq_self

theorem gcePacked_getLsbD_t (hi d : BitVec 3) (lo t : Bool) : (gcePacked hi d lo t).getLsbD 0 = t :=
  getLsbD_eq_of_extractLsb' extractLsb'_append_eq_right

theorem gcePacked_getLsbD_ignoredLo (hi d : BitVec 3) (lo t : Bool) :
    (gcePacked hi d lo t).getLsbD 1 = lo :=
  getLsbD_eq_of_extractLsb'
    ((extractLsb'_append_eq_of_le (xlo := ofBool t) (le_refl 1)).trans extractLsb'_append_eq_right)

@[simp] theorem gcePacked_extract_disposal (hi d : BitVec 3) (lo t : Bool) :
    (gcePacked hi d lo t).extractLsb' 2 3 = d :=
  calc (gcePacked hi d lo t).extractLsb' 2 3
    _ = (hi ++ d ++ ofBool lo).extractLsb' 1 3 := extractLsb'_append_eq_of_le (by decide : 1 ≤ 2)
    _ = (hi ++ d).extractLsb' 0 3 := extractLsb'_append_eq_of_le (le_refl 1)
    _ = d := extractLsb'_append_eq_right

@[simp] theorem gcePacked_extract_ignoredHi (hi d : BitVec 3) (lo t : Bool) :
    (gcePacked hi d lo t).extractLsb' 5 3 = hi :=
  calc (gcePacked hi d lo t).extractLsb' 5 3
    _ = (hi ++ d ++ ofBool lo).extractLsb' 4 3 := extractLsb'_append_eq_of_le (by decide : 1 ≤ 5)
    _ = (hi ++ d).extractLsb' 3 3 := extractLsb'_append_eq_of_le (by decide : 1 ≤ 4)
    _ = hi := extractLsb'_append_eq_left

theorem gcePacked_fields (p : Byte) :
    gcePacked (p.extractLsb' 5 3) (p.extractLsb' 2 3) (p.getLsbD 1) (p.getLsbD 0) = p := by
  rw [gcePacked, ofBool_getLsbD, ofBool_getLsbD,
    extractLsb'_append_extractLsb'_eq_extractLsb' (start₁ := 2) (len₁ := 3) rfl,
    extractLsb'_append_extractLsb'_eq_extractLsb' (start₁ := 1) (len₁ := 1) rfl,
    extractLsb'_append_extractLsb'_eq_extractLsb' (start₁ := 0) (len₁ := 1) rfl]
  exact extractLsb'_eq_self

@[simp] theorem imgPacked_extract_n (l il : Bool) (ignored n : BitVec 3) :
    (imgPacked l il ignored n).extractLsb' 0 3 = n := extractLsb'_append_eq_right

@[simp] theorem imgPacked_extract_ignored (l il : Bool) (ignored n : BitVec 3) :
    (imgPacked l il ignored n).extractLsb' 3 3 = ignored :=
  (extractLsb'_append_eq_of_le (xlo := n) (le_refl 3)).trans extractLsb'_append_eq_right

theorem imgPacked_getLsbD_interlace (l il : Bool) (ignored n : BitVec 3) :
    (imgPacked l il ignored n).getLsbD 6 = il :=
  getLsbD_eq_of_extractLsb' <|
  calc (imgPacked l il ignored n).extractLsb' 6 1
    _ = (ofBool l ++ ofBool il ++ ignored).extractLsb' 3 1 := extractLsb'_append_eq_of_le (by decide : 3 ≤ 6)
    _ = (ofBool l ++ ofBool il).extractLsb' 0 1 := extractLsb'_append_eq_of_le (le_refl 3)
    _ = ofBool il := extractLsb'_append_eq_right

theorem imgPacked_getLsbD_l (l il : Bool) (ignored n : BitVec 3) : (imgPacked l il ignored n).getLsbD 7 = l :=
  getLsbD_eq_of_extractLsb' <|
  calc (imgPacked l il ignored n).extractLsb' 7 1
    _ = (ofBool l ++ ofBool il ++ ignored).extractLsb' 4 1 := extractLsb'_append_eq_of_le (by decide : 3 ≤ 7)
    _ = (ofBool l ++ ofBool il).extractLsb' 1 1 := extractLsb'_append_eq_of_le (by decide : 3 ≤ 4)
    _ = ofBool l := extractLsb'_append_eq_left

theorem imgPacked_fields (p : Byte) :
    imgPacked (p.getLsbD 7) (p.getLsbD 6) (p.extractLsb' 3 3) (p.extractLsb' 0 3) = p := by
  rw [imgPacked, ofBool_getLsbD, ofBool_getLsbD,
    extractLsb'_append_extractLsb'_eq_extractLsb' (start₁ := 6) (len₁ := 1) rfl,
    extractLsb'_append_extractLsb'_eq_extractLsb' (start₁ := 3) (len₁ := 3) rfl,
    extractLsb'_append_extractLsb'_eq_extractLsb' (start₁ := 0) (len₁ := 3) rfl]
  exact extractLsb'_eq_self

end

/-! ### Palettes -/

@[simp] theorem readTriples_tripleBytes (rgb : List Rgb) : readTriples rgb.length (tripleBytes rgb) = some rgb := by
  induction rgb with
  | nil => rfl
  | cons c cs ih => rw [List.length_cons, tripleBytes, readTriples, ih]; rfl

/-- The triples read are as many as asked for, and their bytes stand at the front. -/
theorem eq_tripleBytes_append_of_readTriples {k : Nat} {bs : List Byte} {rgb : List Rgb}
    (h : readTriples k bs = some rgb) : rgb.length = k ∧ ∃ rest, bs = tripleBytes rgb ++ rest := by
  induction k generalizing bs rgb with
  | zero => cases h; exact ⟨rfl, bs, rfl⟩
  | succ k ih =>
    unfold readTriples at h
    split at h
    · cases ‹k + 1 = 0›
    · obtain ⟨cs, hcs, rfl⟩ := Option.map_eq_some_iff.1 h
      cases ‹k + 1 = _›
      obtain ⟨hl, rest, rfl⟩ := ih hcs
      exact ⟨congrArg (· + 1) hl, rest, rfl⟩
    · cases h

/-! ### Codes -/

/-- `k` bytes of a number hold it modulo `256^k`. -/
theorem leNat_leBytes (k v : Nat) : leNat (leBytes k v) = v % 256 ^ k := by
  induction k generalizing v with
  | zero => rw [pow_zero, Nat.mod_one]; rfl
  | succ k ih =>
    rw [leBytes, leNat, ih, BitVec.toNat_ofNat, pow_succ' 256, Nat.mod_mul]

/-- The bytes of a code word hold every code of its width. -/
theorem leNat_codeBytes {c : CodeCtx} {v : Nat} (hv : v < 2 ^ c.codeSize) : leNat (codeBytes c v) = v := by
  rw [codeBytes, leNat_leBytes, Nat.mod_eq_of_lt]
  calc v < 2 ^ c.codeSize := hv
    _ ≤ 2 ^ (8 * ((c.codeSize + 7) / 8)) := Nat.pow_le_pow_right (by decide) (by omega)
    _ = 256 ^ ((c.codeSize + 7) / 8) := Nat.pow_mul 2 8 _

end Sys2Proof
end

section
/-! PROOF. The code map (30_encoding.md R104): the class of a code, and the code a class is written as. -/

namespace Sys2Proof

/-- Settles O4: the classes are tested in an order in which each test leaves exactly the condition R104 gives it. -/
theorem codeClassesFollowTheMap : Obligations.CodeClassesFollowTheMap := by
  intro c code hE hA
  rcases Machine.classify_cases c code with ⟨h, e⟩ | ⟨-, h, e⟩ | ⟨hC, hne, hf, ⟨h, e⟩ | ⟨h, e⟩⟩ |
    ⟨hC, hne, hf, ⟨h, e⟩ | ⟨hle, h, e⟩ | ⟨hle, h, e⟩ | ⟨hle, h, e⟩⟩
  all_goals
    rw [e]
    simp [decode, decodeCode, *]
  all_goals omega

theorem CodeCtx.wellFormed_iff {c : CodeCtx} :
    c.wellFormed = true ↔
      c.endCode = c.clearCode + 1 ∧ c.endCode < c.avail ∧ 0 < c.codeSize ∧ c.endCode < 2 ^ c.codeSize := by
  simp [CodeCtx.wellFormed, and_assoc]

/-- The code that a class is written as; none for an instruction that is no class of a code. -/
def Instr.codeOf (c : CodeCtx) : Instr → Option Nat
  | .codeClear => some c.clearCode
  | .codeEnd => some c.endCode
  | .codeFreshLiteral code => some code
  | .codeFreshInvalid code => some code
  | .codeLiteral code => some code
  | .codeTable code => some code
  | .codeKwkwk => some c.avail
  | .codeOutOfRange code => some code
  | _ => none

/-- A class is encoded as the code word of its code, which is read in the code format. -/
theorem encode_of_codeOf {c : CodeCtx} {i : Instr} {v : Nat} (h : i.codeOf c = some v) :
    encode c i = codeBytes c v ∧ formatOf c i = .code c := by
  cases i <;> cases h <;> exact ⟨rfl, rfl⟩

/-- A class whose condition holds is the class of its code, which has the context's width. -/
theorem classify_of_fits {c : CodeCtx} {i : Instr} {v : Nat} (hc : c.wellFormed = true) (hi : i.fits c = true)
    (hv : i.codeOf c = some v) : classify c v = i ∧ v < 2 ^ c.codeSize := by
  obtain ⟨hE, hA, -, hlt⟩ := CodeCtx.wellFormed_iff.1 hc
  obtain ⟨hclear, hend, hfreshLit, hfreshInv, hlit, htable, hkwkwk, hout, -⟩ := codeClassesFollowTheMap c v hE hA
  cases i <;> cases hv <;> simp only [Instr.fits, Bool.and_eq_true, Bool.not_eq_true', decide_eq_true_eq] at hi
  case codeClear => exact ⟨hclear.2 rfl, by omega⟩
  case codeEnd => exact ⟨hend.2 rfl, hlt⟩
  case codeFreshLiteral => exact ⟨hfreshLit.2 hi, by omega⟩
  case codeFreshInvalid =>
    obtain ⟨⟨hf, h⟩, hw⟩ := hi
    exact ⟨hfreshInv.2 ⟨hf, h⟩, hw⟩
  case codeLiteral => exact ⟨hlit.2 hi, by omega⟩
  case codeTable =>
    obtain ⟨⟨⟨hf, h⟩, ha⟩, hw⟩ := hi
    exact ⟨htable.2 ⟨hf, h, ha⟩, hw⟩
  case codeKwkwk =>
    obtain ⟨hf, hw⟩ := hi
    exact ⟨hkwkwk.2 ⟨hf, rfl⟩, hw⟩
  case codeOutOfRange =>
    obtain ⟨⟨hf, h⟩, hw⟩ := hi
    exact ⟨hout.2 ⟨hf, h⟩, hw⟩

/-- A code word alone in its bytes has no bit missing, and is read as the class of its code. -/
theorem decode_codeBytes {c : CodeCtx} {v : Nat} (hv : v < 2 ^ c.codeSize) :
    decode (.code c) (codeBytes c v) = .ok (classify c v) := by
  have hlen : ¬ 8 * (codeBytes c v).length < c.codeSize := by
    rw [codeBytes, Laws.leBytes_length]; omega
  rw [decode, decodeCode, if_neg hlen, leNat_codeBytes hv, Nat.mod_eq_of_lt hv]

end Sys2Proof
end

section
/-! PROOF. The encoder and the decoder agree (30_encoding.md R90 to R106): what is written is read back, and what is read
stands at the front of the bytes. -/

namespace Sys2Proof

/-! ### Records told apart by what they are not -/

theorem Instr.wellFormed_sigBad {b0 b1 b2 b3 b4 b5 : Byte} :
    (Instr.sigBad b0 b1 b2 b3 b4 b5).wellFormed = true ↔
      [b0, b1, b2, b3, b4, b5] ≠ [0x47, 0x49, 0x46, 0x38, 0x37, 0x61] ∧
        [b0, b1, b2, b3, b4, b5] ≠ [0x47, 0x49, 0x46, 0x38, 0x39, 0x61] := by
  rw [Instr.wellFormed, Bool.and_eq_true, bne_iff_ne, bne_iff_ne]

theorem Instr.wellFormed_blockInvalid {t : Byte} :
    (Instr.blockInvalid t).wellFormed = true ↔ t ≠ 0x21 ∧ t ≠ 0x2C ∧ t ≠ 0x3B := by
  rw [Instr.wellFormed, Bool.and_eq_true, Bool.and_eq_true, bne_iff_ne, bne_iff_ne, bne_iff_ne, and_assoc]

/-! ### Reading what was written -/

theorem decodePalette_tripleBytes (mk : BitVec 3 → List Rgb → Instr) {n : BitVec 3} {rgb : List Rgb}
    (h : rgb.length = paletteEntries n) : decodePalette mk n (tripleBytes rgb) = .ok (mk n rgb) := by
  rw [decodePalette, ← h, readTriples_tripleBytes]

/-- The packed byte written for a disposal code names it. -/
theorem decode_disposalByte (d : BitVec 3) : decode .disposal [disposalByte d] = .ok (disposeInstr d) :=
  congrArg (Except.ok <| disposeInstr ·) (gcePacked_extract_disposal 0 d false false)

/-- Settles O2: a class of a code is the class of the code word it is written as, and each other record is read field by
field as it was written. -/
theorem decodeOfEncode : Obligations.DecodeOfEncode := by
  intro c i hc hwf hfit
  cases hv : i.codeOf c with
  | some v =>
    obtain ⟨hclass, hlt⟩ := classify_of_fits hc hfit hv
    obtain ⟨hbytes, hformat⟩ := encode_of_codeOf hv
    rw [hformat, hbytes, decode_codeBytes hlt, hclass]
  | none =>
    cases i with
    | sigBad b0 b1 b2 b3 b4 b5 =>
      obtain ⟨h7, h9⟩ := Instr.wellFormed_sigBad.1 hwf
      exact (if_neg h7).trans (if_neg h9)
    | lsd =>
      simp only [formatOf, encode, decode, decodeScreen, mkHalf_loByte_hiByte, lsdPacked_getLsbD_g,
        lsdPacked_extract_ignored, lsdPacked_extract_n]
    | gce =>
      simp only [formatOf, encode, decode, decodeExtension, decodeGraphicsControl, if_true, mkHalf_loByte_hiByte,
        gcePacked_extract_ignoredHi, gcePacked_extract_disposal, gcePacked_getLsbD_ignoredLo, gcePacked_getLsbD_t]
    | img =>
      simp only [formatOf, encode, decode, decodeIntroducer, decodeImage, mkHalf_loByte_hiByte,
        imgPacked_getLsbD_l, imgPacked_getLsbD_interlace, imgPacked_extract_ignored, imgPacked_extract_n]
      rfl
    | palGlobal n rgb => exact decodePalette_tripleBytes .palGlobal (beq_iff_eq.1 hwf)
    | palLocal n rgb => exact decodePalette_tripleBytes .palLocal (beq_iff_eq.1 hwf)
    | extOther label => exact if_neg (bne_iff_ne.1 hwf)
    | sub len => exact congrArg Except.ok (if_neg (bne_iff_ne.1 hwf))
    | blockInvalid t =>
      obtain ⟨h21, h2C, h3B⟩ := Instr.wellFormed_blockInvalid.1 hwf
      exact (if_neg h21).trans ((if_neg h2C).trans (if_neg h3B))
    | dataEnd =>
      obtain ⟨-, -, hpos, -⟩ := CodeCtx.wellFormed_iff.1 hc
      exact congrArg Except.ok (if_pos hpos)
    | dispose0 => exact decode_disposalByte 0
    | dispose1 => exact decode_disposalByte 1
    | dispose2 => exact decode_disposalByte 2
    | dispose3 => exact decode_disposalByte 3
    | dispose4 => exact decode_disposalByte 4
    | dispose5 => exact decode_disposalByte 5
    | dispose6 => exact decode_disposalByte 6
    | dispose7 => exact decode_disposalByte 7
    | sig87 | sig89 | nextBlock | eofAtBoundary | extension | subTerm | lzwMin | trailer | blit | snapshot
      | store => rfl
    | codeClear | codeEnd | codeFreshLiteral | codeFreshInvalid | codeLiteral | codeTable | codeKwkwk
      | codeOutOfRange => cases hv

/-! ### Writing what was read -/

/-- A well-formed instruction of a format whose encoding stands at the front of the bytes. -/
def ReadFrom (c : CodeCtx) (f : Format) (bs : List Byte) (i : Instr) : Prop :=
  i.wellFormed = true ∧ formatOf c i = f ∧ ∃ rest, bs = encode c i ++ rest

section
variable {c : CodeCtx} {bs : List Byte} {i : Instr}

theorem readFrom_of_decodeHeader (h : decodeHeader bs = .ok i) : ReadFrom c .header bs i := by
  unfold decodeHeader at h
  split at h
  · next b0 b1 b2 b3 b4 b5 rest =>
    split_ifs at h with h7 h9
    · cases h; exact ⟨rfl, rfl, rest, congrArg (· ++ rest) h7⟩
    · cases h; exact ⟨rfl, rfl, rest, congrArg (· ++ rest) h9⟩
    · cases h; exact ⟨Instr.wellFormed_sigBad.2 ⟨h7, h9⟩, rfl, rest, rfl⟩
  · cases h

theorem readFrom_of_decodeScreen (h : decodeScreen bs = .ok i) : ReadFrom c .screen bs i := by
  unfold decodeScreen at h
  split at h
  · next rest =>
    cases h
    refine ⟨rfl, rfl, rest, ?_⟩
    simp only [encode, loByte_mkHalf, hiByte_mkHalf, lsdPacked_fields]
    rfl
  · cases h

/-- A palette read from bytes has the entries its depth field asks for, and its bytes stand at the front. -/
theorem decodePalette_eq_ok {mk : BitVec 3 → List Rgb → Instr} {n : BitVec 3} (h : decodePalette mk n bs = .ok i) :
    ∃ rgb : List Rgb, i = mk n rgb ∧ rgb.length = paletteEntries n ∧ ∃ rest, bs = tripleBytes rgb ++ rest := by
  unfold decodePalette at h
  split at h
  · next rgb hr =>
    cases h
    exact ⟨rgb, rfl, eq_tripleBytes_append_of_readTriples hr⟩
  · cases h

theorem readFrom_of_decodeBoundary (h : decodeBoundary bs = .ok i) : ReadFrom c .boundary bs i := by
  cases bs with
  | nil => cases h; exact ⟨rfl, rfl, [], rfl⟩
  | cons t rest => cases h; exact ⟨rfl, rfl, rest, rfl⟩

/-- The descriptor read after the introducer 0x2C. -/
theorem readFrom_of_decodeImage (h : decodeImage bs = .ok i) : ReadFrom c .introducer (0x2C :: bs) i := by
  unfold decodeImage at h
  split at h
  · next rest =>
    cases h
    refine ⟨rfl, rfl, rest, ?_⟩
    simp only [encode, loByte_mkHalf, hiByte_mkHalf, imgPacked_fields]
    rfl
  · cases h

theorem readFrom_of_decodeIntroducer (h : decodeIntroducer bs = .ok i) : ReadFrom c .introducer bs i := by
  unfold decodeIntroducer at h
  split at h
  · cases h
  · next t rest =>
    split_ifs at h with h21 h2C h3B
    · subst h21
      split at h
      · next label rest => cases h; exact ⟨rfl, rfl, rest, rfl⟩
      · cases h
    · subst h2C; exact readFrom_of_decodeImage h
    · subst h3B; cases h; exact ⟨rfl, rfl, rest, rfl⟩
    · cases h; exact ⟨Instr.wellFormed_blockInvalid.2 ⟨h21, h2C, h3B⟩, rfl, rest, rfl⟩

/-- The body read after the introducer 0x21 and the label 0xF9. -/
theorem readFrom_of_decodeGraphicsControl (h : decodeGraphicsControl bs = .ok i) :
    ReadFrom c .extension (0x21 :: graphicsControlLabel :: bs) i := by
  unfold decodeGraphicsControl at h
  split at h
  · next rest =>
    cases h
    refine ⟨rfl, rfl, rest, ?_⟩
    simp only [encode, loByte_mkHalf, hiByte_mkHalf, gcePacked_fields]
    rfl
  · cases h

theorem readFrom_of_decodeExtension (h : decodeExtension bs = .ok i) : ReadFrom c .extension bs i := by
  unfold decodeExtension at h
  split at h
  · next t label rest =>
    split_ifs at h with h21 hl
    · subst h21 hl; exact readFrom_of_decodeGraphicsControl h
    · subst h21; cases h; exact ⟨bne_iff_ne.2 hl, rfl, rest, rfl⟩
  · cases h

theorem readFrom_of_decodeSubBlock (h : decodeSubBlock bs = .ok i) : ReadFrom c .subBlock bs i := by
  cases bs with
  | nil => cases h
  | cons len rest =>
    cases h
    by_cases h0 : len = 0
    · subst h0; exact ⟨rfl, rfl, rest, rfl⟩
    · rw [if_neg h0]; exact ⟨bne_iff_ne.2 h0, rfl, rest, rfl⟩

theorem readFrom_of_decodeMinCodeSize (h : decodeMinCodeSize bs = .ok i) : ReadFrom c .minCodeSize bs i := by
  cases bs with
  | nil => cases h
  | cons m rest => cases h; exact ⟨rfl, rfl, rest, rfl⟩

end

/-- Settles O3: each format's reader takes its record's fields from the front of the bytes and leaves out no bit. -/
theorem encodeOfDecode : Obligations.EncodeOfDecode := by
  intro c f bs i hcode hdisposal h
  cases f with
  | header => exact readFrom_of_decodeHeader h
  | screen => exact readFrom_of_decodeScreen h
  | globalPalette n =>
    obtain ⟨rgb, rfl, hl, hbytes⟩ := decodePalette_eq_ok h
    exact ⟨beq_iff_eq.2 hl, rfl, hbytes⟩
  | boundary => exact readFrom_of_decodeBoundary h
  | introducer => exact readFrom_of_decodeIntroducer h
  | extension => exact readFrom_of_decodeExtension h
  | subBlock => exact readFrom_of_decodeSubBlock h
  | localPalette n =>
    obtain ⟨rgb, rfl, hl, hbytes⟩ := decodePalette_eq_ok h
    exact ⟨beq_iff_eq.2 hl, rfl, hbytes⟩
  | minCodeSize => exact readFrom_of_decodeMinCodeSize h
  | code c' => exact absurd rfl (hcode c')
  | disposal => exact absurd rfl hdisposal
  | blit => cases h; exact ⟨rfl, rfl, bs, rfl⟩
  | snapshot => cases h; exact ⟨rfl, rfl, bs, rfl⟩
  | store => cases h; exact ⟨rfl, rfl, bs, rfl⟩

/-- Settles O1: words written out from the encodings, each decoded by evaluation. -/
theorem wordsOfTheSpecDecode : Obligations.WordsOfTheSpecDecode := by
  unfold Obligations.WordsOfTheSpecDecode
  decide

end Sys2Proof
end

section
/-! PROOF. An instruction and its place (30_encoding.md R111): it stops everywhere else, and the step runs the one whose
record stands there. -/

namespace Sys2Proof.Machine

/-- A sub-block's length byte has a meaning in a chain only. -/
theorem execSub_of_not_chain {s : State} (len : Byte) (h : s.site.isChain = false) :
    execSub len s = .fault .misplaced := by
  unfold execSub
  split
  · next hs => rw [hs] at h; cases h
  · rfl

theorem execSubTerm_of_not_chain {s : State} (h : s.site.isChain = false) : execSubTerm s = .fault .misplaced := by
  unfold execSubTerm
  split
  · next hs => rw [hs] at h; cases h
  · rfl

/-- Settles O6: every meaning tests its place first. -/
theorem misplacedInstructionsStop : Obligations.MisplacedInstructionsStop := by
  intro i s h
  cases i with
  | sub len => exact execSub_of_not_chain len h
  | subTerm => exact execSubTerm_of_not_chain h
  | _ => exact if_neg (of_decide_eq_false h)

/-! ### The records of the places -/

/-- In image data the fetch reads a code. -/
theorem fetch_at_imageData {s : State} (h : s.site = .imageData) : fetch s = fetchCode s := if_pos h

/-- At a block boundary the record is one byte, where there is one left. -/
theorem recordAt_boundary_of_lt {s : State} (h : s.site = .boundary) (hc : s.cursor < s.bufLen) :
    recordAt s = some (.boundary, [Memory.read s.buf s.cursor]) := by
  rw [recordAt, h]
  simp only [Nat.not_le.2 hc, if_false, window_one, bufByte, hc, if_true]

theorem recordAt_boundary_of_le {s : State} (h : s.site = .boundary) (hc : s.bufLen ≤ s.cursor) :
    recordAt s = some (.boundary, []) := by
  rw [recordAt, h]
  simp only [hc, if_true]

/-- Settles O5: outside image data the step runs the record at the place, in image data what the read of a code gives;
the record at each place, with the bytes of its window, is the fetch's own. -/
theorem stepRunsTheDecodedInstruction : Obligations.StepRunsTheDecodedInstruction := by
  intro s bytes
  refine ⟨fun f bs i => step_of_record, ?code, ?dataEnd, ?truncated, ?outside, step_at_ended, ?header, ?screen,
    ?globalPalette, recordAt_boundary_of_lt, recordAt_boundary_of_le, ?introducer, ?extension, ?chain, ?localPalette,
    ?minCodeSize, ?dispose, ?blit, ?snapshot, ?store⟩
  case code => intro v s1 h hr; rw [step, fetch_at_imageData h, fetchCode, hr]; rfl
  case dataEnd => intro s1 h hr; rw [step, fetch_at_imageData h, fetchCode, hr]
  case truncated => intro s1 h hr; rw [step, fetch_at_imageData h, fetchCode, hr]
  case outside => intro h hr; rw [step, fetch_at_imageData h, fetchCode, hr]
  case globalPalette => intro n h; rw [recordAt, h]; rfl
  case introducer => intro t h; rw [recordAt, h]; rfl
  case extension => intro label h; rw [recordAt, h]; rfl
  case chain => intro owner h; rw [recordAt, h]; rfl
  case localPalette => intro n h; rw [recordAt, h]; rfl
  case header | screen | minCodeSize | dispose => intro h; rw [recordAt, h]; rfl
  case blit | snapshot | store => intro h; rw [recordAt, h]

end Sys2Proof.Machine
end

section
/-! PROOF. Every call ends (40_container_parser.md R140): each step lowers the budget. A record consumes a byte, a code
consumes bits, and a turn of the compositor goes down through its places to the next frame. -/

namespace Sys2Proof.Machine

variable {s t u : State}

/-! ### The bits a code consumes -/

/-- The bits that codes can still be made of: those in the buffer and those held by the bit reader. -/
def readerBits (s : State) : Nat := 8 * (s.bufLen - s.cursor) + s.lz.accBits

theorem openSubBlock_cursor_le (h : openSubBlock s = .ok u) : s.cursor ≤ u.cursor := by
  rcases openSubBlock_cases s with ⟨-, e⟩ | ⟨-, -, e⟩ | ⟨-, -, -, e⟩ | ⟨-, -, -, -, e⟩ | ⟨-, -, -, e⟩
  all_goals rw [e] at h; cases h
  · exact le_refl _
  · exact Nat.le_succ _

/-- A sub-block that does not open gives no code. -/
theorem openSubBlock_ne_code {v : Nat} : openSubBlock s ≠ .error (.code v u) := by
  rcases openSubBlock_cases s with ⟨-, e⟩ | ⟨-, -, e⟩ | ⟨-, -, -, e⟩ | ⟨-, -, -, -, e⟩ | ⟨-, -, -, e⟩
  all_goals rw [e]; nofun

/-- A sub-block's length byte is consumed, and a data byte goes from the buffer to the bits held. -/
theorem readerBits_pullByte_le (ho : openSubBlock s = .ok u) (hlt : u.cursor < u.bufLen) :
    readerBits (pullByte u) ≤ readerBits s := by
  have hcursor := openSubBlock_cursor_le ho
  have hbits := openSubBlock_accBits ho
  have hlen := (openSubBlock_sameButReader ho).bufLen_eq
  simp only [readerBits, pullByte]
  omega

/-- A read of a code consumes the code's bits (41_lzw_decoder.md R164). -/
theorem readCode_consumes {v : Nat} (hr : readCode s = .code v u) :
    readerBits u + s.lz.codeSize ≤ readerBits s := by
  refine gatherCode_induction
    (P := fun n t => SameButReader s t ∧ readerBits t ≤ readerBits s ∧ s.lz.codeSize ≤ t.lz.accBits + n)
    (Q := fun r => ∀ v u, r = .code v u → readerBits u + s.lz.codeSize ≤ readerBits s) ?pull ?stop ?out ?take
    ⟨.refl s, le_refl _, Nat.le_add_left _ _⟩ v u hr
  case pull =>
    rintro n t t1 ⟨ht, hle, hn⟩ - ho hlt
    have hbits := openSubBlock_accBits ho
    refine ⟨(ht.trans (openSubBlock_sameButReader ho)).trans ⟨rfl, rfl⟩,
      (readerBits_pullByte_le ho hlt).trans hle, ?_⟩
    simp only [pullByte]
    omega
  case stop =>
    rintro n t r - - ho v u rfl
    exact absurd ho openSubBlock_ne_code
  case out => exact fun _ _ _ _ _ _ _ _ h => nomatch h
  case take =>
    rintro n t ⟨ht, hle, hn⟩ hend v u h
    cases h
    have hsize : t.lz.codeSize = s.lz.codeSize := by rw [ht.lz]
    simp only [readerBits] at hle ⊢
    omega

/-- A code leaves the bits held alone. -/
theorem CodeTo.accBits_eq {lz lz' : LzRegs} {v : Nat} (h : CodeTo lz v lz') : lz'.accBits = lz.accBits := by
  cases h with
  | clear => rfl
  | freshLiteral => rw [emit_frame]
  | data => rw [LzRegs.afterData, emitStack_frame, growCodeSize_frame]

/-! ### The budget, place by place -/

theorem siteRank_le (p : Site) : siteRank p ≤ 4 := by cases p <;> simp [siteRank]

theorem framesLeft_of_parsing (h : s.site.parsing = true) : framesLeft s = s.frames.length := by
  cases hp : s.site with
  | dispose | blit | snapshot | store => rw [hp] at h; cases h
  | _ => rw [framesLeft, hp]

theorem bitsLeft_of_imageData (h : s.site = .imageData) : bitsLeft s = readerBits s := by
  rw [bitsLeft, if_pos h, readerBits]

theorem bitsLeft_of_ne (h : s.site ≠ .imageData) : bitsLeft s = 8 * (s.bufLen - s.cursor) := by
  rw [bitsLeft, if_neg h, Nat.add_zero]

theorem budget_of_ended (h : s.site = .ended) : budget s = 0 := if_pos h

theorem budget_of_ne (h : s.site ≠ .ended) :
    budget s = 8 * bitsLeft s + 4 * framesLeft s + siteRank s.site + 1 := if_neg h

theorem budget_of_parsing (h : s.site.parsing = true) :
    budget s = 8 * bitsLeft s + 4 * s.frames.length + siteRank s.site + 1 := by
  rw [budget_of_ne (Site.ne_ended_of_parsing h), framesLeft_of_parsing h]

/-- The end of the call takes the last of the budget. -/
theorem budget_lt_of_ended (hs : s.site ≠ .ended) (ht : t.site = .ended) : budget t < budget s := by
  rw [budget_of_ended ht, budget_of_ne hs]
  exact Nat.succ_pos _

/-- A byte of the buffer outweighs a frame appended and the rank of any place. -/
theorem budget_lt_of_byte (hs : s.site.parsing = true) (ht : t.site.parsing = true) (hlen : t.bufLen = s.bufLen)
    (hlt : s.cursor < t.cursor) (hle : t.cursor ≤ s.bufLen) (hframes : t.frames.length ≤ s.frames.length + 1)
    (hheld : t.site = .imageData → t.lz.accBits = 0) : budget t < budget s := by
  have hrank := siteRank_le t.site
  have hbits : bitsLeft t = 8 * (t.bufLen - t.cursor) := by
    rw [bitsLeft]; split
    · next h => rw [hheld h]; rfl
    · rfl
  have hbits' : 8 * (s.bufLen - s.cursor) ≤ bitsLeft s := Nat.le_add_right _ _
  rw [budget_of_parsing hs, budget_of_parsing ht]
  omega

/-- A code's bits leave the budget, whatever place follows it in the image block. -/
theorem budget_lt_of_code {v : Nat} (h : s.site = .imageData) (hr : readCode s = .code v u)
    (hsize : 0 < s.lz.codeSize) (ht : t.site.parsing = true) (hrank : siteRank t.site = 0)
    (hframes : t.frames = u.frames) (hbits : bitsLeft t ≤ readerBits u) : budget t < budget s := by
  have hread := readCode_consumes hr
  have hu : u.frames = s.frames := by rw [(sameButReader_of_code hr).rest]
  rw [budget_of_parsing ht, budget_of_parsing (by rw [h]; rfl), bitsLeft_of_imageData h, hframes, hu]
  omega

/-- Where no bit is consumed, the frames to composite and the rank of the place decide. -/
theorem budget_lt_of_rank (hs : s.site ≠ .ended) (ht : t.site ≠ .ended) (hs' : s.site ≠ .imageData)
    (ht' : t.site ≠ .imageData) (hlen : t.bufLen = s.bufLen) (hcursor : t.cursor = s.cursor)
    (h : 4 * framesLeft t + siteRank t.site < 4 * framesLeft s + siteRank s.site) : budget t < budget s := by
  rw [budget_of_ne hs, budget_of_ne ht, bitsLeft_of_ne hs', bitsLeft_of_ne ht', hlen, hcursor]
  omega

theorem paletteEntries_pos (n : BitVec 3) : 0 < paletteEntries n := Nat.two_pow_pos _

/-! ### Every step lowers the budget -/

theorem StepsTo.budget_lt (ht : StepsTo s t) (hs : Sound s) (hne : s.site ≠ .ended) : budget t < budget s := by
  have ⟨hcur, _, hlz, hdue⟩ := hs
  cases ht with
  | ended h => exact absurd h hne
  | raised | trailer | storeLast => exact budget_lt_of_ended hne rfl
  | globalPalette _ _ h _ hn | localPalette _ _ h _ hn =>
    exact budget_lt_of_byte (by rw [h]; rfl) rfl rfl (by simp [paletteEntries_pos]) hn (Nat.le_succ _) nofun
  | header _ h hn | nextBlock h hn | extension h hn | graphicsControl _ _ h _ hn
    | endExtension h hn | endControl _ _ h hn =>
    exact budget_lt_of_byte (by rw [h]; rfl) rfl rfl (by simp) hn (Nat.le_succ _) nofun
  | endImage h hn =>
    exact budget_lt_of_byte (by rw [h]; rfl) rfl rfl (Nat.lt_succ_self _) hn (by simp) nofun
  | minCodeSize m h hn =>
    exact budget_lt_of_byte (by rw [h]; rfl) rfl rfl (Nat.lt_succ_self _) hn (Nat.le_succ _) fun _ => rfl
  | screen scr g n h hn =>
    exact budget_lt_of_byte (by rw [h]; rfl) (by cases g <;> rfl) rfl (by simp) hn (Nat.le_succ _)
      (by cases g <;> exact nofun)
  | img d l n h hn =>
    exact budget_lt_of_byte (by rw [h]; rfl) (by cases l <;> rfl) rfl (by simp) hn (Nat.le_succ _)
      (by cases l <;> exact nofun)
  | sub owner n h hpos hn =>
    have hp : s.site.parsing = true := by rw [h]; rfl
    exact budget_lt_of_byte hp hp rfl (Nat.lt_add_of_pos_right hpos) hn (Nat.le_succ _)
      fun hd => nomatch h.symm.trans hd
  | code v u lz h hr hc =>
    have hu : u.site = .imageData := by rw [(sameButReader_of_code hr).rest]; exact h
    refine budget_lt_of_code h hr ((Nat.succ_pos _).trans_le (hlz h).size_lo) (by rw [hu]; rfl) (by rw [hu]; rfl)
      rfl ?_
    rw [bitsLeft_of_imageData (s := { u with lz := lz }) hu, readerBits, hc.accBits_eq]
    exact le_refl _
  | codeEnd v u h hr =>
    refine budget_lt_of_code h hr ((Nat.succ_pos _).trans_le (hlz h).size_lo) rfl rfl rfl ?_
    rw [bitsLeft_of_ne (by simp)]
    simp only [readerBits, goTo_bufLen, advance_bufLen, goTo_cursor, advance_cursor]
    omega
  | dataEnd u h hr =>
    have hu := sameButReader_of_dataEnd hr
    have hframes : u.frames = s.frames := by rw [hu.rest]
    have hin := readCode_inBuffer (hcur.2 h) hcur.1
    rw [hr] at hin
    obtain ⟨hle, hlt⟩ := hin
    exact budget_lt_of_byte (by rw [h]; rfl) rfl hu.bufLen_eq hlt (hu.bufLen_eq ▸ hle) (by simp [hframes]) nofun
  | extOther label h =>
    exact budget_lt_of_rank hne nofun (by rw [h]; nofun) nofun rfl rfl (by simp [framesLeft, h, siteRank])
  | compose h =>
    exact budget_lt_of_rank hne nofun (by rw [h]; nofun) nofun rfl rfl
      (by simp [framesLeft, h, siteRank, dropPending, FcRegs.reset])
  | dispose p cv h | snapshot f h | noSnapshot f h =>
    exact budget_lt_of_rank hne nofun (by rw [h]; nofun) nofun rfl rfl (by simp [framesLeft, h, siteRank])
  | blit f h =>
    cases hk : keepsSnapshot f <;>
      exact budget_lt_of_rank hne nofun (by rw [h]; nofun) nofun rfl rfl (by simp [framesLeft, h, siteRank])
  | store f h hf hi =>
    refine budget_lt_of_rank hne nofun (by rw [h]; nofun) nofun rfl rfl ?_
    simp only [framesLeft, goTo_site, goTo_frames, goTo_fc, List.length_set, h, siteRank]
    omega

/-! ### The run -/

/-- The run has ended, or has been refused. -/
def Finished (o : Out) : Prop := o = .refused .allocLimit ∨ ∃ t : State, o = .next t ∧ t.site = .ended

theorem run_succ_of_next {M : Host.Core} {k : Nat} {s t : M.State} (h : M.step s = .next t) :
    M.run (k + 1) s = M.run k t := by rw [Host.Core.run, h]

theorem run_succ_of_refused {M : Host.Core} {k : Nat} {s : M.State} {r : M.Refusal} (h : M.step s = .refused r) :
    M.run (k + 1) s = .refused r := by rw [Host.Core.run, h]

/-- A sound run finishes within its budget: the budget falls at each step. -/
theorem run_finishes {s : State} (hs : Sound s) : ∃ k, k ≤ budget s ∧ Finished (core.run k s) := by
  by_cases he : s.site = .ended
  · exact ⟨0, Nat.zero_le _, .inr ⟨s, rfl, he⟩⟩
  · rcases soundRunsNeverFault s hs with hr | ⟨t, ht, hst⟩
    · exact ⟨1, by rw [budget_of_ne he]; exact Nat.succ_pos _, .inl (run_succ_of_refused (M := core) hr)⟩
    · have hlt : budget t < budget s := (stepsTo_of_step ht).budget_lt hs he
      obtain ⟨k, hk, hfin⟩ := run_finishes hst
      exact ⟨k + 1, hk.trans_lt hlt, run_succ_of_next (M := core) ht ▸ hfin⟩
termination_by budget s

/-- Settles O60: every step of a sound run lowers the budget, and a sound step never faults. -/
theorem everyCallEnds : Obligations.EveryCallEnds :=
  fun _ hs => ⟨fun _ hne ht => (stepsTo_of_step ht).budget_lt hs hne, run_finishes hs⟩

end Sys2Proof.Machine
end

section
/-! PROOF. The records of the container parser (40_container_parser.md R121 to R137): what each consumes, writes and
raises. -/

namespace Sys2Proof.Machine

variable {s : State} {p : Site} {n : Nat} {g : StepTag} {rest : Out}

/-! ### A record at its place, behind its length check -/

/-- A record at its place whose bytes are there goes on. -/
theorem placed_of_le (h : s.site = p) (hn : s.cursor + n ≤ s.bufLen) :
    (if s.site = p then need n g s rest else .fault .misplaced) = rest := (if_pos h).trans (need_of_le hn)

/-- A record at its place whose bytes are not there raises TruncatedStream under the record's tag. -/
theorem placed_of_lt (h : s.site = p) (hn : s.bufLen < s.cursor + n) :
    (if s.site = p then need n g s rest else .fault .misplaced) = .next (raise .truncatedStream g s) :=
  (if_pos h).trans (need_of_lt hn)

/-! ### Header and screen descriptor -/

/-- Settles O10: the three meanings share the length check. -/
theorem headerIsRead : Obligations.HeaderIsRead := fun _ h =>
  ⟨fun hn => ⟨placed_of_le h hn, placed_of_le h hn, fun _ _ _ _ _ _ => placed_of_le h hn⟩,
    fun hn => ⟨placed_of_lt h hn, placed_of_lt h hn, fun _ _ _ _ _ _ => placed_of_lt h hn⟩⟩

/-- Six bytes that are no signature are a SIG-BAD record (30_encoding.md R91). -/
theorem decode_header_of_ne {bs : List Byte} (hl : bs.length = 6) (h7 : bs ≠ [0x47, 0x49, 0x46, 0x38, 0x37, 0x61])
    (h9 : bs ≠ [0x47, 0x49, 0x46, 0x38, 0x39, 0x61]) :
    ∃ b0 b1 b2 b3 b4 b5, decode .header bs = .ok (.sigBad b0 b1 b2 b3 b4 b5) := by
  match bs, hl with
  | [b0, b1, b2, b3, b4, b5], _ =>
    exact ⟨b0, b1, b2, b3, b4, b5, by rw [decode, decodeHeader, if_neg h7, if_neg h9]⟩

/-- Settles O11: the six bytes of the window decide which of the three meanings the step runs. -/
theorem headerStepChecksTheSignature : Obligations.HeaderStepChecksTheSignature := by
  intro s h
  obtain ⟨hread, hshort⟩ := headerIsRead s h
  have hrec : recordAt s = some (.header, window s 6) := by rw [recordAt, h]
  refine ⟨fun hn => ?_, fun hn => ?_⟩
  · obtain ⟨h87, h89, hbad⟩ := hshort hn
    rcases step_at_header h with e | e | e
    · exact e.trans h87
    · exact e.trans h89
    · exact e.trans (hbad 0 0 0 0 0 0)
  · obtain ⟨h87, h89, hbad⟩ := hread hn
    refine ⟨fun hb => ?_, fun hb => ?_, fun h7 h9 => ?_⟩
    · exact (step_of_record (hb ▸ hrec) rfl).trans h87
    · exact (step_of_record (hb ▸ hrec) rfl).trans h89
    · obtain ⟨b0, b1, b2, b3, b4, b5, hd⟩ := decode_header_of_ne (window_length s 6) h7 h9
      exact (step_of_record hrec hd).trans (hbad b0 b1 b2 b3 b4 b5)

/-- Settles O12: the flag decides whether the global palette follows. -/
theorem screenDescriptorIsRecorded : Obligations.ScreenDescriptorIsRecorded := by
  intro s w hh g ignored n bg aspect h
  refine ⟨fun hn => ?_, fun hn => placed_of_lt h hn⟩
  cases g <;> exact placed_of_le h hn

/-- Settles O13: both palettes are read by one length check on their entries' bytes. -/
theorem palettesAreRead : Obligations.PalettesAreRead := fun _ _ _ =>
  ⟨fun h => ⟨fun hn => placed_of_le h hn, fun hn => placed_of_lt h hn⟩,
    fun h => ⟨fun hn => placed_of_le h hn, fun hn => placed_of_lt h hn⟩⟩

/-! ### Blocks and extensions -/

/-- At the end of the buffer a block boundary raises MalformedStream(BLOCK_TYPE) (40_container_parser.md R124). -/
theorem step_at_boundary_of_le (h : s.site = .boundary) (hc : s.bufLen ≤ s.cursor) :
    step s = .next (raise .malformedStream .blockType s) :=
  (step_of_record (recordAt_boundary_of_le h hc) (i := .eofAtBoundary) rfl).trans (if_pos h)

/-- Settles O14: the introducer is consumed where there is one. -/
theorem nextBlockReadsTheIntroducer : Obligations.NextBlockReadsTheIntroducer := by
  intro s t h
  refine ⟨fun hlt => ?_, fun he => ⟨?_, step_at_boundary_of_le h he.ge⟩, if_pos h⟩
  · exact (if_pos h).trans (if_neg (Nat.not_le.2 hlt))
  · exact (if_pos h).trans (if_pos he.ge)

/-- Settles O15: an introducer that selects no record is a BLOCK-INVALID record. -/
theorem invalidIntroducerRaises : Obligations.InvalidIntroducerRaises := by
  intro s t h
  have hexec : exec (.blockInvalid t) s = .next (raise .malformedStream .blockType s) := if_pos h
  refine ⟨hexec, fun h21 h2C h3B => ?_⟩
  rcases step_at_introducer h with ⟨ht, -⟩ | ⟨ht, -⟩ | ⟨ht, -⟩ | ⟨-, -, -, e⟩
  · exact absurd ht h21
  · exact absurd ht h2C
  · exact absurd ht h3B
  · exact e.trans hexec

/-- Settles O16: the label is read behind its length check; EXT-OTHER reads nothing. -/
theorem extensionReadsTheLabel : Obligations.ExtensionReadsTheLabel := fun _ _ =>
  ⟨fun h hn => placed_of_le h hn, fun h hn => placed_of_lt h hn, fun h => if_pos h⟩

/-- The graphics control's block size is 4 exactly when the byte is (30_encoding.md R97). -/
theorem toNat_eq_graphicsControlSize {size : Byte} : size.toNat = Config.graphicsControlSize ↔ size = 4 :=
  (BitVec.toNat_inj (x := size) (y := 4))

/-- The map of 40_container_parser.md R130 from disposal codes to methods. -/
theorem disposalOfCode_map :
    disposalOfCode 0 = .unspecified ∧ disposalOfCode 1 = .none ∧ disposalOfCode 2 = .background ∧
      disposalOfCode 3 = .previous ∧ ∀ c : BitVec 3, 4 ≤ c.toNat → disposalOfCode c = .unspecified := by decide

/-- Settles O17: the size byte, its check and the body, in the order of R129. -/
theorem graphicsControlIsRead : Obligations.GraphicsControlIsRead := by
  intro s size hi d lo t delay k h
  refine ⟨fun hn => placed_of_lt h hn, fun hn hsize => ?_, fun hn hbody hsize => ?_, fun hn hsize => ?_,
    disposalOfCode_map⟩
  · exact (placed_of_le h hn).trans (if_pos (mt toNat_eq_graphicsControlSize.1 hsize))
  · have hs := toNat_eq_graphicsControlSize.2 hsize
    exact (placed_of_le h hn).trans ((if_neg (not_not_intro hs)).trans (need_of_lt (s := advance 1 s) hbody))
  · have hs := toNat_eq_graphicsControlSize.2 hsize
    have hn1 : s.cursor + 1 ≤ s.bufLen := by omega
    exact (placed_of_le h hn1).trans ((if_neg (not_not_intro hs)).trans (need_of_le (s := advance 1 s) hn))

/-! ### Sub-block chains -/

theorem execSub_of_chain {owner : ChainOwner} (len : Byte) (h : s.site = .chain owner) :
    execSub len s = need 1 (chainTag owner) s
      (need len.toNat (chainTag owner) (advance 1 s) (.next (advance (1 + len.toNat) s))) := by
  rw [execSub, h]

theorem execSubTerm_of_chain {owner : ChainOwner} (h : s.site = .chain owner) :
    execSubTerm s = need 1 (chainTag owner) s (.next (endChain owner (advance 1 s))) := by
  rw [execSubTerm, h]

/-- Settles O18: the length byte is checked, then the whole length, under the owner's tag. -/
theorem subBlocksAreSkipped : Obligations.SubBlocksAreSkipped := by
  intro s owner len h
  have hsub := execSub_of_chain len h
  refine ⟨fun hn => ?_, fun hn => ⟨?_, ?_⟩, fun hn hlen => ?_, rfl, rfl, fun _ _ => rfl⟩
  · exact hsub.trans ((need_of_le (by omega)).trans (need_of_le (s := advance 1 s) hn))
  · exact hsub.trans (need_of_lt hn)
  · exact (execSubTerm_of_chain h).trans (need_of_lt hn)
  · exact hsub.trans ((need_of_le hn).trans (need_of_lt (s := advance 1 s) hlen))

/-- Settles O19: what follows the terminator depends on the chain's owner. -/
theorem terminatorEndsTheChain : Obligations.TerminatorEndsTheChain := fun _ hn =>
  ⟨fun h => (execSubTerm_of_chain h).trans (need_of_le hn),
    fun _ _ h => (execSubTerm_of_chain h).trans (need_of_le hn),
    fun h => (execSubTerm_of_chain h).trans (need_of_le hn)⟩

/-! ### Images -/

/-- Settles O20: the flag decides whether the local palette follows. -/
theorem imageDescriptorIsRecorded : Obligations.ImageDescriptorIsRecorded := by
  intro s x y w hh l il ignored n h
  refine ⟨fun hn => ?_, fun hn => placed_of_lt h hn⟩
  cases l <;> exact placed_of_le h hn

/-- A `minCodeSize` in 1..12 is legal (40_container_parser.md R134). -/
theorem not_illegal_minCodeSize {m : Byte} (hlo : 1 ≤ m.toNat) (hhi : m.toNat ≤ 12) :
    ¬ (m.toNat < Config.minCodeSizeLo ∨ m.toNat > Config.minCodeSizeHi) :=
  not_or.2 ⟨Nat.not_lt.2 hlo, Nat.not_lt.2 hhi⟩

/-- A legal `minCodeSize` asks for the index buffer's room (40_container_parser.md R134, R135). -/
theorem execLzwMin_of_legal {m : Byte} (h : s.site = .minCodeSize) (hn : s.cursor + 1 ≤ s.bufLen)
    (hlo : 1 ≤ m.toNat) (hhi : m.toNat ≤ 12) :
    execLzwMin m s = allocate (indexBytes s.desc) s
      (.next (goTo .imageData { advance 1 s with lz := initLzw m.toNat s.desc })) :=
  (placed_of_le h hn).trans (if_neg (not_illegal_minCodeSize hlo hhi))

/-- Settles O21: the registers are those of `Init`. -/
theorem minCodeSizeStartsTheDecode : Obligations.MinCodeSizeStartsTheDecode := by
  intro s m h hn hlo hhi hroom
  have hfit := initLzw_fits s.desc hlo hhi
  have hclear := hfit.clear
  have havail : (initLzw m.toNat s.desc).avail = 2 ^ m.toNat + 2 := congrArg (· + 2) hclear
  refine ⟨initLzw m.toNat s.desc, (execLzwMin_of_legal h hn hlo hhi).trans (allocate_of_le hroom), rfl, hclear,
    hfit.endc, rfl, havail, rfl, fun i hi => hfit.roots i (hclear ▸ hi), ?_⟩
  exact ⟨rfl, rfl, rfl, rfl, rfl, rfl, fun _ => rfl, rfl, rfl, rfl⟩

/-- A buffer that is present counts, one that is absent does not. -/
theorem ite_isSome_eq {α : Type} [DecidableEq α] (o : Option α) (n : Nat) :
    (if o.isSome then n else 0) = if o = none then 0 else n := by cases o <;> rfl

/-- Settles O22: the byte is checked before its range, and the range before the room for the index buffer. -/
theorem minCodeSizeTurnedAway : Obligations.MinCodeSizeTurnedAway := by
  refine ⟨fun _ => rfl, fun _ => rfl, fun s => ?_, fun s m h => ⟨fun hn => placed_of_lt h hn, fun hn hm => ?_, ?_⟩⟩
  · simp only [allocated, ite_isSome_eq]
  · exact (placed_of_le h hn).trans (if_pos hm)
  · exact fun hn hlo hhi hroom => (execLzwMin_of_legal h hn hlo hhi).trans (allocate_of_lt hroom)

/-! ### The trailer -/

/-- The trailer of a call that composites asks for the canvas's room (40_container_parser.md R139). -/
theorem execTrailer_of_composite (h : s.site = .introducer 0x3B) (he : s.compositeEnable = true) :
    execTrailer s = allocate (canvasBytes s) s (.next (beginComposite (dropPending s))) :=
  (if_pos h).trans (if_pos he)

/-- Settles O23: compositing starts only when it is on and there is a frame. -/
theorem trailerEndsTheStream : Obligations.TrailerEndsTheStream := by
  intro s h done
  refine ⟨fun he => ?_, fun he hroom hf => ?_, fun he hroom hf => ?_, fun he hroom => ?_⟩
  · exact (if_pos h).trans (if_neg (by simp [he]))
  · exact (execTrailer_of_composite h he).trans ((allocate_of_le hroom).trans
      (congrArg _ (if_pos (List.isEmpty_iff.2 hf))))
  · exact (execTrailer_of_composite h he).trans ((allocate_of_le hroom).trans
      (congrArg _ (if_neg (mt List.isEmpty_iff.1 hf))))
  · exact (execTrailer_of_composite h he).trans (allocate_of_lt hroom)

end Sys2Proof.Machine
end

section
/-! PROOF. Every kept disposal code is the one its method came from (40_container_parser.md R130; log entry 10). -/

namespace Sys2Proof.Machine

variable {s t u : State}

theorem SameButReader.opcodesFit (h : SameButReader s u) (hs : OpcodesFit s) : OpcodesFit u := by
  obtain ⟨hlen, hframes, hpend, hread⟩ := hs
  rw [h.rest]
  exact ⟨hlen, hframes, hpend, hread⟩

/-- The end of a call drops every frame and every control. -/
theorem opcodesFit_endCall (p : Phase) (r : Result) (u : State) : OpcodesFit (endCall p r u) :=
  ⟨rfl, nofun, nofun, nofun⟩

/-- The method a completed image's frame takes is that of the code kept with it: the pending one's, or UNSPECIFIED. -/
theorem OpcodesFit.disposalOf_pending (hs : OpcodesFit s) {f : Frame} (hf : f.gc = s.pendingGC) :
    disposalOf f = disposalOfCode (if s.pendingGC.isSome then s.pendingOpcode else 0) := by
  rw [disposalOf, hf]
  cases hp : s.pendingGC with
  | none => rfl
  | some g => exact hs.pending g hp

/-- A completed image appends its frame and that frame's code. -/
theorem OpcodesFit.completeImage (hs : OpcodesFit s) : OpcodesFit (completeImage s) := by
  refine ⟨?_, fun i f c hf hc => ?_, nofun, nofun⟩
  · simp [hs.length]
  rw [completeImage_frames] at hf
  rw [completeImage_opcodes] at hc
  rcases Nat.lt_or_ge i s.frames.length with hi | hi
  · rw [List.getElem?_append_left hi] at hf
    rw [List.getElem?_append_left (hs.length ▸ hi)] at hc
    exact hs.frames i f c hf hc
  · rw [List.getElem?_append_right hi] at hf
    rw [List.getElem?_append_right (hs.length ▸ hi), hs.length] at hc
    obtain rfl := List.mem_singleton.1 (List.mem_of_getElem? hf)
    obtain rfl := List.mem_singleton.1 (List.mem_of_getElem? hc)
    exact hs.disposalOf_pending rfl

/-- A rendered buffer changes no frame's method. -/
theorem OpcodesFit.disposalOf_setRendered (hs : OpcodesFit s) {f : Frame} {m : Memory} (hf : currentFrame s = some f)
    (i : Nat) (f' : Frame) (c : BitVec 3) (hf' : (s.frames.set s.fc.i { f with rendered := some m })[i]? = some f')
    (hc : s.opcodes[i]? = some c) : disposalOf f' = disposalOfCode c := by
  by_cases hi : s.fc.i = i
  · subst hi
    obtain ⟨hlt, -⟩ := List.getElem?_eq_some_iff.1 hf
    rw [List.getElem?_set_self hlt] at hf'
    cases hf'
    exact hs.frames _ f c hf hc
  · rw [List.getElem?_set_ne hi] at hf'
    exact hs.frames i f' c hf' hc

theorem StepsTo.opcodesFit (ht : StepsTo s t) (hs : OpcodesFit s) : OpcodesFit t := by
  have ⟨hlen, hframes, hpend, hread⟩ := hs
  cases ht with
  | ended => exact hs
  | raised | trailer | storeLast => exact opcodesFit_endCall _ _ _
  | screen scr g => cases g <;> exact ⟨hlen, hframes, hpend, nofun⟩
  | img d l => cases l <;> exact ⟨hlen, hframes, hpend, nofun⟩
  | graphicsControl g opcode h hg => exact ⟨hlen, hframes, hpend, by rintro _ _ ⟨⟩; exact hg⟩
  | sub => exact ⟨hlen, hframes, hpend, hread⟩
  | endControl g opcode h => exact ⟨hlen, hframes, by rintro _ ⟨⟩; exact hread g opcode h, nofun⟩
  | endImage => exact OpcodesFit.completeImage (s := advance 1 s) ⟨hlen, hframes, hpend, hread⟩
  | dataEnd u h hr => exact ((sameButReader_of_dataEnd hr).opcodesFit hs).completeImage
  | compose => exact ⟨hlen, hframes, nofun, nofun⟩
  | code v u lz h hr =>
    obtain ⟨hlen, hframes, hpend, hread⟩ := (sameButReader_of_code hr).opcodesFit hs
    exact ⟨hlen, hframes, hpend, hread⟩
  | codeEnd v u h hr =>
    obtain ⟨hlen, hframes, hpend, -⟩ := (sameButReader_of_code hr).opcodesFit hs
    exact ⟨hlen, hframes, hpend, nofun⟩
  | blit f => cases hk : keepsSnapshot f <;> exact ⟨hlen, hframes, hpend, nofun⟩
  | store f h hf => exact ⟨hlen.trans List.length_set.symm, hs.disposalOf_setRendered hf, hpend, nofun⟩
  | header | globalPalette | nextBlock | extension | extOther | endExtension | localPalette | minCodeSize | dispose
    | snapshot | noSnapshot => exact ⟨hlen, hframes, hpend, nofun⟩

/-- Settles O55: a graphics control is read with its code, the end of its chain and of an image pass both on together,
and no other step writes either. -/
theorem opcodesKeepTheirMethods : Obligations.OpcodesKeepTheirMethods :=
  fun _ _ hs ht => (stepsTo_of_step ht).opcodesFit hs

end Sys2Proof.Machine
end

section
/-! PROOF. StackOverflow cannot occur (41_lzw_decoder.md R185): the chains of the tables strictly descend, so a string is
no longer than its code's number, and every code with a string is below 4096. -/

namespace Sys2Proof.Machine

variable {s t : State}

/-- The string of a code is at most one character longer than the code's number: each character but the root's is one
step down the chain. -/
theorem LzFits.exists_spells {lz : LzRegs} (h : LzFits lz) (c : Nat) (hc : lz.HasString c) :
    ∃ l, Spells lz c l ∧ l.length ≤ c + 1 := by
  induction c using Nat.strong_induction_on with
  | _ c ih =>
    by_cases hroot : c < lz.clearCode
    · exact ⟨[c], .root c hroot, Nat.le_add_left 1 c⟩
    · obtain ⟨hlt, hne, hne'⟩ := hc
      have hend := h.endc_eq
      have hdesc : Elements.read lz.prefixTab c < c := (h.table c (by omega) hlt).1
      obtain ⟨l, hl, hlen⟩ := ih _ hdesc (h.hasString_entry ⟨hlt, hne, hne'⟩ hroot).1
      refine ⟨l ++ [Elements.read lz.suffixTab c], .entry c l (Nat.not_lt.1 hroot) hl, ?_⟩
      rw [List.length_append, List.length_singleton]
      omega

/-- Every code with a string is below 4096: at `m = 12`, where the table holds none, it is a root (R186). -/
theorem LzFits.hasString_lt {lz : LzRegs} (h : LzFits lz) {c : Nat} (hc : lz.HasString c) : c < 4096 := by
  obtain ⟨hlt, hne, hne'⟩ := hc
  have hend := h.endc_eq
  have hclear := h.clearCode_le
  rcases h.avail_hi with ha | ⟨-, ha⟩ <;> omega

/-- A data code resolves within the stack bound: its string has at most 4096 characters, and the KwKwK code's one
more. -/
theorem LzFits.resolveCode_ne_none {lz : LzRegs} (h : LzFits lz) {v old : Nat} (ho : lz.oldCode = some old)
    (hv : v = lz.avail ∨ lz.HasString v) : resolveCode lz v old ≠ none := by
  by_cases hav : v = lz.avail
  · obtain ⟨hlt, hne, hne', -⟩ := h.old old ho
    have hstr : lz.HasString old := ⟨hlt, hne, hne'⟩
    obtain ⟨l, hl, hlen⟩ := h.exists_spells old hstr
    have hold := h.hasString_lt hstr
    rw [hav, resolveCode_avail h.stack hl, if_pos (by omega)]
    exact nofun
  · have hstr := hv.resolve_left hav
    obtain ⟨l, hl, hlen⟩ := h.exists_spells v hstr
    have hlt := h.hasString_lt hstr
    rw [resolveCode_of_spells h.stack hav hl, if_pos (by omega)]
    exact nofun

/-- The read of a code writes no result. -/
theorem SameButReader.result_eq (h : SameButReader s t) : t.result = s.result := by rw [h.rest]

/-- Only a data code raises StackOverflow; a step that aborts for another cause reports another kind, one that goes on
keeps the result, and the others end with a success. -/
theorem StepsTo.result_ne_stackOverflow (ht : StepsTo s t) (hs : LzInRange s) (hrun : s.result = .running)
    (g : StepTag) : t.result ≠ .failure .stackOverflow g := by
  have hkeep {u : State} (hu : u.result = s.result) : u.result ≠ .failure .stackOverflow g := by
    rw [hu, hrun]; nofun
  cases ht with
  | raised u k g' hu hk hstack =>
    rintro ⟨⟩
    obtain ⟨v, old, h, hr, ho, hv, hclear, hend, hnone⟩ := hstack rfl
    have hfit : LzFits u.lz := ((hs h).of_readCode hr).1
    exact hfit.resolveCode_ne_none ho (hfit.avail_or_hasString hv hclear hend) hnone
  | code v u lz h hr => exact hkeep (u := { u with lz := lz }) (sameButReader_of_code hr).result_eq
  | codeEnd v u h hr => exact hkeep (u := goTo _ _) (sameButReader_of_code hr).result_eq
  | dataEnd u h hr => exact hkeep (u := completeImage u) (sameButReader_of_dataEnd hr).result_eq
  | trailer | storeLast => exact nofun
  | _ => exact hkeep rfl

/-- Settles O52: the only raise of StackOverflow is a data code's, whose string is within the stack bound. -/
theorem stackOverflowIsNeverRaised : Obligations.StackOverflowIsNeverRaised :=
  fun _ _ g hs hrun ht => (stepsTo_of_step ht).result_ne_stackOverflow hs hrun g

end Sys2Proof.Machine
end

section
/-! PROOF. `ReadCode` (41_lzw_decoder.md R164 to R166): the read turn by turn, and the code as the low bits of the data
string. -/

namespace Sys2Proof.Machine

variable {s u : State}

/-! ### One turn of the read -/

/-- With enough bits held the read takes the code. -/
theorem readCode_of_le (h : s.lz.codeSize ≤ s.lz.accBits) : readCode s = takeCode s :=
  gatherCode_turns (m := 0) (Nat.le_add_left _ _) h

/-- Where a code is not yet held and no sub-block opens, the read ends. -/
theorem readCode_of_error {r : CodeRead} (h : s.lz.accBits < s.lz.codeSize) (ho : openSubBlock s = .error r) :
    readCode s = r := by
  obtain ⟨n, hn⟩ := Nat.exists_eq_add_one_of_ne_zero (Nat.ne_zero_of_lt h)
  rw [readCode, hn, gatherCode, if_neg (Nat.not_le.2 h), ho]

/-- Where a code is not yet held and a sub-block has data, one byte is pulled and the read goes on. -/
theorem readCode_of_ok (h : s.lz.accBits < s.lz.codeSize) (ho : openSubBlock s = .ok u) (hlt : u.cursor < u.bufLen) :
    readCode s = readCode (pullByte u) := by
  obtain ⟨n, hn⟩ := Nat.exists_eq_add_one_of_ne_zero (Nat.ne_zero_of_lt h)
  have hsize : u.lz.codeSize = s.lz.codeSize := by rw [(openSubBlock_sameButReader ho).lz]
  have hturn : readCode s = gatherCode n (pullByte u) := by
    rw [readCode, hn, gatherCode, if_neg (Nat.not_le.2 h), ho]
    exact if_neg (Nat.not_le.2 hlt)
  rw [hturn]
  exact gatherCode_turns (by simp only [pullByte]; omega) (Nat.le_add_left _ _)

theorem openSubBlock_of_ne (h : s.lz.blockRemaining ≠ 0) : openSubBlock s = .ok s := if_pos h

theorem bufByte_of_lt {a : Nat} (h : a < s.bufLen) : bufByte s a = Memory.read s.buf a := if_pos h

/-- Bits put above those held are added to them. -/
theorem or_shiftLeft_eq_add {acc n : Nat} (b : Nat) (h : acc < 2 ^ n) : acc ||| b <<< n = acc + 2 ^ n * b := by
  rw [Nat.shiftLeft_eq, Nat.mul_comm, Nat.or_comm, ← Nat.two_pow_add_eq_or_of_lt h, Nat.add_comm]

/-- One data byte goes above the bits held. -/
theorem pullByte_eq (h : s.lz.acc < 2 ^ s.lz.accBits) :
    pullByte s =
      { s with
        cursor := s.cursor + 1,
        lz := { s.lz with
          acc := s.lz.acc + 2 ^ s.lz.accBits * (bufByte s s.cursor).toNat, accBits := s.lz.accBits + 8,
          blockRemaining := s.lz.blockRemaining - 1 } } := by
  rw [pullByte, or_shiftLeft_eq_add _ h]

/-- Settles O25: each turn pulls a byte, opens the next sub-block, or ends the read. -/
theorem readCodeCrossesSubBlocks : Obligations.ReadCodeCrossesSubBlocks := by
  intro s hbits
  refine ⟨fun hb hacc hlt => ?_, fun hb hlt => ?_, fun hb hlt => ?_⟩
  · rw [readCode_of_ok hbits (openSubBlock_of_ne (Nat.ne_zero_of_lt hb)) hlt, pullByte_eq hacc, bufByte_of_lt hlt]
  · refine readCode_of_error hbits ?_
    rw [openSubBlock, if_neg (not_not_intro hb), if_pos hlt]
  · intro len
    have hbyte : (bufByte s s.cursor).toNat = len := congrArg _ (bufByte_of_lt hlt)
    rcases openSubBlock_cases s with ⟨hne, -⟩ | ⟨-, hno, -⟩ | ⟨-, -, h0, e⟩ | ⟨-, -, h0, hcut, e⟩ | ⟨-, h0, hfit, e⟩
    · exact absurd hb hne
    · exact absurd hlt (Nat.not_le.2 hno)
    · rw [hbyte] at h0
      exact ⟨fun _ => readCode_of_error hbits e, fun h => absurd h0 h, fun h => absurd h0 h⟩
    · rw [hbyte] at h0 hcut
      exact ⟨fun h => absurd h h0, fun _ _ => readCode_of_error hbits e, fun _ h => absurd h (Nat.not_le.2 hcut)⟩
    · rw [hbyte] at h0 hfit e
      refine ⟨fun h => absurd h h0, fun _ h => absurd hfit (Nat.not_le.2 h), fun _ _ => ?_⟩
      have hdata : s.cursor + 1 < s.bufLen := by omega
      exact (readCode_of_ok hbits e hdata).trans (Eq.symm (readCode_of_ok hbits (openSubBlock_of_ne h0) hdata))

/-! ### The code as the low bits of the data string -/

/-- The bits held, with the next `k` bytes of the data string above them, as one number (30_encoding.md R103). -/
def bitString (s : State) (k : Nat) : Nat := s.lz.acc + 2 ^ s.lz.accBits * leNat (window s k)

/-- A pulled byte is the first of those at the cursor. -/
theorem window_succ (s : State) (k : Nat) : window s (k + 1) = bufByte s s.cursor :: window (pullByte s) k := by
  rw [window, window, List.range_succ_eq_map, List.map_cons, List.map_map]
  refine congrArg _ (List.map_congr_left fun j _ => ?_)
  exact congrArg (bufByte s) (Nat.add_right_comm s.cursor j 1)

/-- A pull moves a byte from the data string to the bits held. -/
theorem bitString_pullByte (h : s.lz.acc < 2 ^ s.lz.accBits) (k : Nat) :
    bitString (pullByte s) k = bitString s (k + 1) := by
  rw [bitString, bitString, window_succ, leNat]
  simp only [pullByte, or_shiftLeft_eq_add _ h]
  ring

theorem pullByte_acc_lt (h : s.lz.acc < 2 ^ s.lz.accBits) : (pullByte s).lz.acc < 2 ^ (pullByte s).lz.accBits := by
  have hb := (bufByte s s.cursor).isLt
  calc (pullByte s).lz.acc = s.lz.acc + 2 ^ s.lz.accBits * (bufByte s s.cursor).toNat := or_shiftLeft_eq_add _ h
    _ < 2 ^ s.lz.accBits * ((bufByte s s.cursor).toNat + 1) := by rw [Nat.mul_succ]; omega
    _ ≤ 2 ^ s.lz.accBits * 2 ^ 8 := Nat.mul_le_mul_left _ hb
    _ = 2 ^ (s.lz.accBits + 8) := (Nat.pow_add ..).symm

/-- The code is the low `codeSize` bits of those held (R164). -/
theorem takeCode_eq (s : State) :
    takeCode s = .code (s.lz.acc % 2 ^ s.lz.codeSize)
      { s with lz := { s.lz with
        acc := s.lz.acc / 2 ^ s.lz.codeSize, accBits := s.lz.accBits - s.lz.codeSize } } := by
  rw [takeCode, Nat.one_shiftLeft, Nat.and_two_pow_sub_one_eq_mod, Nat.shiftRight_eq_div_pow]

/-- A read inside one sub-block that needs `k` more bytes, by induction on them: each pull leaves the bit string as it
was and needs one byte less. -/
theorem readCode_of_bytes {k : Nat} (hacc : s.lz.acc < 2 ^ s.lz.accBits) (hb : k ≤ s.lz.blockRemaining)
    (hc : s.cursor + k ≤ s.bufLen) (hle : s.lz.codeSize ≤ s.lz.accBits + 8 * k)
    (hmin : k = 0 ∨ s.lz.accBits + 8 * (k - 1) < s.lz.codeSize) :
    readCode s = .code (bitString s k % 2 ^ s.lz.codeSize)
      { s with
        cursor := s.cursor + k,
        lz := { s.lz with
          acc := bitString s k / 2 ^ s.lz.codeSize, accBits := s.lz.accBits + 8 * k - s.lz.codeSize,
          blockRemaining := s.lz.blockRemaining - k } } := by
  induction k generalizing s with
  | zero => rw [readCode_of_le hle, takeCode_eq]; rfl
  | succ k ih =>
    have hrest := ih (s := pullByte s) (pullByte_acc_lt hacc) (by simp only [pullByte]; omega)
      (by simp only [pullByte]; omega) (by simp only [pullByte]; omega) (by simp only [pullByte]; omega)
    rw [readCode_of_ok (by omega) (openSubBlock_of_ne (by omega)) (by omega), hrest, bitString_pullByte hacc]
    simp only [pullByte, Nat.add_assoc, Nat.add_comm 1 k, Nat.mul_succ, Nat.add_comm 8, Nat.sub_sub]

/-- Settles O24: the bit string is the number of the statement. -/
theorem readCodeTakesTheLowBits : Obligations.ReadCodeTakesTheLowBits :=
  fun _ _ hacc hb hc hle hmin => readCode_of_bytes hacc hb hc hle hmin

/-- Settles O26: neither opening a sub-block, nor pulling a byte, nor taking the code writes another register. -/
theorem readCodeFrame : Obligations.ReadCodeFrame := by
  intro s u h
  have hu : SameButReader s u := by
    rcases h with ⟨v, hr⟩ | hr | hr
    · exact sameButReader_of_code hr
    · exact sameButReader_of_dataEnd hr
    · exact readCode_sameButReader (by rw [hr]; rfl)
  obtain ⟨hrest, hlz⟩ := hu
  exact hrest.trans (congrArg (fun lz => { s with cursor := u.cursor, lz := lz }) hlz)

end Sys2Proof.Machine
end

section
/-! PROOF. The code classes (41_lzw_decoder.md R166 to R179): what each does to the state the read of its code leaves. -/

namespace Sys2Proof.Machine

variable {s u : State} {v : Nat}

/-! ### Clear code, end code, invalid codes and the end of the data -/

/-- Settles O27: the class does `ResetTable` on the state the read leaves. -/
theorem clearResetsTheTable : Obligations.ClearResetsTheTable := fun _ _ _ h hr => onCode_of_code h hr

/-- Settles O28: the class skips what is left of the sub-block and goes on at the image's chain. -/
theorem endCodeSkipsTheRest : Obligations.EndCodeSkipsTheRest := fun _ _ _ h hr => onCode_of_code h hr

/-- Settles O30: both classes raise on the state the read leaves. -/
theorem invalidCodesRaise : Obligations.InvalidCodesRaise := fun _ _ _ _ h hr =>
  ⟨onCode_of_code h hr, onCode_of_code h hr⟩

/-- Settles O37: the read moves the cursor and the bit reader only, and the completed image keeps of these the cursor. -/
theorem dataEndCompletesTheImage : Obligations.DataEndCompletesTheImage := by
  intro s u h hr
  have hu := sameButReader_of_dataEnd hr
  have hexec : exec .dataEnd s = .next (completeImage u) := by
    rw [exec, execDataEnd, if_pos h, hr]
  have hm : u.lz.m = s.lz.m := by rw [hu.lz]
  have htarget : u.lz.target = s.lz.target := by rw [hu.lz]
  rw [hexec, hu.rest, completeImage, ← hm, ← htarget]
  rfl

/-! ### Emitting a character -/

/-- Settles O29: `Emit` writes the target and the count of characters only. -/
theorem freshLiteralIsEmitted : Obligations.FreshLiteralIsEmitted := by
  intro s u v code h hr
  have hexec : exec (.codeFreshLiteral code) s =
      .next { u with lz := { emit code u.lz with oldCode := some code, firstChar := code } } := onCode_of_code h hr
  rw [hexec, emit_frame]

/-- Settles O35: a character inside the image is one write to its element, and one beyond it is none. -/
theorem emitPlacesTheCharacter : Obligations.EmitPlacesTheCharacter := by
  intro lz v hwf
  refine ⟨emit_frame v lz, fun h => by rw [emit_target, if_pos h], fun hw hh hk => ?_⟩
  intro row k
  have hin : ¬ (lz.width = 0 ∨ lz.height = 0 ∨ lz.outPos ≥ lz.width * lz.height) := by
    rintro (h | h | h)
    · exact hw h
    · exact hh h
    · exact absurd hk (Nat.not_lt.2 h)
  have helem : outputElement lz lz.outPos = row * lz.width + lz.outPos % lz.width := rfl
  rw [emit_target, if_neg hin, helem]
  split
  · rename_i hk
    rw [hk, Elements.read_write_self hwf]
  · rename_i hk
    exact Elements.read_write_of_ne _ _ hk

/-! ### Appending an entry -/

/-- Settles O34: growth and append each make one test. -/
theorem widthGrowsAtThePowerOfTwo : Obligations.WidthGrowsAtThePowerOfTwo := by
  intro lz
  rw [← Nat.one_shiftLeft]
  refine ⟨fun hfull hsize => if_pos ⟨hfull, hsize⟩, fun h => if_neg ?_, fun p c => ?_⟩
  · rintro ⟨hfull, hsize⟩
    exact h.elim (Nat.not_lt.2 hfull) (Nat.not_le.2 hsize)
  · split
    · exact append_of_lt ‹_›
    · exact append_of_le (Nat.not_lt.1 ‹_›)

/-! ### Data codes -/

/-- A code that does not resolve, its string passing the stack bound, raises StackOverflow (R175). -/
theorem dataCode_of_overflow {c old : Nat} (ho : u.lz.oldCode = some old) (hr : resolveCode u.lz c old = none) :
    dataCode c u = .next (raise .stackOverflow .lzwData u) := by
  rcases dataCode_cases (c := c) ho with ⟨-, e⟩ | ⟨c0, st, hr', -⟩
  · exact e
  · rw [hr] at hr'; cases hr'

/-- A code that resolves raises CorruptLzwStream with a full table (R177), and with a free slot appends its entry and
emits its string (R173 to R179). -/
theorem dataCode_of_resolved {c old c0 : Nat} {st : List Nat} (ho : u.lz.oldCode = some old)
    (hr : resolveCode u.lz c old = some (c0, st)) :
    (4096 ≤ u.lz.avail → dataCode c u = .next (raise .corruptLzwStream .lzwData u)) ∧
    (u.lz.avail < 4096 → dataCode c u = .next { u with lz := u.lz.afterData old c c0 st }) := by
  rcases dataCode_cases (c := c) ho with ⟨hn, -⟩ | ⟨c0', st', hr', ⟨hfull, e⟩ | ⟨hroom, e⟩⟩
  · rw [hr] at hn; cases hn
  · exact ⟨fun _ => e, fun h => absurd h (Nat.not_lt.2 hfull)⟩
  · rw [hr] at hr'; cases hr'
    exact ⟨fun h => absurd hroom (Nat.not_lt.2 h), fun _ => e⟩

/-- The width does not depend on the stack. -/
theorem growCodeSize_withStack (lz : LzRegs) (st : List Nat) :
    growCodeSize { lz with stack := st } = { growCodeSize lz with stack := st } := by
  unfold growCodeSize; split <;> rfl

theorem growCodeSize_stack (lz : LzRegs) : (growCodeSize lz).stack = lz.stack := by rw [growCodeSize_frame]

/-- Emptying the stack `st` emits it in order, and leaves the registers as they were with an empty stack. -/
theorem emitStack_grown {lz : LzRegs} (h : lz.stack = []) (st : List Nat) (o : Option Nat) (c0 : Nat) :
    emitStack { growCodeSize { lz with stack := st } with oldCode := o, firstChar := c0 } =
      st.foldl (fun z x => emit x z) { growCodeSize lz with oldCode := o, firstChar := c0 } := by
  have hst : (growCodeSize lz).stack = [] := (growCodeSize_stack lz).trans h
  rw [growCodeSize_withStack, emitStack]
  dsimp only
  rw [hst]

/-- A data code appends its entry, and emits its string from an empty stack. -/
theorem LzRegs.afterData_of_stack {lz : LzRegs} (h : lz.stack = []) (old c c0 : Nat) (st : List Nat) :
    lz.afterData old c c0 st = st.foldl (fun z x => emit x z)
      { growCodeSize
        { lz with
          prefixTab := Elements.write lz.prefixTab lz.avail old,
          suffixTab := Elements.write lz.suffixTab lz.avail c0,
          avail := lz.avail + 1 } with oldCode := some c, firstChar := c0 } :=
  emitStack_grown
    (lz := { lz with
      prefixTab := Elements.write lz.prefixTab lz.avail old,
      suffixTab := Elements.write lz.suffixTab lz.avail c0,
      avail := lz.avail + 1 })
    h st (some c) c0

/-- CODE_LITERAL and CODE_TABLE are the data code of their code, CODE_KWKWK that of `avail`, on the state the read
leaves (R173, R174). -/
theorem exec_dataCode (h : s.site = .imageData) (hr : readCode s = .code v u) :
    (∀ c, exec (.codeLiteral c) s = dataCode c u) ∧ (∀ c, exec (.codeTable c) s = dataCode c u) ∧
      exec .codeKwkwk s = dataCode u.lz.avail u :=
  ⟨fun _ => onCode_of_code h hr, fun _ => onCode_of_code h hr, onCode_of_code h hr⟩

/-- Settles O31: the string of a known code is its chain, and it fits the stack. -/
theorem knownCodeEmitsItsString : Obligations.KnownCodeEmitsItsString := by
  intro s u v code old l h hr ho hst hne hl hlen hroom lz1 t
  obtain ⟨hliteral, htable, -⟩ := exec_dataCode h hr
  have hres : resolveCode u.lz code old = some (l.headD 0, l) :=
    (resolveCode_of_spells hst hne hl).trans (if_pos hlen)
  have hdata : dataCode code u = .next t := by
    rw [(dataCode_of_resolved ho hres).2 hroom, LzRegs.afterData_of_stack hst]
  exact ⟨(hliteral code).trans hdata, (htable code).trans hdata⟩

/-- Settles O32: the string of the code `avail` is the old code's chain and `firstChar` below it. -/
theorem kwkwkEmitsTheOldString : Obligations.KwkwkEmitsTheOldString := by
  intro s u v old l h hr ho hst hl hlen hroom lz1
  obtain ⟨-, -, hkwkwk⟩ := exec_dataCode h hr
  have hres : resolveCode u.lz u.lz.avail old = some (l.headD 0, l ++ [u.lz.firstChar]) :=
    (resolveCode_avail hst hl).trans (if_pos hlen)
  rw [hkwkwk, (dataCode_of_resolved ho hres).2 hroom, LzRegs.afterData_of_stack hst]

/-- Settles O33: a code is resolved before its entry is appended, so the stack bound is met before the full table. -/
theorem dataCodeAborts : Obligations.DataCodeAborts := by
  intro s u v old l h hr ho hst
  obtain ⟨hliteral, htable, hkwkwk⟩ := exec_dataCode h hr
  refine ⟨fun code hne hl => ?_, fun hl => ?_⟩
  · have hres := resolveCode_of_spells (old := old) hst hne hl
    refine ⟨fun hlong => ?_, fun hlen hfull => ?_⟩
    · have hdata := dataCode_of_overflow ho (hres.trans (if_neg (Nat.not_le.2 hlong)))
      exact ⟨(htable code).trans hdata, (hliteral code).trans hdata⟩
    · have hdata := (dataCode_of_resolved ho (hres.trans (if_pos hlen))).1 hfull
      exact ⟨(htable code).trans hdata, (hliteral code).trans hdata⟩
  · have hres := resolveCode_avail hst hl
    exact ⟨fun hlong => hkwkwk.trans (dataCode_of_overflow ho (hres.trans (if_neg (Nat.not_le.2 hlong)))),
      fun hlen hfull => hkwkwk.trans ((dataCode_of_resolved ho (hres.trans (if_pos hlen))).1 hfull)⟩

end Sys2Proof.Machine
end

section
/-! PROOF. The interlace sequence (41_lzw_decoder.md R182): the four passes in order, every row once. -/

namespace Sys2Proof.Machine

/-- A pass visits the rows below `h` that its stride leaves at its start. -/
theorem mem_passRows {start stride h r : Nat} (hs : start < stride) :
    r ∈ passRows start stride h ↔ r < h ∧ r % stride = start := by
  have hpos : 0 < stride := Nat.zero_lt_of_lt hs
  rw [passRows, List.mem_range']
  constructor
  · rintro ⟨i, hi, rfl⟩
    refine ⟨lt_of_mem_passRows hpos (List.mem_range'.2 ⟨i, hi, rfl⟩), ?_⟩
    rw [Nat.add_mul_mod_self_left, Nat.mod_eq_of_lt hs]
  · rintro ⟨hr, hmod⟩
    have hdiv := Nat.mod_add_div r stride
    refine ⟨r / stride, (Nat.le_div_iff_mul_le hpos).2 ?_, by rw [← hmod, hdiv]⟩
    rw [Nat.succ_mul, Nat.mul_comm]
    omega

theorem passRows_sortedLT {start stride h : Nat} (hs : 0 < stride) : (passRows start stride h).SortedLT :=
  List.sortedLT_range' _ _ hs.ne'

/-- A pass is the rows of its residue, in order. -/
theorem passRows_eq_filter {start stride : Nat} (hs : start < stride) (h : Nat) :
    passRows start stride h = (List.range h).filter (fun r => r % stride = start) := by
  refine (passRows_sortedLT (Nat.zero_lt_of_lt hs)).eq_of_mem_iff (List.pairwise_lt_range.filter _).sortedLT fun r => ?_
  rw [mem_passRows hs, List.mem_filter, List.mem_range, decide_eq_true_iff]

/-- Every row below `h` is in one of the passes: its residue modulo 8, 4 or 2 decides which. -/
theorem mem_interlaceRows {h r : Nat} : r ∈ interlaceRows h ↔ r < h := by
  simp only [interlaceRows, List.mem_append, mem_passRows, Nat.reduceLT]
  omega

/-- No row is in two passes, and none is visited twice in one. -/
theorem interlaceRows_nodup (h : Nat) : (interlaceRows h).Nodup := by
  have hpass (start : Nat) {stride : Nat} (hs : 0 < stride) : (passRows start stride h).Nodup :=
    (passRows_sortedLT hs).nodup
  refine (((hpass 0 (by decide)).append (hpass 4 (by decide)) ?_).append (hpass 2 (by decide)) ?_).append
    (hpass 1 (by decide)) ?_
  all_goals
    intro r hearlier hlater
    simp only [List.mem_append, mem_passRows, Nat.reduceLT] at hearlier hlater
    omega

/-- Settles O36: each pass is the rows of its residue, and together they hold each row below `h` once. -/
theorem interlaceVisitsEveryRowOnce : Obligations.InterlaceVisitsEveryRowOnce := by
  intro h
  constructor
  · simp only [interlaceRows, passRows_eq_filter, Nat.reduceLT]
  · refine (List.perm_ext_iff_of_nodup (interlaceRows_nodup h) List.nodup_range).2 fun r => ?_
    rw [mem_interlaceRows, List.mem_range]

end Sys2Proof.Machine
end

section
/-! PROOF. The canvas (42_frame_compositor.md R213 to R220): what each disposal and a blit paint, pixel by pixel, and that
they paint nothing else. -/

namespace Sys2Proof.Machine

/-! ### The pixels of a frame -/

/-- On the canvas, a frame's rectangle is its placement (R218). -/
theorem mem_rect_of_lt {d : ImageDescriptor} {w h x y : Nat} (hx : x < w) (hy : y < h) :
    (x, y) ∈ rect d w h ↔
      d.x.toNat ≤ x ∧ x < d.x.toNat + d.width.toNat ∧ d.y.toNat ≤ y ∧ y < d.y.toNat + d.height.toNat := by
  simp only [mem_rect, hx, hy, and_true]

/-- A transparent source pixel: the control is transparent with the pixel's index (R217, 40_container_parser.md R138). -/
theorem transparentSource_iff {f : Frame} {x y : Nat} :
    transparentSource f x y = true ↔
      f.gc.any (·.isTransparent) = true ∧ f.gc.map (·.transparencyIndex.toNat) = some (indexAt f x y) := by
  rw [transparentSource, Bool.and_eq_true, beq_iff_eq, isTransparentOf, tIndexOf]
  cases f.gc with
  | none => simp
  | some g => exact and_congr_right fun _ => eq_comm.trans Option.some_inj.symm

/-- The active palette (R219). -/
theorem activePalette_eq (screen : Screen) (f : Frame) :
    activePalette screen f = f.desc.localColors.getD (screen.globalColors.getD []) := by
  rw [activePalette]
  cases f.desc.localColors with
  | some p => rfl
  | none => cases screen.globalColors <;> rfl

/-- What a blit leaves at a pixel that held `old` (R220). -/
theorem blitPixel_getD (screen : Screen) (f : Frame) (x y : Nat) (old : Rgba) :
    (blitPixel screen f x y).getD old =
      if transparentSource f x y = true then old
      else ((f.desc.localColors.getD (screen.globalColors.getD []))[indexAt f x y]?).getD old := by
  rw [blitPixel, activePalette_eq]
  split <;> rfl

/-! ### Painting -/

/-- Painting where only the transparent source pixels get no value (R215, R216). -/
theorem pixelRead_paintRect_opaque {p : Frame} {w h x y : Nat} {pixel : Nat → Nat → Option Rgba} {v : Rgba}
    {cv : Memory} (hcv : Memory.wf cv = true) (hx : x < w) (hy : y < h)
    (hpixel : pixel x y = if transparentSource p x y = true then none else some v) :
    pixelRead (paintRect p.desc w h pixel cv) w x y =
      if (p.desc.x.toNat ≤ x ∧ x < p.desc.x.toNat + p.desc.width.toNat ∧
          p.desc.y.toNat ≤ y ∧ y < p.desc.y.toNat + p.desc.height.toNat) ∧
          ¬ (p.gc.any (·.isTransparent) = true ∧ p.gc.map (·.transparencyIndex.toNat) = some (indexAt p x y)) then v
      else pixelRead cv w x y := by
  rw [pixelRead_paintRect p.desc h y pixel hcv hx, hpixel, ← if_congr (and_congr (mem_rect_of_lt hx hy)
    (not_congr transparentSource_iff)) rfl rfl]
  by_cases ht : transparentSource p x y = true
  · simp [ht]
  · simp [ht]

/-- A pixel of the canvas lies below `4·W·H` (20_memory.md R74, R76). -/
theorem pixelOffset_add_four_le {w h x y : Nat} (hx : x < w) (hy : y < h) : pixelOffset w x y + 4 ≤ 4 * (w * h) := by
  have hrow : (y + 1) * w ≤ h * w := Nat.mul_le_mul_right w hy
  rw [Nat.add_mul, Nat.one_mul, Nat.mul_comm h w] at hrow
  rw [pixelOffset]
  omega

/-- Painting a rectangle writes no byte beyond the canvas. -/
theorem read_paintRect_of_le {d : ImageDescriptor} {w h a : Nat} {pixel : Nat → Nat → Option Rgba} {cv : Memory}
    (ha : 4 * (w * h) ≤ a) : Memory.read (paintRect d w h pixel cv) a = Memory.read cv a := by
  rw [paintRect]
  refine List.foldlRecOn (motive := fun m => Memory.read m a = Memory.read cv a) _ _ rfl fun m hm p hp => ?_
  obtain ⟨-, -, -, -, hx, hy⟩ := mem_rect.1 (show (p.1, p.2) ∈ rect d w h from hp)
  split
  · exact hm
  · exact (Memory.read_writeBytes_of_outside m (.inr ((pixelOffset_add_four_le hx hy).trans ha))).trans hm

/-! ### Disposals -/

variable {s : State} {p f : Frame}

/-- A disposal with a prior frame applies its method to it and goes on to the blit (R212, R213). -/
theorem disposeBy_of_prior (m : Frame → Memory) (h : s.site = .dispose) (hi : s.fc.i ≠ 0)
    (hp : s.frames[s.fc.i - 1]? = some p) : disposeBy m s = .next (goTo .blit (withCanvas (m p) s)) :=
  disposeBy_eq_next.2 ⟨h, p, (if_neg hi).trans hp, rfl⟩

/-- Settles O39: the six codes share the method that puts the canvas back as it is. -/
theorem disposeNoneKeepsTheCanvas : Obligations.DisposeNoneKeepsTheCanvas := by
  intro s p h hi hp t
  have hnone : disposeNone s = .next t := disposeBy_of_prior _ h hi hp
  exact ⟨hnone, hnone, hnone, hnone, hnone, hnone⟩

/-- Settles O40: BACKGROUND paints zero at every pixel that was no transparent source pixel. -/
theorem disposeBackgroundClears : Obligations.DisposeBackgroundClears := by
  intro s p h hi hp hwf
  refine ⟨_, disposeBy_of_prior _ h hi hp, fun x y hx hy => ?_, fun a ha => read_paintRect_of_le ha⟩
  exact pixelRead_paintRect_opaque hwf hx hy rfl

/-- Settles O41: PREVIOUS paints the snapshot's pixel, or zero, at every pixel that was no transparent source pixel. -/
theorem disposePreviousRestores : Obligations.DisposePreviousRestores := by
  intro s p h hi hp hwf
  refine ⟨_, disposeBy_of_prior _ h hi hp, fun x y hx hy => ?_, fun a ha => read_paintRect_of_le ha⟩
  refine pixelRead_paintRect_opaque hwf hx hy ?_
  cases s.fc.kept <;> rfl

/-! ### The disposal due -/

/-- `Dispose(p)` by its method `d` (R213). -/
def disposeByMethod (d : Disposal) (s : State) : Out :=
  match d with
  | .unspecified => exec .dispose0 s
  | .none => exec .dispose1 s
  | .background => exec .dispose2 s
  | .previous => exec .dispose3 s

/-- The instruction of a disposal code runs the method the code stands for: 4 to 7 are UNSPECIFIED
(40_container_parser.md R130). -/
theorem exec_disposeInstr (c : BitVec 3) (s : State) :
    exec (disposeInstr c) s = disposeByMethod (disposalOfCode c) s := by
  rw [disposeInstr, disposalOfCode]
  match c.toNat with
  | 0 | 1 | 2 | 3 | 4 | 5 | 6 | _ + 7 => rfl

/-- A step at a disposal runs the prior frame's code (30_encoding.md R106). -/
theorem step_at_dispose_runs_priorOpcode (h : s.site = .dispose) : step s = exec (disposeInstr (priorOpcode s)) s :=
  step_of_record (by rw [recordAt, h]) (decode_disposalByte _)

/-- The code kept for the prior frame is one of its method's. -/
theorem OpcodesFit.disposalOf_prior (hs : OpcodesFit s) (hp : s.frames[s.fc.i - 1]? = some p) :
    disposalOf p = disposalOfCode (priorOpcode s) := by
  obtain ⟨hlt, -⟩ := List.getElem?_eq_some_iff.1 hp
  have hlt' : s.fc.i - 1 < s.opcodes.length := hs.length.symm ▸ hlt
  have hc : s.opcodes[s.fc.i - 1]? = some s.opcodes[s.fc.i - 1] := List.getElem?_eq_getElem hlt'
  rw [priorOpcode, List.getD_eq_getElem?_getD, hc]
  exact hs.frames _ p _ hp hc

/-- Settles O42: the step runs the prior frame's code, which is one of its method's. -/
theorem disposalIsThePriorFrames : Obligations.DisposalIsThePriorFrames := by
  intro s p hs h hi hp
  rw [step_at_dispose_runs_priorOpcode h, exec_disposeInstr, ← hs.disposalOf_prior hp]
  rfl

/-! ### The blit -/

theorem keepsSnapshot_iff : keepsSnapshot f = true ↔ disposalOf f = .none ∨ disposalOf f = .unspecified := by
  rw [keepsSnapshot, Bool.or_eq_true, beq_iff_eq, beq_iff_eq]

/-- A blit draws the current frame, and the snapshot or the store follows. -/
theorem execBlit_of_frame (h : s.site = .blit) (hf : s.frames[s.fc.i]? = some f) :
    execBlit s = .next (goTo (if keepsSnapshot f = true then .snapshot else .store)
      (withCanvas (paintRect f.desc (screenW s) (screenH s) (blitPixel s.screen f) s.fc.canvas) s)) := by
  rw [execBlit, if_pos h, currentFrame, hf]

/-- Snapshot and store are places of the composite phase. -/
theorem goTo_snapshot_or_store (c : Prop) [Decidable c] (s : State) :
    goTo (if c then .snapshot else .store) s =
      { s with site := if c then .snapshot else .store, phase := .composite } := by
  split <;> rfl

/-- Settles O38: a blit paints the palette's entry at every pixel that has one and is no transparent source pixel. -/
theorem blitDrawsTheFrame : Obligations.BlitDrawsTheFrame := by
  refine ⟨fun _ _ _ _ => rfl, fun f hf => ?_, fun f g hf => ?_, fun s f h hf hwf =>
    ⟨paintRect f.desc (screenW s) (screenH s) (blitPixel s.screen f) s.fc.canvas, ?_, fun x y hx hy => ?_,
      fun a ha => read_paintRect_of_le ha⟩⟩
  · simp [isTransparentOf, disposalOf, hf]
  · simp [isTransparentOf, disposalOf, tIndexOf, hf]
  · refine (execBlit_of_frame h hf).trans ?_
    simp only [keepsSnapshot_iff, goTo_snapshot_or_store]
    rfl
  · exact (pixelRead_paintRect f.desc _ y _ hwf hx).trans
      (if_congr (mem_rect_of_lt hx hy)
        ((blitPixel_getD s.screen f x y _).trans (if_congr transparentSource_iff rfl rfl)) rfl)

end Sys2Proof.Machine
end

section
/-! PROOF. Snapshot and store (42_frame_compositor.md R212, R221, R222). -/

namespace Sys2Proof.Machine

variable {s : State} {f : Frame}

/-- SNAPSHOT asks for the room of a first copy and copies the canvas, for a frame that updates the snapshot. -/
theorem exec_snapshot_of_frame (h : s.site = .snapshot) (hf : s.frames[s.fc.i]? = some f) :
    exec .snapshot s =
      if keepsSnapshot f = true then
        allocate (if s.fc.kept.isSome then 0 else canvasBytes s) s
          (.next (goTo .store { s with fc := { s.fc with kept := some s.fc.canvas } }))
      else .next (goTo .store s) := by
  rw [exec, execSnapshot, if_pos h, currentFrame, hf]

/-- Settles O43: only a frame that updates the snapshot asks for its room and copies the canvas. -/
theorem snapshotKeepsTheCanvas : Obligations.SnapshotKeepsTheCanvas := by
  intro s f h hf
  have hexec := exec_snapshot_of_frame h hf
  refine ⟨fun hd hroom => ?_, fun hd hroom => ?_, fun hd => ?_⟩
  · exact hexec.trans ((if_pos (keepsSnapshot_iff.2 hd)).trans (allocate_of_le hroom))
  · exact hexec.trans ((if_pos (keepsSnapshot_iff.2 hd)).trans (allocate_of_lt hroom))
  · have hk : ¬ keepsSnapshot f = true := by rcases hd with hd | hd <;> simp [keepsSnapshot_iff, hd]
    exact hexec.trans (if_neg hk)

/-- STORE asks for the rendered buffer's room, copies the canvas and ends the turn of the loop. -/
theorem exec_store_of_frame (h : s.site = .store) (hf : s.frames[s.fc.i]? = some f) :
    exec .store s = allocate (canvasBytes s) s
      (.next (nextFrame { s with frames := s.frames.set s.fc.i { f with rendered := some s.fc.canvas } })) := by
  rw [exec, execStore, if_pos h, currentFrame, hf]

/-- Settles O44: behind the room for the copy, the number of frames decides how the loop goes on. -/
theorem storeRendersTheFrame : Obligations.StoreRendersTheFrame := by
  intro s f h hf frames
  have hlen : frames.length = s.frames.length := List.length_set
  refine ⟨fun hroom => ?_, fun hroom hi => ?_, fun hroom hi => ?_⟩ <;> rw [exec_store_of_frame h hf]
  · exact allocate_of_lt hroom
  · exact (allocate_of_le hroom).trans (congrArg _ (if_pos (hi.trans_eq hlen.symm)))
  · exact (allocate_of_le hroom).trans (congrArg _ (if_neg (hi.trans hlen.symm).not_lt))

end Sys2Proof.Machine
end

section
/-! PROOF. The composite phase: it raises no error (42_frame_compositor.md R225), and renders the frames in order (R222,
R226). -/

namespace Sys2Proof.Machine

variable {s t : State}

/-! ### No error -/

/-- A step of the compositor answers when the frame it acts on is there. -/
theorem answers_of_composing (hs : FrameDue s) (hc : Composing s) : Answers (step s) := by
  rcases hc with h | h | h | h
  · rcases step_at_dispose h with e | e | e <;> rw [e] <;> exact answers_disposeBy hs h
  · obtain ⟨f, hf⟩ := hs.currentFrame (composing_blit h)
    rw [step_at_blit h, execBlit_of_frame h hf]; exact .next _
  · exact answers_at_snapshot hs h
  · exact answers_at_store hs h

/-- The places of the compositor lie in its phase. -/
theorem PhaseFits.phase_of_composing (hs : PhaseFits s) (hc : Composing s) : s.phase = .composite := by
  rcases hc with h | h | h | h <;>
    exact (hs.running (by rw [h]; nofun)).1.trans (by rw [h]; rfl)

theorem phaseOf_ne_done {p : Site} (h : p ≠ .ended) : phaseOf p ≠ .done := by
  cases p with
  | ended => exact absurd rfl h
  | chain owner => cases owner <;> exact nofun
  | _ => exact nofun

theorem PhaseFits.result_of_composite (hs : PhaseFits s) (h : s.phase = .composite) : s.result = .running := by
  rcases hs with ⟨-, -, hr⟩ | ⟨-, hp, -⟩ | ⟨-, hp, -⟩
  · exact hr
  · rw [hp] at h; cases h
  · rw [hp] at h; cases h

theorem PhaseFits.result_of_done (hs : PhaseFits s) (h : s.phase = .done) : ∃ im, s.result = .success im := by
  rcases hs with ⟨hne, hp, -⟩ | ⟨-, -, hr⟩ | ⟨-, hp, -⟩
  · exact absurd (hp.symm.trans h) (phaseOf_ne_done hne)
  · exact hr
  · rw [hp] at h; cases h

/-- The composite phase ends in DONE only (40_container_parser.md R139). -/
theorem composite_or_done_of_edge {p : Phase} (h : (.composite, p) ∈ phaseEdges) : p = .composite ∨ p = .done := by
  simpa [phaseEdges] using h

/-- Settles O45: a step of the compositor answers, and its phase has an edge to itself and one to DONE. -/
theorem compositorRaisesNothing : Obligations.CompositorRaisesNothing := by
  intro s hc hd hs
  refine (answers_of_composing hd hc).imp id fun ⟨t, ht⟩ => ⟨t, ht, ?_⟩
  obtain ⟨hfits, hedge⟩ := (stepsTo_of_step ht).phaseFits hs
  rw [hs.phase_of_composing hc] at hedge
  exact (composite_or_done_of_edge hedge).imp (fun h => ⟨h, hfits.result_of_composite h⟩)
    fun h => ⟨h, hfits.result_of_done h⟩

/-! ### The frames rendered so far -/

/-- The frames of a reported image are rendered when compositing is enabled, and not otherwise (R226). -/
def ImageRendered (s : State) : Prop :=
  ∀ im, s.result = .success im → ∀ f ∈ im.frames, f.rendered.isSome = s.compositeEnable

/-- Exactly the frames below `n` are rendered. -/
def RenderedBelow (n : Nat) (frames : List Frame) : Prop :=
  ∀ (i : Nat) (f : Frame), frames[i]? = some f → (f.rendered.isSome = true ↔ i < n)

theorem renderedFits_parsing (hp : t.site.parsing = true) (hf : ∀ f ∈ t.frames, f.rendered = none)
    (hi : ImageRendered t) : RenderedFits t :=
  ⟨fun _ _ => hf, fun hc => absurd hc (not_composing_of_parsing hp), hi⟩

theorem renderedFits_composing (hc : Composing t) (he : t.compositeEnable = true)
    (hf : RenderedBelow t.fc.i t.frames) (hi : ImageRendered t) : RenderedFits t :=
  ⟨fun _ hn => absurd hc hn, fun _ => ⟨he, hf⟩, hi⟩

theorem renderedFits_ended (h : t.site = .ended) (hi : ImageRendered t) : RenderedFits t :=
  ⟨fun hne => absurd h hne, fun hc => absurd hc (not_composing_of_ended h), hi⟩

theorem renderedFits_succeed (hf : ∀ f ∈ s.frames, f.rendered.isSome = s.compositeEnable) :
    RenderedFits (succeed s) :=
  renderedFits_ended rfl (by rintro im ⟨⟩; exact hf)

/-- At the start of the composite phase no frame is rendered. -/
theorem renderedBelow_zero {frames : List Frame} (hf : ∀ f ∈ frames, f.rendered = none) : RenderedBelow 0 frames := by
  intro i f h
  simp [hf f (List.mem_of_getElem? h)]

/-- Rendering the current frame renders one more (R222). -/
theorem RenderedBelow.setRendered {f : Frame} {m : Memory} (hs : RenderedBelow s.fc.i s.frames)
    (hf : currentFrame s = some f) :
    RenderedBelow (s.fc.i + 1) (s.frames.set s.fc.i { f with rendered := some m }) := by
  intro i f' h
  by_cases hi : s.fc.i = i
  · subst hi
    obtain ⟨hlt, -⟩ := List.getElem?_eq_some_iff.1 hf
    rw [List.getElem?_set_self hlt] at h
    cases h
    simp
  · rw [List.getElem?_set_ne hi] at h
    rw [hs i f' h]
    omega

/-- When the frames below their number are rendered, all are. -/
theorem RenderedBelow.forall_isSome {n : Nat} {frames : List Frame} (hs : RenderedBelow n frames)
    (hn : frames.length ≤ n) : ∀ f ∈ frames, f.rendered.isSome = true := by
  intro f hf
  obtain ⟨i, hi, rfl⟩ := List.mem_iff_getElem.1 hf
  exact (hs i _ (List.getElem?_eq_getElem hi)).2 (by omega)

/-! ### The step -/

/-- The read of a code renders nothing. -/
theorem SameButReader.renderedFits (h : SameButReader s t) (hs : RenderedFits s) : RenderedFits t := by
  obtain ⟨hparse, hcomp, himage⟩ := hs
  rw [h.rest]
  exact ⟨hparse, hcomp, himage⟩

/-- A completed image's frame is not rendered yet. -/
theorem renderedFits_completeImage (hf : ∀ f ∈ s.frames, f.rendered = none) (hi : ImageRendered s) :
    RenderedFits (completeImage s) := by
  refine renderedFits_parsing rfl ?_ hi
  rw [completeImage_frames, List.forall_mem_append, List.forall_mem_singleton]
  exact ⟨hf, rfl⟩

theorem RenderedFits.not_rendered (hs : RenderedFits s) (hp : s.site.parsing = true) :
    ∀ f ∈ s.frames, f.rendered = none :=
  hs.parsing (Site.ne_ended_of_parsing hp) (not_composing_of_parsing hp)

theorem StepsTo.renderedFits (ht : StepsTo s t) (hs : RenderedFits s) : RenderedFits t := by
  have ⟨_, hcomp, himage⟩ := hs
  have hnone {p : Site} (h : s.site = p) (hp : p.parsing = true) := hs.not_rendered (h ▸ hp)
  cases ht with
  | ended => exact hs
  | raised => exact renderedFits_ended rfl nofun
  | screen scr g n h => exact renderedFits_parsing (by cases g <;> rfl) (hnone h rfl) himage
  | img d l n h => exact renderedFits_parsing (by cases l <;> rfl) (hnone h rfl) himage
  | sub owner n h => exact renderedFits_parsing (by rw [advance_site, h]; rfl) (hnone h rfl) himage
  | endImage h => exact renderedFits_completeImage (s := advance 1 s) (hnone h rfl) himage
  | trailer h hf =>
    refine renderedFits_succeed fun f hm => ?_
    cases he : s.compositeEnable with
    | true => exact absurd hm (List.eq_nil_iff_forall_not_mem.1 (hf he) f)
    | false => rw [hnone h rfl f hm]; exact he.symm
  | compose h he => exact renderedFits_composing (composing_blit rfl) he (renderedBelow_zero (hnone h rfl)) himage
  | code v u lz h hr =>
    have ⟨hparse, hcomp, himage⟩ := (sameButReader_of_code hr).renderedFits hs
    exact ⟨hparse, hcomp, himage⟩
  | codeEnd v u h hr =>
    have hu := sameButReader_of_code hr
    exact renderedFits_parsing rfl (by rw [hu.rest]; exact hnone h rfl) (hu.renderedFits hs).image
  | dataEnd u h hr =>
    have hu := sameButReader_of_dataEnd hr
    exact renderedFits_completeImage (by rw [hu.rest]; exact hnone h rfl) (hu.renderedFits hs).image
  | dispose p cv h =>
    obtain ⟨he, hf⟩ := hcomp (composing_dispose h)
    exact renderedFits_composing (composing_blit rfl) he hf himage
  | blit f h =>
    obtain ⟨he, hf⟩ := hcomp (composing_blit h)
    refine renderedFits_composing ?_ he hf himage
    cases keepsSnapshot f
    · exact composing_store rfl
    · exact composing_snapshot rfl
  | snapshot f h =>
    obtain ⟨he, hf⟩ := hcomp (composing_snapshot h)
    exact renderedFits_composing (composing_store rfl) he hf himage
  | noSnapshot f h =>
    obtain ⟨he, hf⟩ := hcomp (composing_snapshot h)
    exact renderedFits_composing (composing_store rfl) he hf himage
  | store f h hc =>
    obtain ⟨he, hf⟩ := hcomp (composing_store h)
    exact renderedFits_composing (composing_dispose rfl) he (RenderedBelow.setRendered hf hc) himage
  | storeLast f h hc hi =>
    obtain ⟨he, hf⟩ := hcomp (composing_store h)
    have hall := (RenderedBelow.setRendered (m := s.fc.canvas) hf hc).forall_isSome (by simpa using hi)
    exact renderedFits_succeed fun f hm => (hall f hm).trans he.symm
  | header _ h | globalPalette _ _ h | nextBlock h | extension h | graphicsControl _ _ h | extOther _ h
    | endExtension h | endControl _ _ h | localPalette _ _ h | minCodeSize _ h =>
    exact renderedFits_parsing rfl (hnone h rfl) himage

/-- Settles O56: no frame is rendered while the stream is parsed, STORE renders the next one in order, and the end of the
call reports the frames as they are. -/
theorem renderingGoesInOrder : Obligations.RenderingGoesInOrder :=
  fun _ _ hs ht => (stepsTo_of_step ht).renderedFits hs

end Sys2Proof.Machine
end

section
/-! PROOF. Failures (60_exceptions.md): a step reports a new one only by a raise of a pair of R242, which discards
everything that was parsed (R243). -/

namespace Sys2Proof.Machine

variable {s t u : State}

/-- A raise where only the cursor and the bit reader have moved keeps of these the cursor. -/
theorem SameButReader.raise_eq (h : SameButReader s u) (k : ErrorKind) (g : StepTag) :
    raise k g u = raise k g { s with cursor := u.cursor } := by
  rw [h.rest]; rfl

/-- What a step can do to the result: leave it, raise a pair of R242 with the cursor moved, or end with a success. -/
theorem StepsTo.result_cases (ht : StepsTo s t) :
    t.result = s.result ∨
    (∃ k g c, (k, g) ∈ legalFailures ∧ t = raise k g { s with cursor := c }) ∨
    ∃ im, t.result = .success im := by
  cases ht with
  | raised u k g hu hk => exact .inr (.inl ⟨k, g, u.cursor, hk, hu.reader.raise_eq k g⟩)
  | trailer | storeLast => exact .inr (.inr ⟨_, rfl⟩)
  | code v u lz h hr => exact .inl (sameButReader_of_code hr).result_eq
  | codeEnd v u h hr => exact .inl (sameButReader_of_code hr).result_eq
  | dataEnd u h hr => exact .inl (sameButReader_of_dataEnd hr).result_eq
  | _ => exact .inl rfl

/-- A failure that was not reported before comes from a raise of that pair. -/
theorem StepsTo.raised_of_failure {k : ErrorKind} {g : StepTag} (ht : StepsTo s t) (hne : t.result ≠ s.result)
    (hf : t.result = .failure k g) :
    (k, g) ∈ legalFailures ∧ t = raise k g { s with cursor := t.cursor } := by
  rcases ht.result_cases with hr | ⟨k', g', c, hk, rfl⟩ | ⟨im, hr⟩
  · exact absurd hr hne
  · cases hf; exact ⟨hk, rfl⟩
  · rw [hr] at hf; cases hf

/-- Settles O49: a failure of the next state is the old one or a raise's, and every raise is of a listed pair. -/
theorem onlyListedFailuresOccur : Obligations.OnlyListedFailuresOccur := by
  intro s t hs ht k g hf
  by_cases hr : t.result = s.result
  · exact hs k g (hr ▸ hf)
  · exact ((stepsTo_of_step ht).raised_of_failure hr hf).1

/-- Settles O9: a step that ends a running call in a failure is a raise, and a raise drops every register but the
inputs, the cursor and the result. -/
theorem failureDiscardsEverything : Obligations.FailureDiscardsEverything := by
  refine ⟨fun _ _ _ => rfl, fun s t k g hrun ht hf => ?_, fun _ => ⟨rfl, rfl, rfl, rfl, rfl, rfl⟩⟩
  have hne : t.result ≠ s.result := by rw [hf, hrun]; nofun
  exact ((stepsTo_of_step ht).raised_of_failure hne hf).2

end Sys2Proof.Machine
end
